-- ==== Sys2Proof/Word.lean ====
section
/-! DEFINITION. The widths of the engine's words (00_scope.md R7, R11; 10_state.md R26). -/

namespace Sys2Proof

/-- A 32-bit word: a command word, register read data or an OUT read's result (00_scope.md R11). -/
abbrev Word := BitVec 32

/-- An input or output byte, BYTE_BITS = 8 (00_scope.md R7). -/
abbrev Byte := BitVec 8

/-- A symbol value in [0, 262143], SYM_BITS = 18 (00_scope.md R7). -/
abbrev Value := BitVec 18

/-- A symbol word, CP_W = 21 bits, and the width of one OUT entry (00_scope.md R11). -/
abbrev CodePoint := BitVec 21

/-- The NM field: the group size of the raw accumulator commands (30_encoding.md R64, R70). -/
abbrev GroupSize := BitVec 5

end Sys2Proof
end

