-- ==== Sys2Proof/Syntax.lean ====
section
/-! DEFINITION. The commands: one constructor per row of spec/opcode_table.json (30_encoding.md R65). -/

namespace Sys2Proof

/-- A command with its operands, assembled as 30_encoding.md R70 says. -/
inductive Instr where
  /-- ACC_CLR (41_accumulator.md R95). -/
  | accClr
  /-- ACC_APP N, c (41_accumulator.md R96). -/
  | accApp (n : GroupSize) (chunk : Value)
  /-- ACC_EXT M (41_accumulator.md R97). -/
  | accExt (m : GroupSize)
  /-- ENC_START (42_encoder.md R106). -/
  | encStart
  /-- ENC_BYTE b (42_encoder.md R107). -/
  | encByte (b : Byte)
  /-- ENC_FINISH (42_encoder.md R108). -/
  | encFinish
  /-- DEC_START (43_decoder.md R120). -/
  | decStart
  /-- DEC_SYM cp (43_decoder.md R121). -/
  | decSym (cp : CodePoint)
  /-- DEC_FINISH (43_decoder.md R125). -/
  | decFinish
  deriving DecidableEq, Repr

end Sys2Proof
end

