-- ==== Sys2Proof/WellFormed.lean ====
section
/-! DEFINITION. The value constraints on a command's operands (30_encoding.md R66). -/

namespace Sys2Proof

/-- A group size the raw commands accept: 1 to 18 (30_encoding.md R66). -/
abbrev GroupSize.wf (n : GroupSize) : Prop := 1 ≤ n.toNat ∧ n.toNat ≤ 18

/-- The operands meet the value constraint of the command's row (30_encoding.md R66). -/
def Instr.wellFormed : Instr → Bool
  | .accApp n chunk => decide (GroupSize.wf n ∧ chunk.toNat < 2 ^ n.toNat)
  | .accExt m => decide (GroupSize.wf m)
  | .accClr | .encStart | .encByte _ | .encFinish | .decStart | .decSym _ | .decFinish => true

/-- The check as a proposition. -/
abbrev Instr.WellFormed (i : Instr) : Prop := i.wellFormed = true

end Sys2Proof
end

