-- ==== Sys2Proof/Decode.lean ====
section
/-! DEFINITION. Decoding and encoding of the CMD32 format (30_encoding.md sections 1 to 3).
`legal` reads R66's match and mask table; `decode` reads R64's fields. The two are written apart, and
an obligation says they agree. -/

namespace Sys2Proof

/-! ## The match and mask table -/

/-- The value constraint column of 30_encoding.md R66. -/
inductive ValueConstraint where
  /-- No constraint. -/
  | any
  /-- 1 ≤ NM ≤ 18. -/
  | size
  /-- 1 ≤ NM ≤ 18 and DATA[17:0] < 2^NM. -/
  | sizeAndChunk
  deriving DecidableEq, Repr

/-- One row of 30_encoding.md R66: the bits a word must have under a mask, and its constraint. -/
structure OpcodeRow where
  matchBits : Word
  mask : Word
  constraint : ValueConstraint
  deriving DecidableEq, Repr

/-- The rows of 30_encoding.md R66, in the table's order. -/
def opcodeRows : List OpcodeRow :=
  [ ⟨0x10000000, 0xFFFFFFFF, .any⟩,            -- ACC_CLR
    ⟨0x20000000, 0xF07C0000, .sizeAndChunk⟩,   -- ACC_APP
    ⟨0x30000000, 0xF07FFFFF, .size⟩,           -- ACC_EXT
    ⟨0x40000000, 0xFFFFFFFF, .any⟩,            -- ENC_START
    ⟨0x50000000, 0xFFFFFF00, .any⟩,            -- ENC_BYTE
    ⟨0x60000000, 0xFFFFFFFF, .any⟩,            -- ENC_FINISH
    ⟨0x80000000, 0xFFFFFFFF, .any⟩,            -- DEC_START
    ⟨0x90000000, 0xFFE00000, .any⟩,            -- DEC_SYM
    ⟨0xA0000000, 0xFFFFFFFF, .any⟩ ]           -- DEC_FINISH

/-- The word has the row's fixed bits. -/
def OpcodeRow.fits (row : OpcodeRow) (w : Word) : Bool := w &&& row.mask == row.matchBits

/-! ## Fields -/

/-- OPC, w[31:28] (30_encoding.md R64). -/
def opcField (w : Word) : BitVec 4 := w.extractLsb' 28 4

/-- NM, w[27:23] (30_encoding.md R64). -/
def nmField (w : Word) : GroupSize := w.extractLsb' 23 5

/-- RSV, w[22:21] (30_encoding.md R64). -/
def rsvField (w : Word) : BitVec 2 := w.extractLsb' 21 2

/-- DATA, w[20:0] (30_encoding.md R64). -/
def dataField (w : Word) : BitVec 21 := w.extractLsb' 0 21

/-- The chunk of ACC_APP, w[17:0] (30_encoding.md R70). -/
def chunkField (w : Word) : Value := w.extractLsb' 0 18

/-- The byte of ENC_BYTE, w[7:0] (30_encoding.md R70). -/
def byteField (w : Word) : Byte := w.extractLsb' 0 8

/-- The word's fields meet a row's value constraint (30_encoding.md R66). -/
def ValueConstraint.holds (c : ValueConstraint) (w : Word) : Bool :=
  match c with
  | .any => true
  | .size => decide (1 ≤ (nmField w).toNat ∧ (nmField w).toNat ≤ 18)
  | .sizeAndChunk =>
    decide (1 ≤ (nmField w).toNat ∧ (nmField w).toNat ≤ 18 ∧
      (chunkField w).toNat < 2 ^ (nmField w).toNat)

/-- `Legal(w)` of 30_encoding.md R67, total on every word. -/
def legal (w : Word) : Bool :=
  match opcodeRows.find? (fun row => row.fits w) with
  | none => false
  | some row => row.constraint.holds w

/-! ## The decoder -/

/-- Why a word is illegal: the four cases of 30_encoding.md R68. The engine records none of them
(60_exceptions.md R135); the names serve a reader (notes/assumptions/18.md). -/
inductive IllegalWord where
  /-- OPC is 0x0, 0x7 or 0xB to 0xF. -/
  | opcode
  /-- A nonzero bit in NM, RSV or DATA that the command does not use. -/
  | unusedField
  /-- ACC_APP or ACC_EXT with NM = 0 or NM > 18. -/
  | groupSize
  /-- ACC_APP with a chunk bit set at position NM or above. -/
  | chunk
  deriving DecidableEq, Repr

/-- Every bit the command does not use is 0: RSV, NM unless the command reads it, and DATA from
position `used` up (30_encoding.md R68). -/
def unusedZero (usesNm : Bool) (used : Nat) (w : Word) : Bool :=
  rsvField w == 0 && (usesNm || nmField w == 0) && dataField w >>> used == 0

/-- A command without an operand: every field but OPC is 0. -/
def decodePlain (i : Instr) (w : Word) : Except IllegalWord Instr :=
  if unusedZero false 0 w then .ok i else .error .unusedField

/-- ACC_APP: N in NM, the chunk in DATA[17:0] (30_encoding.md R64, R66). -/
def decodeAccApp (w : Word) : Except IllegalWord Instr :=
  if unusedZero true 18 w = false then .error .unusedField
  else if ¬ GroupSize.wf (nmField w) then .error .groupSize
  else if 2 ^ (nmField w).toNat ≤ (chunkField w).toNat then .error .chunk
  else .ok (.accApp (nmField w) (chunkField w))

/-- ACC_EXT: M in NM, DATA zero (30_encoding.md R64, R66). -/
def decodeAccExt (w : Word) : Except IllegalWord Instr :=
  if unusedZero true 0 w = false then .error .unusedField
  else if ¬ GroupSize.wf (nmField w) then .error .groupSize
  else .ok (.accExt (nmField w))

/-- ENC_BYTE: the byte in DATA[7:0] (30_encoding.md R64, R66). -/
def decodeEncByte (w : Word) : Except IllegalWord Instr :=
  if unusedZero false 8 w then .ok (.encByte (byteField w)) else .error .unusedField

/-- DEC_SYM: the code point in all of DATA (30_encoding.md R64, R66). -/
def decodeDecSym (w : Word) : Except IllegalWord Instr :=
  if unusedZero false 21 w then .ok (.decSym (dataField w)) else .error .unusedField

/-- The command a word stands for, or the reason it is illegal (30_encoding.md R65, R68, R69). -/
def decode (w : Word) : Except IllegalWord Instr :=
  match (opcField w).toNat with
  | 0x1 => decodePlain .accClr w
  | 0x2 => decodeAccApp w
  | 0x3 => decodeAccExt w
  | 0x4 => decodePlain .encStart w
  | 0x5 => decodeEncByte w
  | 0x6 => decodePlain .encFinish w
  | 0x8 => decodePlain .decStart w
  | 0x9 => decodeDecSym w
  | 0xA => decodePlain .decFinish w
  | _ => .error .opcode

/-! ## The encoder -/

/-- `(OPC << 28) | (NM << 23) | DATA` (30_encoding.md R75). -/
def cmd32 (opc : BitVec 4) (nm : GroupSize) (data : BitVec 21) : Word :=
  (opc.setWidth 32 <<< 28) ||| (nm.setWidth 32 <<< 23) ||| data.setWidth 32

/-- The opcode of a command (30_encoding.md R65). -/
def Instr.opcode : Instr → BitVec 4
  | .accClr => 0x1
  | .accApp _ _ => 0x2
  | .accExt _ => 0x3
  | .encStart => 0x4
  | .encByte _ => 0x5
  | .encFinish => 0x6
  | .decStart => 0x8
  | .decSym _ => 0x9
  | .decFinish => 0xA

/-- The word of a command (30_encoding.md R64, R70). -/
def encode (i : Instr) : Word :=
  match i with
  | .accApp n chunk => cmd32 i.opcode n (chunk.setWidth 21)
  | .accExt m => cmd32 i.opcode m 0
  | .encByte b => cmd32 i.opcode 0 (b.setWidth 21)
  | .decSym cp => cmd32 i.opcode 0 cp
  | .accClr | .encStart | .encFinish | .decStart | .decFinish => cmd32 i.opcode 0 0

/-! ## The table's words -/

/-- The command word whose `nbits` low bits are those of `w` and whose other bits are 0. Every row of
the opcode table has 32 bits, moved as one whole word with no byte order (20_memory.md R54). -/
def tableWord (nbits w : Nat) : Word := BitVec.ofNat 32 (w % 2 ^ nbits)

/-- The command the decoder reads from a table row's word. -/
def decodeTableWord (nbits w : Nat) : Option Instr :=
  match decode (tableWord nbits w) with
  | .ok i => some i
  | .error _ => none

end Sys2Proof
end

