-- ==== Sys2Proof/Config.lean ====
section
/-! DEFINITION. The implementation parameters of 00_scope.md section 4. A built engine has one value of
each (70_reset_and_hazards.md R153); the state carries it, so that every statement about every state
is about every value (notes/assumptions/1.md). -/

namespace Sys2Proof

/-- The parameters a command's effect can depend on. -/
structure Config where
  /-- CP_START, the code point of symbol value 0 (00_scope.md R8). -/
  cpStart : CodePoint
  /-- ACC_CAP, the accumulator's capacity in bits (00_scope.md R9). -/
  accCap : Nat
  /-- OUT_CAP, the number of OUT entries (00_scope.md R10). -/
  outCap : Nat
  deriving DecidableEq, Repr

/-- The constraints of 00_scope.md R8, R9 and R10 on the parameters. -/
abbrev Config.wf (c : Config) : Prop :=
  0xE000 ≤ c.cpStart.toNat ∧ c.cpStart.toNat ≤ 0xD0000 ∧
  25 ≤ c.accCap ∧ c.accCap ≤ 32 ∧
  1 ≤ c.outCap ∧ c.outCap ≤ 2 ^ 32 - 1

/-- The values the spec's own vectors use (95_test_vectors.md, Conventions): the illustrative CP_START
0x20000, the reference ACC_CAP 25, OUT_CAP 16. DESIGN CHOICE (unsafe where a claim rests on them):
the spec leaves CP_START and OUT_CAP open (notes/assumptions/1.md). -/
def Config.reference : Config := { cpStart := 0x20000, accCap := 25, outCap := 16 }

/-- The engine's three ports (20_memory.md R62). -/
inductive HostPort where
  | command
  | registerRead
  | outRead
  deriving DecidableEq, Repr

/-- HOST_MAP, where the platform places a port in the host's address space (00_scope.md R10,
20_memory.md R62). OPEN, so it has no body, and no rule depends on it (notes/assumptions/2.md). -/
opaque Config.hostMap : HostPort → Nat

end Sys2Proof
end

