-- ==== Sys2Proof/Machine/State.lean ====
section
/-! DEFINITION. The state of one engine (10_state.md section 3, 20_memory.md section 1), with what the
host has issued to it, as plain data; and the state after reset (10_state.md R43). -/

namespace Sys2Proof.Machine

/-- MODE, the transaction state (10_state.md R27). The reserved code 6 is never written and has no
constructor (93_implementation_defined.md U10; notes/assumptions/11.md). -/
inductive Mode where
  /-- No transaction since reset. -/
  | idle
  /-- An encode transaction is open. -/
  | enc
  /-- A decode transaction is open and no symbol has been accepted yet. -/
  | decHdr
  /-- A decode transaction is open and its header has been accepted. -/
  | decPay
  /-- The last transaction finished successfully. -/
  | done
  /-- The last decode failed with a result error. -/
  | derr
  /-- A protocol fault stopped the engine. -/
  | fault
  deriving DecidableEq, Repr

/-- The source's two result errors (60_exceptions.md R130). -/
inductive ResultError where
  | invalidSymbol
  | invalidHeader
  deriving DecidableEq, Repr

/-- The five protocol faults (60_exceptions.md R134). -/
inductive ProtocolFault where
  | illegalCommand
  | sequenceFault
  | accOverflow
  | accUnderflow
  | outOverflow
  deriving DecidableEq, Repr

/-- What the host can do to the engine: the three ports of 20_memory.md R62 and the reset input of
70_reset_and_hazards.md R150. -/
inductive HostInput where
  /-- A command word on the command port. -/
  | command (w : Word)
  /-- A read of the register read port at a 3-bit index (10_state.md R39). -/
  | readRegister (idx : BitVec 3)
  /-- A read of the OUT read port at a 32-bit index (20_memory.md R51). -/
  | readOut (index : Word)
  /-- The reset input becomes asserted. -/
  | assertReset
  /-- The reset input is released. -/
  | releaseReset
  deriving DecidableEq, Repr

/-- OUT: the defined entries as (index, entry) pairs, indices strictly rising. An index that is not
listed is ABSENT (20_memory.md R48). -/
abbrev Memory := List (Nat × CodePoint)

structure State where
  /-- The parameters the engine was built with (70_reset_and_hazards.md R153). -/
  config : Config
  /-- MODE (10_state.md R27). -/
  mode : Mode
  /-- ECODE (10_state.md R28); `none` is the spec's code 0, "none". -/
  ecode : Option ResultError
  /-- FCODE (10_state.md R29); `none` is the spec's code 0, "none". -/
  fcode : Option ProtocolFault
  /-- ACC (10_state.md R30), in the 32 bits that every ACC_CAP fits (notes/assumptions/12.md). -/
  acc : BitVec 32
  /-- CNT (10_state.md R31). -/
  cnt : BitVec 6
  /-- PAD (10_state.md R33). -/
  pad : BitVec 5
  /-- NSYM (10_state.md R34). -/
  nsym : BitVec 32
  /-- RES (10_state.md R35). -/
  res : Value
  /-- OUTLEN (10_state.md R36). -/
  outLen : BitVec 32
  /-- OUT (20_memory.md R47). -/
  out : Memory
  /-- The reset input (70_reset_and_hazards.md R150). -/
  resetAsserted : Bool
  /-- MODEL's own: what the host has issued and the engine has not taken, oldest first
  (notes/assumptions/3.md). -/
  inputs : List HostInput
  /-- MODEL's own: the word the host last got from a read port (notes/assumptions/4.md). -/
  hostData : Option Word
  deriving DecidableEq, Repr

/-- Why a run ends as a fault. -/
inductive Fault where
  /-- The run ended in MODE = FAULT with this code. Answered by `State.finish` alone
  (60_exceptions.md R137: a reached FAULT state "is never final"); no step answers it, since the
  engine goes on ignoring commands until reset. Safe (notes/assumptions/7.md). -/
  | protocolFault (code : Option ProtocolFault)
  deriving DecidableEq, Repr

/-- Why the model gives a step no meaning. -/
inductive Refusal where
  /-- An instruction without a meaning yet, raised by `exec`'s arm for it. Safe. No arm is left. -/
  | notModelled (mnemonic : String)
  /-- The host read an OUT entry outside MODE = DONE or at an index not below OUTLEN, raised by
  `acceptReadOut`: "the hardware returns an unspecified value and the model refuses the read"
  (20_memory.md R51). Safe (notes/assumptions/8.md). -/
  | undefinedOutRead (index : Word)
  deriving DecidableEq, Repr

/-- The engine with parameters `c` right after reset (10_state.md R43, R44), the host having issued
nothing. -/
def State.resetWith (c : Config) : State :=
  { config := c, mode := .idle, ecode := none, fcode := none, acc := 0, cnt := 0, pad := 0,
    nsym := 0, res := 0, outLen := 0, out := [], resetAsserted := false, inputs := [],
    hostData := none }

/-- The state after reset of an engine built with the vectors' parameters (notes/assumptions/1.md). -/
def State.reset : State := State.resetWith Config.reference

end Sys2Proof.Machine
end

