-- ==== Sys2Proof/Machine/Operands.lean ====
section
/-! DEFINITION. What a symbol operand stands for: the alphabet mapping, "the single source of truth
used by both encoder and decoder" (40_alphabet.md). The other operands are zero-extended fields, which
Sys2Proof/Decode.lean assembles (30_encoding.md R70). -/

namespace Sys2Proof.Machine

/-- `InRange(cp)` (40_alphabet.md R79). -/
def inRange (c : Config) (cp : CodePoint) : Bool :=
  decide (c.cpStart.toNat ≤ cp.toNat ∧ cp.toNat ≤ c.cpStart.toNat + 262143)

/-- `value_to_symbol(v)`, also `S(v)` (40_alphabet.md R81). -/
def valueToSymbol (c : Config) (v : Value) : CodePoint := c.cpStart + v.setWidth 21

/-- `symbol_to_value(cp)`: the value, or the error the decoder raises (40_alphabet.md R82). -/
def symbolToValue (c : Config) (cp : CodePoint) : Except ResultError Value :=
  if inRange c cp then .ok ((cp - c.cpStart).setWidth 18) else .error .invalidSymbol

end Sys2Proof.Machine
end

