-- ==== Sys2Proof/Machine/Ops.lean ====
section
/-! DEFINITION. The shared operations: OUT's accesses (20_memory.md R49, R50), the accumulator
primitives (41_accumulator.md R89 to R92), the failure primitives (60_exceptions.md R132, R136) and
the checks every command begins with (30_encoding.md R69, 60_exceptions.md R138). -/

namespace Sys2Proof.Machine

/-! ## OUT -/

/-- The canonical form: indices strictly rising. An entry that is listed is defined, so no listed
entry equals what an unlisted index reads as, which is ABSENT. -/
def Memory.wf : Memory → Bool
  | [] => true
  | [_] => true
  | (i, _) :: (j, v) :: rest => decide (i < j) && Memory.wf ((j, v) :: rest)

/-- `MemRead(i, 1)`: the entry, or `none` for ABSENT (00_scope.md R15, 20_memory.md R48). -/
def Memory.read (i : Nat) : Memory → Option CodePoint
  | [] => none
  | (j, v) :: rest => if j = i then some v else Memory.read i rest

/-- `MemWrite(i, 1, v)` (00_scope.md R15). -/
def Memory.write (i : Nat) (v : CodePoint) : Memory → Memory
  | [] => [(i, v)]
  | (j, u) :: rest =>
    if i < j then (i, v) :: (j, u) :: rest
    else if i = j then (i, v) :: rest
    else (j, u) :: Memory.write i v rest

/-- The entries at index `n` and above become ABSENT (20_memory.md R48, R49). -/
def Memory.truncate (n : Nat) : Memory → Memory
  | [] => []
  | (j, v) :: rest => if j < n then (j, v) :: Memory.truncate n rest else Memory.truncate n rest

/-- `MemWrite(i, 1, v)` on the engine's OUT. -/
def State.memWrite (i : Nat) (v : CodePoint) (s : State) : State :=
  { s with out := s.out.write i v }

/-- `Emit(v)`: append one entry to OUT (20_memory.md R50). -/
def State.emit (v : CodePoint) (s : State) : State :=
  { s.memWrite s.outLen.toNat v with outLen := s.outLen + 1 }

/-- OUTLEN <- n, with the entries from `n` up ABSENT (20_memory.md R48, R49). -/
def State.setOutLen (n : Nat) (s : State) : State :=
  { s with outLen := BitVec.ofNat 32 n, out := s.out.truncate n }

/-! ## The accumulator -/

/-- `Append(N, c)` (41_accumulator.md R89). -/
def State.append (n : Nat) (c : Value) (s : State) : State :=
  { s with acc := (s.acc <<< n) ||| c.setWidth 32, cnt := s.cnt + BitVec.ofNat 6 n }

/-- The value `Extract(M)` returns, `ACC >> (CNT - M)` (41_accumulator.md R90). -/
def State.extractValue (m : Nat) (s : State) : Value :=
  (s.acc >>> (s.cnt.toNat - m)).setWidth 18

/-- What `Extract(M)` leaves (41_accumulator.md R90). -/
def State.extractRest (m : Nat) (s : State) : State :=
  { s with acc := s.acc &&& ((1#32 <<< (s.cnt.toNat - m)) - 1), cnt := s.cnt - BitVec.ofNat 6 m }

/-- `Clear()` (41_accumulator.md R92). -/
def State.clear (s : State) : State := { s with acc := 0, cnt := 0 }

/-- The value `Flush(G)` returns, `ACC << (G - CNT)`; what it leaves is `State.clear`
(41_accumulator.md R91). -/
def State.flushValue (g : Nat) (s : State) : Value :=
  (s.acc <<< (g - s.cnt.toNat)).setWidth 18

/-- `while CNT >= G: Emit(entry(Extract(G)))`, the loop of ENC_BYTE (42_encoder.md R107) and DEC_SYM
(43_decoder.md R121). Each round takes G bits, so CNT rounds are always enough. -/
def State.drain (g : Nat) (entry : Value → CodePoint) : Nat → State → State
  | 0, s => s
  | fuel + 1, s =>
    if g ≤ s.cnt.toNat then
      State.drain g entry fuel ((s.extractRest g).emit (entry (s.extractValue g)))
    else s

/-! ## Failures -/

/-- `raise Error(e)`: the current decode fails (60_exceptions.md R132). -/
def State.raiseError (e : ResultError) (s : State) : State :=
  { (s.setOutLen 0).clear with ecode := some e, mode := .derr }

/-- `raise Fault(f)`: the engine stops until reset (60_exceptions.md R136). -/
def State.raiseFault (f : ProtocolFault) (s : State) : State :=
  { s with fcode := some f, mode := .fault }

/-! ## Checks -/

/-- The outcomes of the engine's steps. -/
abbrev StepOutcome := Host.Outcome State Fault Refusal

/-- In MODE = FAULT the engine ignores every command (30_encoding.md R69, 60_exceptions.md R137). -/
def unlessFaulted (s effect : State) : StepOutcome :=
  .next (if s.mode = .fault then s else effect)

/-- One check of 60_exceptions.md R138: if `bad`, the command raises the fault and does nothing else
(R136). -/
def faultIf (bad : Prop) [Decidable bad] (f : ProtocolFault) (s effect : State) : State :=
  if bad then s.raiseFault f else effect

/-- The modes in which the raw accumulator commands run (41_accumulator.md R94). -/
abbrev State.outsideTransaction (s : State) : Prop :=
  s.mode = .idle ∨ s.mode = .done ∨ s.mode = .derr

/-- `k` more entries do not fit in OUT: OUTLEN + k > OUT_CAP (60_exceptions.md R134). -/
abbrev State.outOverflows (k : Nat) (s : State) : Prop := s.config.outCap < s.outLen.toNat + k

end Sys2Proof.Machine
end

