-- ==== Sys2Proof/Machine/Accumulator.lean ====
section
/-! DEFINITION. The raw accumulator commands (41_accumulator.md section 2). -/

namespace Sys2Proof.Machine

/-- ACC_CLR (41_accumulator.md R95). -/
def execAccClr (s : State) : StepOutcome :=
  unlessFaulted s <| faultIf (¬ s.outsideTransaction) .sequenceFault s <| s.clear

/-- ACC_APP N, c (41_accumulator.md R96). -/
def execAccApp (n : GroupSize) (chunk : Value) (s : State) : StepOutcome :=
  unlessFaulted s <| faultIf (¬ s.outsideTransaction) .sequenceFault s <|
    faultIf (s.config.accCap < s.cnt.toNat + n.toNat) .accOverflow s <|
      s.append n.toNat chunk

/-- ACC_EXT M (41_accumulator.md R97). -/
def execAccExt (m : GroupSize) (s : State) : StepOutcome :=
  unlessFaulted s <| faultIf (¬ s.outsideTransaction) .sequenceFault s <|
    faultIf (s.cnt.toNat < m.toNat) .accUnderflow s <|
      { s.extractRest m.toNat with res := s.extractValue m.toNat }

end Sys2Proof.Machine
end

