-- ==== Sys2Proof/Machine/Encoder.lean ====
section
/-! DEFINITION. The encoder commands (42_encoder.md section 2). -/

namespace Sys2Proof.Machine

/-- What ENC_START and DEC_START share: the accumulator, PAD, NSYM and ECODE cleared, every earlier OUT
entry ABSENT (42_encoder.md R106, 43_decoder.md R120). -/
def State.openTransaction (s : State) : State :=
  { (s.setOutLen 0).clear with pad := 0, nsym := 0, ecode := none }

/-- ENC_START: entry 0 is reserved for the header and ABSENT (42_encoder.md R106). -/
def execEncStart (s : State) : StepOutcome :=
  unlessFaulted s { s.openTransaction with outLen := 1, mode := .enc }

/-- The symbols a byte will emit (42_encoder.md R107). -/
def State.encByteEmits (s : State) : Nat := if 18 ≤ s.cnt.toNat + 8 then 1 else 0

/-- Append the byte and emit the full groups (42_encoder.md R107). -/
def State.feedByte (b : Byte) (s : State) : State :=
  (s.append 8 (b.setWidth 18)).drain 18 (valueToSymbol s.config) (s.append 8 (b.setWidth 18)).cnt.toNat

/-- ENC_BYTE b (42_encoder.md R107). -/
def execEncByte (b : Byte) (s : State) : StepOutcome :=
  unlessFaulted s <| faultIf (s.mode ≠ .enc) .sequenceFault s <|
    faultIf (s.outOverflows s.encByteEmits) .outOverflow s <|
      s.feedByte b

/-- `pad <- (18 - CNT) mod 18` (42_encoder.md R108). -/
def State.encPad (s : State) : Nat := (18 - s.cnt.toNat) % 18

/-- PAD and the header in entry 0 (42_encoder.md R108). -/
def State.writeHeader (s : State) : State :=
  { s with pad := BitVec.ofNat 5 s.encPad }.memWrite 0
    (valueToSymbol s.config (BitVec.ofNat 18 s.encPad))

/-- Emit the zero-filled partial group, if there is one (42_encoder.md R104, R108). -/
def State.flushPartial (s : State) : State :=
  if 0 < s.encPad then s.clear.emit (valueToSymbol s.config (s.flushValue 18)) else s

/-- The symbols ENC_FINISH will emit behind the header's entry (42_encoder.md R108). -/
def State.encFinishEmits (s : State) : Nat := if 0 < s.encPad then 1 else 0

/-- The header, the partial group, and the transaction closed (42_encoder.md R108). -/
def State.finishEncode (s : State) : State :=
  { s.writeHeader.flushPartial.clear with mode := .done }

/-- ENC_FINISH (42_encoder.md R108). -/
def execEncFinish (s : State) : StepOutcome :=
  unlessFaulted s <| faultIf (s.mode ≠ .enc) .sequenceFault s <|
    faultIf (s.outOverflows s.encFinishEmits) .outOverflow s <|
      s.finishEncode

end Sys2Proof.Machine
end

