-- ==== Sys2Proof/Machine/Decoder.lean ====
section
/-! DEFINITION. The decoder commands (43_decoder.md section 2). -/

namespace Sys2Proof.Machine

/-- DEC_START (43_decoder.md R120). -/
def execDecStart (s : State) : StepOutcome :=
  unlessFaulted s { s.openTransaction with mode := .decHdr }

/-- DEC_SYM in DEC_HDR: the symbol is the header (43_decoder.md R115, R121). -/
def State.acceptHeader (cp : CodePoint) (s : State) : State :=
  match symbolToValue s.config cp with
  | .error e => s.raiseError e
  | .ok v =>
    if 17 < v.toNat then s.raiseError .invalidHeader
    else { s with pad := v.setWidth 5, nsym := 1, mode := .decPay }

/-- The bytes a payload symbol will emit (43_decoder.md R121). -/
def State.decSymEmits (s : State) : Nat := (s.cnt.toNat + 18) / 8

/-- Append the value, emit the full bytes, count the symbol (43_decoder.md R121). -/
def State.feedValue (v : Value) (s : State) : State :=
  { (s.append 18 v).drain 8 (fun byte => byte.setWidth 21) (s.append 18 v).cnt.toNat with
    nsym := s.nsym + 1 }

/-- DEC_SYM in DEC_PAY: a payload symbol (43_decoder.md R121). -/
def State.acceptPayload (cp : CodePoint) (s : State) : State :=
  match symbolToValue s.config cp with
  | .error e => s.raiseError e
  | .ok v => faultIf (s.outOverflows s.decSymEmits) .outOverflow s (s.feedValue v)

/-- DEC_SYM cp (43_decoder.md R121). In DERR "the call has already failed" and the symbol is ignored. -/
def execDecSym (cp : CodePoint) (s : State) : StepOutcome :=
  unlessFaulted s <|
    match s.mode with
    | .derr => s
    | .decHdr => s.acceptHeader cp
    | .decPay => s.acceptPayload cp
    | .idle | .enc | .done | .fault => s.raiseFault .sequenceFault

/-- `useful_bits`, an integer that may be negative (43_decoder.md R125, 00_scope.md R13). -/
def State.usefulBits (s : State) : Int := ((s.nsym.toNat : Int) - 1) * 18 - (s.pad.toNat : Int)

/-- `useful_bytes` (43_decoder.md R125). -/
def State.usefulBytes (s : State) : Nat := if s.usefulBits < 0 then 0 else (s.usefulBits / 8).toNat

/-- Strip the bytes the padding gave, if PAD > 0 (43_decoder.md R117, R118, R125). -/
def State.stripPadding (s : State) : State :=
  if 0 < s.pad.toNat then s.setOutLen (min s.outLen.toNat s.usefulBytes) else s

/-- The padding stripped, the leftover bits dropped, and the transaction closed (43_decoder.md R125). -/
def State.finishDecode (s : State) : State := { s.stripPadding.clear with mode := .done }

/-- DEC_FINISH (43_decoder.md R125). In DERR there is nothing to finish and it is ignored. -/
def execDecFinish (s : State) : StepOutcome :=
  unlessFaulted s <|
    match s.mode with
    | .derr => s
    | .decHdr => { s with mode := .done }
    | .decPay => s.finishDecode
    | .idle | .enc | .done | .fault => s.raiseFault .sequenceFault

end Sys2Proof.Machine
end

