-- ==== Sys2Proof/Machine/Flags.lean ====
section
/-! DEFINITION. The status codes and the STATUS word, the engine's only flags (10_state.md R27 to R29,
R38). No command computes a condition code. -/

namespace Sys2Proof.Machine

/-- MODE's code (10_state.md R27). -/
def Mode.code : Mode → BitVec 3
  | .idle => 0
  | .enc => 1
  | .decHdr => 2
  | .decPay => 3
  | .done => 4
  | .derr => 5
  | .fault => 7

/-- ECODE's code (60_exceptions.md R130). -/
def ecodeCode : Option ResultError → BitVec 4
  | none => 0
  | some .invalidSymbol => 1
  | some .invalidHeader => 2

/-- FCODE's code (60_exceptions.md R134). -/
def fcodeCode : Option ProtocolFault → BitVec 4
  | none => 0
  | some .illegalCommand => 1
  | some .sequenceFault => 2
  | some .accOverflow => 3
  | some .accUnderflow => 4
  | some .outOverflow => 5

/-- STATUS = MODE | (ECODE << 4) | (FCODE << 8) (10_state.md R38). -/
def State.statusWord (s : State) : Word :=
  s.mode.code.setWidth 32 ||| ((ecodeCode s.ecode).setWidth 32 <<< 4) |||
    ((fcodeCode s.fcode).setWidth 32 <<< 8)

end Sys2Proof.Machine
end

