-- ==== Sys2Proof/Machine/Ports.lean ====
section
/-! DEFINITION. The host's side: the register read port (10_state.md R39), the OUT read port
(20_memory.md R51) and the reset input (70_reset_and_hazards.md R150). -/

namespace Sys2Proof.Machine

/-- The register read port (10_state.md R39). -/
def State.readRegister (s : State) (idx : BitVec 3) : Word :=
  match idx.toNat with
  | 0 => s.statusWord
  | 1 => s.acc
  | 2 => s.cnt.setWidth 32
  | 3 => s.pad.setWidth 32
  | 4 => s.nsym
  | 5 => s.res.setWidth 32
  | 6 => s.outLen
  | _ => s.config.cpStart.setWidth 32

/-- The OUT read port: defined only when MODE = DONE and the index is below OUTLEN
(20_memory.md R51). -/
def State.readOutPort (s : State) (index : Word) : Option Word :=
  if s.mode = .done ∧ index.toNat < s.outLen.toNat then
    (s.out.read index.toNat).map (fun v => v.setWidth 32)
  else none

/-- A register read: no engine state changes (10_state.md R39). -/
def acceptReadRegister (idx : BitVec 3) (s : State) : StepOutcome :=
  .next { s with hostData := some (s.readRegister idx) }

/-- An OUT read: no engine state changes, and an undefined one is refused (20_memory.md R51). -/
def acceptReadOut (index : Word) (s : State) : StepOutcome :=
  match s.readOutPort index with
  | some v => .next { s with hostData := some v }
  | none => .refused (.undefinedOutRead index)

/-- The engine's registers and OUT in the reset state, its parameters and the host's own data kept
(10_state.md R43, 70_reset_and_hazards.md R150). -/
def State.resetEngine (s : State) : State :=
  { State.resetWith s.config with
    resetAsserted := s.resetAsserted, inputs := s.inputs, hostData := s.hostData }

/-- The reset input becomes asserted. DESIGN CHOICE: the engine is in the reset state from here on,
not only at the release (notes/assumptions/5.md). -/
def acceptAssertReset (s : State) : StepOutcome :=
  .next { s.resetEngine with resetAsserted := true }

/-- The reset input is released: "the engine is in the reset state" (70_reset_and_hazards.md R150).
DEDUCED: releasing an input that is not asserted does nothing (notes/assumptions/5.md). -/
def acceptReleaseReset (s : State) : StepOutcome :=
  .next (if s.resetAsserted then { s.resetEngine with resetAsserted := false } else s)

/-- The host issues one more input. -/
def State.issue (x : HostInput) (s : State) : State := { s with inputs := s.inputs ++ [x] }

end Sys2Proof.Machine
end

