-- ==== Sys2Proof/Machine/Execute.lean ====
section
/-! DEFINITION. Execution of a command word (30_encoding.md R69) and what the engine does with each
input of the host. -/

namespace Sys2Proof.Machine

/-- `Execute(w)` (30_encoding.md R69). Each meaning itself ignores its command in MODE = FAULT. -/
def executeWord (w : Word) (s : State) : StepOutcome :=
  match decode w with
  | .error _ => unlessFaulted s (s.raiseFault .illegalCommand)
  | .ok i => exec i s

/-- A word on the command port. "While it is asserted, the engine accepts no command"
(70_reset_and_hazards.md R150); DESIGN CHOICE: a word offered then is lost, since no command can wait
(R162; notes/assumptions/6.md). -/
def acceptCommand (w : Word) (s : State) : StepOutcome :=
  if s.resetAsserted then .next s else executeWord w s

/-- What the engine does with one input of the host. -/
def acceptInput (x : HostInput) (s : State) : StepOutcome :=
  match x with
  | .command w => acceptCommand w s
  | .readRegister idx => acceptReadRegister idx s
  | .readOut index => acceptReadOut index s
  | .assertReset => acceptAssertReset s
  | .releaseReset => acceptReleaseReset s

/-- The commands of a list in issue order, up to the first that does not answer a next state
(20_memory.md R57, 10_state.md R25). -/
def execAll : List Instr → State → StepOutcome
  | [], s => .next s
  | i :: rest, s =>
    match exec i s with
    | .next s' => execAll rest s'
    | .fault r => .fault r
    | .refused r => .refused r

end Sys2Proof.Machine
end

