-- ==== Sys2Proof/Machine/Step.lean ====
section
/-! DEFINITION. One step: the engine takes the oldest input the host has issued. The engine has no
program counter and fetches nothing (10_state.md R25). -/

namespace Sys2Proof.Machine

/-- One step. With nothing issued, the engine "holds its state unchanged" (60_exceptions.md R148). -/
def step (s : State) : Host.Outcome State Fault Refusal :=
  match s.inputs with
  | [] => .next s
  | x :: rest => acceptInput x { s with inputs := rest }

/-- `s` with the word as the next input the engine takes, and the reset input released so that it
takes it (notes/assumptions/3.md). -/
def State.withFetchWord (s : State) (nbits w : Nat) : State :=
  { s with inputs := .command (tableWord nbits w) :: s.inputs, resetAsserted := false }

end Sys2Proof.Machine
end

