-- ==== Sys2Proof/Machine/Assembler.lean ====
section
/-! DEFINITION. Assembler lines and the two macros (30_encoding.md R75, R76), as abstract syntax: the
spelling of numbers and comments is text and "not part of the machine" (92_eei_decisions.md D23;
notes/assumptions/14.md). -/

namespace Sys2Proof.Machine

/-- One line of assembly, its operands as the numbers the programmer wrote (30_encoding.md R75). -/
inductive AsmLine where
  | accClr
  | accApp (n chunk : Nat)
  | accExt (m : Nat)
  | encStart
  | encByte (byte : Nat)
  | encFinish
  | decStart
  | decSym (cp : Nat)
  /-- `DEC_SYM S(v)`, the shorthand for cp = CP_START + v. -/
  | decSymOf (v : Nat)
  | decFinish
  deriving DecidableEq, Repr

/-- The command a line names, or `none`: the assembler "refuses any line whose operands break rule
R66" (30_encoding.md R75). -/
def AsmLine.command (c : Config) : AsmLine → Option Instr
  | .accClr => some .accClr
  | .accApp n chunk =>
    if 1 ≤ n ∧ n ≤ 18 ∧ chunk < 2 ^ n then some (.accApp (BitVec.ofNat 5 n) (BitVec.ofNat 18 chunk))
    else none
  | .accExt m => if 1 ≤ m ∧ m ≤ 18 then some (.accExt (BitVec.ofNat 5 m)) else none
  | .encStart => some .encStart
  | .encByte byte => if byte < 2 ^ 8 then some (.encByte (BitVec.ofNat 8 byte)) else none
  | .encFinish => some .encFinish
  | .decStart => some .decStart
  | .decSym cp => if cp < 2 ^ 21 then some (.decSym (BitVec.ofNat 21 cp)) else none
  | .decSymOf v =>
    if v ≤ 262143 then some (.decSym (valueToSymbol c (BitVec.ofNat 18 v))) else none
  | .decFinish => some .decFinish

/-- The word a line assembles to (30_encoding.md R75). -/
def AsmLine.assemble (c : Config) (l : AsmLine) : Option Word := (l.command c).map encode

/-- `ENCODE b0, ..., b(L-1)` (30_encoding.md R76). -/
def encodeTransaction (bytes : List Byte) : List Instr :=
  [.encStart] ++ bytes.map .encByte ++ [.encFinish]

/-- `DECODE s0, ..., s(K-1)` (30_encoding.md R76). -/
def decodeTransaction (symbols : List CodePoint) : List Instr :=
  [.decStart] ++ symbols.map .decSym ++ [.decFinish]

end Sys2Proof.Machine
end

