-- ==== Sys2Proof/Machine/Codec.lean ====
section
/-! DEFINITION. The source's two pure functions, the normative meaning of a transaction
(42_encoder.md R100, 43_decoder.md R114). They use an unbounded call-local accumulator (a, n) of
naturals and know nothing of the engine's state. -/

namespace Sys2Proof.Machine

/-- `while n >= G`: the full groups of (a, n), oldest first, and what is left. Each round takes G bits,
so n rounds are always enough. -/
def Codec.drain (g : Nat) : Nat → Nat → Nat → List Nat × Nat × Nat
  | 0, a, n => ([], a, n)
  | fuel + 1, a, n =>
    if g ≤ n then
      let r := Codec.drain g fuel (a &&& ((1 <<< (n - g)) - 1)) (n - g)
      ((a >>> (n - g)) :: r.1, r.2)
    else ([], a, n)

/-- Step 4 of encode: the payload groups of the bytes and the bits left over (42_encoder.md R100,
R103). -/
def Codec.packBytes : List Byte → Nat → Nat → List Nat × Nat × Nat
  | [], a, n => ([], a, n)
  | b :: rest, a, n =>
    let r := Codec.drain 18 (n + 8) ((a <<< 8) ||| b.toNat) (n + 8)
    let t := Codec.packBytes rest r.2.1 r.2.2
    (r.1 ++ t.1, t.2)

/-- The pad count of `len` bytes (42_encoder.md R101). -/
def Codec.pad (len : Nat) : Nat := (18 - (8 * len) % 18) % 18

/-- `S(v)` of a natural below 2^18. -/
def Codec.symbol (c : Config) (v : Nat) : CodePoint := valueToSymbol c (BitVec.ofNat 18 v)

/-- `encode(B)` (42_encoder.md R100). -/
def Codec.encode (c : Config) (bytes : List Byte) : List CodePoint :=
  if bytes = [] then [Codec.symbol c 0]
  else
    let pad := Codec.pad bytes.length
    let r := Codec.packBytes bytes 0 0
    [Codec.symbol c pad] ++ r.1.map (Codec.symbol c) ++
      (if 0 < pad then [Codec.symbol c (r.2.1 <<< pad)] else [])

/-- Step 3 of decode: the bytes of the payload symbols, or the first failure (43_decoder.md R114,
R116). -/
def Codec.unpackSymbols (c : Config) : List CodePoint → Nat → Nat → Except ResultError (List Byte)
  | [], _, _ => .ok []
  | cp :: rest, a, n =>
    match symbolToValue c cp with
    | .error e => .error e
    | .ok v =>
      let r := Codec.drain 8 (n + 18) ((a <<< 18) ||| v.toNat) (n + 18)
      match Codec.unpackSymbols c rest r.2.1 r.2.2 with
      | .error e => .error e
      | .ok bytes => .ok (r.1.map (BitVec.ofNat 8) ++ bytes)

/-- Step 2 of decode: the pad count a header carries (43_decoder.md R115). -/
def Codec.header (c : Config) (cp : CodePoint) : Except ResultError Nat :=
  match symbolToValue c cp with
  | .error e => .error e
  | .ok v => if 17 < v.toNat then .error .invalidHeader else .ok v.toNat

/-- `useful_bytes` of a sequence of `k` symbols with pad count `pad` (43_decoder.md R114, R117). -/
def Codec.usefulBytes (k pad : Nat) : Nat :=
  let usefulBits : Int := ((k : Int) - 1) * 18 - (pad : Int)
  if usefulBits < 0 then 0 else (usefulBits / 8).toNat

/-- `decode(T)` (43_decoder.md R114). -/
def Codec.decode (c : Config) : List CodePoint → Except ResultError (List Byte)
  | [] => .ok []
  | h :: rest =>
    match Codec.header c h with
    | .error e => .error e
    | .ok pad =>
      match Codec.unpackSymbols c rest 0 0 with
      | .error e => .error e
      | .ok bytes =>
        .ok (if 0 < pad then bytes.take (Codec.usefulBytes (rest.length + 1) pad) else bytes)

/-- The symbols of T that a decode accepts: the header if it is one, then the payload symbols before
the first outside the alphabet (60_exceptions.md R131). -/
def Codec.accepted (c : Config) : List CodePoint → Nat
  | [] => 0
  | h :: rest =>
    match Codec.header c h with
    | .error _ => 0
    | .ok _ => 1 + (rest.takeWhile (fun cp => inRange c cp)).length

end Sys2Proof.Machine
end

