-- ==== Sys2Proof/Safety.lean ====
section
/-! DEFINITION. The terms the claims use: the invariant of every state an engine reaches, the bit
sequence an accumulator holds, how a run ends. -/

namespace Sys2Proof.Machine

/-! ## The invariant -/

/-- The defined indices of OUT are `first` to OUTLEN - 1. -/
abbrev State.definedFrom (s : State) (first : Nat) : Prop :=
  s.out.map Prod.fst = List.range' first (s.outLen.toNat - first)

/-- Every defined entry is a code point of the alphabet (20_memory.md R52). -/
abbrev State.entriesAreSymbols (s : State) : Prop := s.out.all (fun e => inRange s.config e.2) = true

/-- Every defined entry is a zero-extended byte (20_memory.md R52). -/
abbrev State.entriesAreBytes (s : State) : Prop := s.out.all (fun e => e.2.toNat < 256) = true

/-- What holds of every state an engine reaches from reset. -/
structure State.Inv (s : State) : Prop where
  /-- 00_scope.md R8, R9, R10. -/
  config : s.config.wf
  /-- Every bit of ACC at position CNT or above is 0 (10_state.md R32). -/
  acc : s.acc.toNat < 2 ^ s.cnt.toNat
  /-- CNT ≤ ACC_CAP (10_state.md R31). -/
  cnt : s.cnt.toNat ≤ s.config.accCap
  /-- PAD in [0, 17] (10_state.md R33). -/
  pad : s.pad.toNat ≤ 17
  /-- OUTLEN ≤ OUT_CAP (10_state.md R36). -/
  outLen : s.outLen.toNat ≤ s.config.outCap
  /-- Outside ENC and FAULT, exactly the entries below OUTLEN are defined (20_memory.md R48). -/
  defined : s.mode ≠ .enc → s.mode ≠ .fault → s.definedFrom 0
  /-- In ENC, entry 0 is ABSENT too (20_memory.md R48). -/
  definedEnc : s.mode = .enc → s.definedFrom 1
  /-- In FAULT, OUT is as the fault found it (60_exceptions.md R136; notes/assumptions/9.md). -/
  definedFault : s.mode = .fault → s.definedFrom 0 ∨ s.definedFrom 1
  /-- ECODE holds an error exactly in DERR, FAULT aside (10_state.md R27, R28). -/
  ecode : s.mode ≠ .fault → (s.ecode = none ↔ s.mode ≠ .derr)
  /-- FCODE holds a fault exactly in FAULT (10_state.md R27, R29). -/
  fcode : s.fcode = none ↔ s.mode ≠ .fault
  /-- "No transaction since reset" (10_state.md R27). -/
  idle : s.mode = .idle → s.outLen = 0 ∧ s.nsym = 0 ∧ s.pad = 0
  /-- In ENC the bits of OUT[1:] and of the accumulator are those of whole bytes (10_state.md R41). -/
  enc : s.mode = .enc → 1 ≤ s.outLen.toNat ∧ s.cnt.toNat ≤ 17 ∧
    (18 * (s.outLen.toNat - 1) + s.cnt.toNat) % 8 = 0 ∧ s.nsym = 0 ∧ s.pad = 0
  /-- 10_state.md R41. -/
  decHdr : s.mode = .decHdr → s.cnt = 0 ∧ s.outLen = 0 ∧ s.nsym = 0 ∧ s.pad = 0
  /-- The bits of OUT and of the accumulator are those of the payload symbols (43_decoder.md R123). -/
  decPay : s.mode = .decPay → 1 ≤ s.nsym.toNat ∧ s.cnt.toNat ≤ 7 ∧
    8 * s.outLen.toNat + s.cnt.toNat = 18 * (s.nsym.toNat - 1)
  /-- "No partial result" (60_exceptions.md R132). -/
  derr : s.mode = .derr → s.outLen = 0
  /-- 20_memory.md R52. -/
  symbols : s.mode = .enc → s.entriesAreSymbols
  /-- 20_memory.md R52. -/
  bytes : s.mode = .decPay → s.entriesAreBytes
  /-- 20_memory.md R52: MODE does not record which kind of transaction ran last. -/
  entries : s.entriesAreSymbols ∨ s.entriesAreBytes
  /-- While reset is asserted the engine is in the reset state (notes/assumptions/5.md). -/
  reset : s.resetAsserted = true → s = s.resetEngine

/-! ## Bit sequences -/

/-- The `n`-bit binary expansion of `v`, most significant bit first (20_memory.md R53). -/
def bitsOf (v : Nat) : Nat → List Bool
  | 0 => []
  | n + 1 => v.testBit n :: bitsOf v n

/-- `bits(ACC, CNT)`, oldest bit first (41_accumulator.md R84). -/
def State.bits (s : State) : List Bool := bitsOf s.acc.toNat s.cnt.toNat

/-- One call of an accumulator primitive (41_accumulator.md R93). -/
inductive AccCall where
  | append (n : Nat) (chunk : Value)
  | extract (m : Nat)
  deriving DecidableEq, Repr

/-- The call's precondition (41_accumulator.md R89, R90). -/
abbrev AccCall.pre (s : State) : AccCall → Prop
  | .append n chunk =>
    1 ≤ n ∧ n ≤ 18 ∧ chunk.toNat < 2 ^ n ∧ s.cnt.toNat + n ≤ s.config.accCap
  | .extract m => 1 ≤ m ∧ m ≤ 18 ∧ m ≤ s.cnt.toNat

/-- The engine after the call. -/
def AccCall.next (s : State) : AccCall → State
  | .append n chunk => s.append n chunk
  | .extract m => s.extractRest m

/-- The bits the call puts in. -/
def AccCall.bitsIn : AccCall → List Bool
  | .append n chunk => bitsOf chunk.toNat n
  | .extract _ => []

/-- The bits the call takes out. -/
def AccCall.bitsOut (s : State) : AccCall → List Bool
  | .append _ _ => []
  | .extract m => bitsOf (s.extractValue m).toNat m

/-- Every call of the list meets its precondition when its turn comes. -/
def AccCall.allPre : State → List AccCall → Prop
  | _, [] => True
  | s, x :: rest => x.pre s ∧ AccCall.allPre (x.next s) rest

/-- The engine after the calls. -/
def AccCall.nextAll : State → List AccCall → State
  | s, [] => s
  | s, x :: rest => AccCall.nextAll (x.next s) rest

/-- The bits the calls take out, in order. -/
def AccCall.bitsOutAll : State → List AccCall → List Bool
  | _, [] => []
  | s, x :: rest => x.bitsOut s ++ AccCall.bitsOutAll (x.next s) rest

/-! ## How a run ends -/

/-- A reached FAULT state is a fault of the run, "never a final result" (60_exceptions.md R137,
93_implementation_defined.md U9). -/
def State.finish (s : State) : StepOutcome :=
  if s.mode = .fault then .fault (.protocolFault s.fcode) else .next s

/-- The successful end of a transaction (70_reset_and_hazards.md R163). -/
abbrev State.transactionDone (s : State) : Prop := s.mode = .done

/-- The end of a decode with a failure result (70_reset_and_hazards.md R163). -/
abbrev State.decodeFailed (s : State) : Prop := s.mode = .derr

/-- The states an engine with parameters `c` can reach from reset, whatever the host issues
(70_reset_and_hazards.md R151). -/
inductive Reachable (c : Config) : State → Prop where
  /-- After reset. -/
  | reset : Reachable c (State.resetWith c)
  /-- The host issues an input. -/
  | issue (s : State) (x : HostInput) : Reachable c s → Reachable c (s.issue x)
  /-- The engine takes a step. -/
  | step (s t : State) : Reachable c s → Machine.step s = .next t → Reachable c t

end Sys2Proof.Machine
end

