-- ==== Sys2Proof/Certificates/Slice0/Obligations.lean ====
section
/-! DEFINITION. The statements about the model. Each docstring names the rule of spec/ it formalises; a
rule the spec marks "[derived: ...]" is the spec's own inference, and the statement says so. -/

open Sys2Proof Sys2Proof.Machine

/-! ## Encoding -/

/-- 30_encoding.md R77, the spec's inference from R64 to R66 and R70: the fifteen example words. -/
def Obligations.SpecExampleWordsDecode : Prop :=
  decode 0x10000000 = .ok .accClr ∧
  decode 0x240000FF = .ok (.accApp 8 0xFF) ∧
  decode 0x2903FFFF = .ok (.accApp 18 0x3FFFF) ∧
  decode 0x21000000 = .ok (.accApp 2 0) ∧
  decode 0x34000000 = .ok (.accExt 8) ∧
  decode 0x39000000 = .ok (.accExt 18) ∧
  decode 0x40000000 = .ok .encStart ∧
  decode 0x500000FF = .ok (.encByte 0xFF) ∧
  decode 0x60000000 = .ok .encFinish ∧
  decode 0x80000000 = .ok .decStart ∧
  decode 0x9002000A = .ok (.decSym 0x2000A) ∧
  decode 0xA0000000 = .ok .decFinish ∧
  (∀ i, decode 0x24000100 ≠ .ok i) ∧
  (∀ i, decode 0x30000000 ≠ .ok i) ∧
  (∀ i, decode 0x50000100 ≠ .ok i)

/-- Decoding the word of a well-formed command gives the command back, for every operand
(30_encoding.md R64, R70). -/
def Obligations.DecodeOfEncodeIsIdentity : Prop :=
  ∀ i : Instr, i.WellFormed → decode (encode i) = .ok i

/-- A word has one meaning: what it decodes to is well formed and encodes to that word. -/
def Obligations.EncodeOfDecodeIsIdentity : Prop :=
  ∀ (w : Word) (i : Instr), decode w = .ok i → i.WellFormed ∧ encode i = w

/-- 30_encoding.md R67: at most one row of R66 matches a word, every mask covers OPC, `Legal(w)` is the
value constraint of the matching row and false where no row matches; and the decoder accepts exactly
the legal words. -/
def Obligations.DecodeAcceptsExactlyLegalWords : Prop :=
  (∀ (w : Word) (r q : OpcodeRow), r ∈ opcodeRows → q ∈ opcodeRows →
    w &&& r.mask = r.matchBits → w &&& q.mask = q.matchBits → r = q) ∧
  (∀ r ∈ opcodeRows, r.mask.extractLsb' 28 4 = 0xF) ∧
  (∀ w : Word, w &&& 0xF07C0000 = 0x20000000 →
    (legal w = true ↔ 1 ≤ (w.extractLsb' 23 5).toNat ∧ (w.extractLsb' 23 5).toNat ≤ 18 ∧
      (w.extractLsb' 0 18).toNat < 2 ^ (w.extractLsb' 23 5).toNat)) ∧
  (∀ w : Word, w &&& 0xF07FFFFF = 0x30000000 →
    (legal w = true ↔ 1 ≤ (w.extractLsb' 23 5).toNat ∧ (w.extractLsb' 23 5).toNat ≤ 18)) ∧
  (∀ w : Word, w ∈ [0x10000000, 0x40000000, 0x60000000, 0x80000000, 0xA0000000] ∨
    w &&& 0xFFFFFF00 = 0x50000000 ∨ w &&& 0xFFE00000 = 0x90000000 → legal w = true) ∧
  (∀ w : Word, (∀ r ∈ opcodeRows, w &&& r.mask ≠ r.matchBits) → legal w = false) ∧
  (∀ w : Word, legal w = true ↔ ∃ i, decode w = .ok i)

/-- 30_encoding.md R68: the four cases that make a word illegal, and what every illegal word does. -/
def Obligations.IllegalWordsRaiseIllegalCommand : Prop :=
  (∀ w : Word, legal w = false ↔
    opcField w ∈ [0x0, 0x7, 0xB, 0xC, 0xD, 0xE, 0xF] ∨
    (rsvField w ≠ 0 ∨
      (opcField w ∉ [0x2, 0x3] ∧ nmField w ≠ 0) ∨
      (opcField w = 0x2 ∧ 2 ^ 18 ≤ (dataField w).toNat) ∨
      (opcField w = 0x5 ∧ 2 ^ 8 ≤ (dataField w).toNat) ∨
      (opcField w ∉ [0x2, 0x5, 0x9] ∧ dataField w ≠ 0)) ∨
    (opcField w ∈ [0x2, 0x3] ∧ ((nmField w).toNat = 0 ∨ 18 < (nmField w).toNat)) ∨
    (opcField w = 0x2 ∧
      ∃ k, (nmField w).toNat ≤ k ∧ k < 18 ∧ (chunkField w).getLsbD k = true)) ∧
  (∀ (w : Word) (s : State), legal w = false → s.mode ≠ .fault →
    executeWord w s = .next { s with fcode := some .illegalCommand, mode := .fault })

/-- 30_encoding.md R69: command dispatch, with each command's operand fields. -/
def Obligations.ExecuteDispatchesByOpcode : Prop :=
  ∀ (w : Word) (s : State),
    (s.mode = .fault → executeWord w s = .next s) ∧
    (s.mode ≠ .fault → legal w = false → executeWord w s = .next (s.raiseFault .illegalCommand)) ∧
    (legal w = true →
      (opcField w = 0x1 → executeWord w s = exec .accClr s) ∧
      (opcField w = 0x2 →
        executeWord w s = exec (.accApp (w.extractLsb' 23 5) (w.extractLsb' 0 18)) s) ∧
      (opcField w = 0x3 → executeWord w s = exec (.accExt (w.extractLsb' 23 5)) s) ∧
      (opcField w = 0x4 → executeWord w s = exec .encStart s) ∧
      (opcField w = 0x5 → executeWord w s = exec (.encByte (w.extractLsb' 0 8)) s) ∧
      (opcField w = 0x6 → executeWord w s = exec .encFinish s) ∧
      (opcField w = 0x8 → executeWord w s = exec .decStart s) ∧
      (opcField w = 0x9 → executeWord w s = exec (.decSym (w.extractLsb' 0 21)) s) ∧
      (opcField w = 0xA → executeWord w s = exec .decFinish s))

/-- A step that takes a command word runs the command it decodes to, on the state without that input;
a step that takes any other input answers what the engine does with that input. That a step takes the
oldest issued input is the model's form of the host's issue order (20_memory.md R57;
notes/assumptions/3.md). -/
def Obligations.StepRunsTheDecodedCommand : Prop :=
  (∀ (s : State) (w : Word) (rest : List HostInput) (i : Instr),
    s.inputs = .command w :: rest → s.resetAsserted = false → decode w = .ok i →
    step s = exec i { s with inputs := rest }) ∧
  (∀ (s : State) (x : HostInput) (rest : List HostInput), s.inputs = x :: rest →
    step s = acceptInput x { s with inputs := rest })

/-- 30_encoding.md R75, in the model's abstract syntax (notes/assumptions/14.md): the word of every
accepted line is `(OPC << 28) | (NM << 23) | DATA` of the line's own operands; it decodes to the
well-formed command of that mnemonic with those operands; the assembler refuses exactly the lines whose
operands break R66; and `DEC_SYM S(v)` is `DEC_SYM` of CP_START + v. -/
def Obligations.AssembledLinesDecode : Prop :=
  (∀ (c : Config) (l : AsmLine) (w : Word), c.wf → l.assemble c = some w →
    w.toNat =
      match l with
      | .accClr => 0x1 <<< 28
      | .accApp n chunk => (0x2 <<< 28 ||| n <<< 23) ||| chunk
      | .accExt m => 0x3 <<< 28 ||| m <<< 23
      | .encStart => 0x4 <<< 28
      | .encByte b => 0x5 <<< 28 ||| b
      | .encFinish => 0x6 <<< 28
      | .decStart => 0x8 <<< 28
      | .decSym cp => 0x9 <<< 28 ||| cp
      | .decSymOf v => 0x9 <<< 28 ||| (c.cpStart.toNat + v)
      | .decFinish => 0xA <<< 28) ∧
  (∀ (c : Config) (l : AsmLine) (w : Word), l.assemble c = some w →
    ∃ i, l.command c = some i ∧ i.WellFormed ∧ decode w = .ok i ∧
      match l with
      | .accClr => i = .accClr
      | .accApp n chunk => ∃ (n' : GroupSize) (chunk' : Value),
          i = .accApp n' chunk' ∧ n'.toNat = n ∧ chunk'.toNat = chunk
      | .accExt m => ∃ m' : GroupSize, i = .accExt m' ∧ m'.toNat = m
      | .encStart => i = .encStart
      | .encByte b => ∃ b' : Byte, i = .encByte b' ∧ b'.toNat = b
      | .encFinish => i = .encFinish
      | .decStart => i = .decStart
      | .decSym cp => ∃ cp' : CodePoint, i = .decSym cp' ∧ cp'.toNat = cp
      | .decSymOf v => ∃ v' : Value, i = .decSym (valueToSymbol c v') ∧ v'.toNat = v
      | .decFinish => i = .decFinish) ∧
  (∀ (c : Config) (l : AsmLine), l.assemble c = none ↔
    match l with
    | .accApp n chunk => ¬ (1 ≤ n ∧ n ≤ 18 ∧ chunk < 2 ^ n)
    | .accExt m => ¬ (1 ≤ m ∧ m ≤ 18)
    | .encByte b => 255 < b
    | .decSym cp => 2 ^ 21 ≤ cp
    | .decSymOf v => 262143 < v
    | .accClr | .encStart | .encFinish | .decStart | .decFinish => False) ∧
  (∀ (c : Config) (v : Nat), c.wf → v ≤ 262143 →
    (AsmLine.decSymOf v).assemble c = (AsmLine.decSym (c.cpStart.toNat + v)).assemble c)

/-! ## Alphabet -/

/-- 40_alphabet.md R78 and R79: the mapping is a bijection between the values and the code points of
[CP_START, CP_START + 262143], and every code point outside is rejected. -/
def Obligations.AlphabetMappingIsBijection : Prop :=
  ∀ c : Config, c.wf →
    valueToSymbol c 0 = c.cpStart ∧
    (valueToSymbol c 262143).toNat = c.cpStart.toNat + 262143 ∧
    (∀ cp, inRange c cp = true ↔
      c.cpStart.toNat ≤ cp.toNat ∧ cp.toNat ≤ c.cpStart.toNat + 262143) ∧
    (∀ v, inRange c (valueToSymbol c v) = true ∧
      (valueToSymbol c v).toNat = c.cpStart.toNat + v.toNat) ∧
    (∀ v, symbolToValue c (valueToSymbol c v) = .ok v) ∧
    (∀ cp, inRange c cp = true → ∃ v, symbolToValue c cp = .ok v ∧ valueToSymbol c v = cp) ∧
    (∀ cp, inRange c cp = false → symbolToValue c cp = .error .invalidSymbol)

/-! ## Reset and the host -/

/-- 10_state.md R43: every register and every OUT entry after reset, for every parameter value. -/
def Obligations.ResetLeavesEveryRegisterZero : Prop :=
  ∀ c : Config,
    (State.resetWith c).mode = .idle ∧ (Mode.idle).code = 0 ∧
    ecodeCode (State.resetWith c).ecode = 0 ∧ fcodeCode (State.resetWith c).fcode = 0 ∧
    (State.resetWith c).acc = 0 ∧ (State.resetWith c).cnt = 0 ∧ (State.resetWith c).pad = 0 ∧
    (State.resetWith c).nsym = 0 ∧ (State.resetWith c).res = 0 ∧ (State.resetWith c).outLen = 0 ∧
    (∀ i, (State.resetWith c).out.read i = none) ∧
    (State.resetWith c).readRegister 7 = c.cpStart.setWidth 32

/-- 70_reset_and_hazards.md R150, in the model's form: reset may be asserted at any time in any MODE; when
it is released the engine is in the reset state with its parameters unchanged, whatever was open; and
only reset leaves FAULT. The model's choices: a command word offered while reset is asserted changes
nothing, so it is lost (notes/assumptions/6.md), and a reset keeps what the host has issued and last read
(notes/assumptions/3.md and 4.md). -/
def Obligations.ResetInputLeadsToResetState : Prop :=
  (∀ s : State, ∃ t, acceptInput .assertReset s = .next t ∧ t.resetAsserted = true ∧
    acceptInput .releaseReset t = .next { State.resetWith s.config with
      inputs := s.inputs, hostData := s.hostData }) ∧
  (∀ s : State, s.resetAsserted = true →
    acceptInput .releaseReset s = .next { State.resetWith s.config with
      inputs := s.inputs, hostData := s.hostData }) ∧
  (∀ (w : Word) (s : State), s.resetAsserted = true → acceptInput (.command w) s = .next s) ∧
  (∀ (x : HostInput) (s t : State), acceptInput x s = .next t → s.mode = .fault →
    t.mode ≠ .fault → x = .assertReset ∨ x = .releaseReset)

/-- The invariant holds after reset, for every parameter value R8 to R10 allow, and so for
`State.reset`, whose parameters are the model's choice (notes/assumptions/1.md). -/
def Obligations.ResetStatesSatisfyInv : Prop :=
  (∀ c : Config, c.wf → (State.resetWith c).Inv) ∧
  State.reset = State.resetWith Config.reference ∧ State.reset.Inv

/-- Every step keeps the invariant: ACC's bits lie below CNT, CNT fits ACC_CAP, PAD is a pad count,
OUTLEN fits OUT_CAP, OUT is defined exactly where 20_memory.md R48 says, the codes fit the mode, and
the mode invariants of 10_state.md R41 hold as the model reads them (notes/assumptions/9.md and 10.md),
and an asserted reset leaves the reset state (the model's choice, notes/assumptions/5.md). -/
def Obligations.EveryStepKeepsInv : Prop :=
  ∀ s t : State, s.Inv → step s = .next t → t.Inv

/-- 10_state.md R39: the eight indices of the register read port, and a read in any MODE returns the
register to the host and changes no state of the engine. -/
def Obligations.RegisterReadPortReturnsRegisters : Prop :=
  ∀ s : State,
    s.readRegister 0 = s.statusWord ∧ (s.readRegister 1).toNat = s.acc.toNat ∧
    (s.readRegister 2).toNat = s.cnt.toNat ∧ (s.readRegister 3).toNat = s.pad.toNat ∧
    s.readRegister 4 = s.nsym ∧ (s.readRegister 5).toNat = s.res.toNat ∧
    s.readRegister 6 = s.outLen ∧ (s.readRegister 7).toNat = s.config.cpStart.toNat ∧
    (∀ idx : BitVec 3,
      acceptInput (.readRegister idx) s = .next { s with hostData := some (s.readRegister idx) })

/-- 20_memory.md R51: an OUT read returns the zero-extended entry when MODE = DONE and the index is
below OUTLEN, has no side effect, and is refused in every other case. -/
def Obligations.OutReadPortReturnsDefinedEntries : Prop :=
  ∀ (s : State) (index : Word), s.Inv →
    (s.mode = .done → index.toNat < s.outLen.toNat →
      ∃ v, s.out.read index.toNat = some v ∧
        acceptInput (.readOut index) s = .next { s with hostData := some (v.setWidth 32) }) ∧
    (¬ (s.mode = .done ∧ index.toNat < s.outLen.toNat) →
      acceptInput (.readOut index) s = .refused (.undefinedOutRead index))

/-- Between commands the engine "holds its state unchanged" and does no work (60_exceptions.md R148). -/
def Obligations.EngineHoldsStateWithoutInput : Prop :=
  ∀ s : State, s.inputs = [] → step s = .next s

/-- 20_memory.md R57, with the model's list of issued inputs (notes/assumptions/3.md): a run of as many
steps as the host has issued commands executes exactly those commands, in issue order. -/
def Obligations.IssuedCommandsRunInOrder : Prop :=
  ∀ (is : List Instr) (rest : List HostInput) (s : State),
    (∀ i ∈ is, i.WellFormed) → s.resetAsserted = false →
    s.inputs = is.map (fun i => .command (encode i)) ++ rest →
    Host.Core.run Sys2Proof.core is.length s = execAll is { s with inputs := rest }

/-- Every command completes in one step, whatever the word and the state: none stalls and none is
without a meaning (70_reset_and_hazards.md R162, the spec's inference from R161 and R57). -/
def Obligations.EveryCommandWordCompletes : Prop :=
  ∀ (w : Word) (s : State), ∃ t, executeWord w s = .next t

/-! ## Registers -/

/-- 10_state.md R38: the STATUS word, with the code numbers of MODE (R27: the reserved code 6 is never
written). -/
def Obligations.StatusWordLayout : Prop :=
  (Mode.idle.code = 0 ∧ Mode.enc.code = 1 ∧ Mode.decHdr.code = 2 ∧ Mode.decPay.code = 3 ∧
    Mode.done.code = 4 ∧ Mode.derr.code = 5 ∧ Mode.fault.code = 7 ∧ ∀ m : Mode, m.code ≠ 6) ∧
  ∀ s : State,
    s.statusWord.extractLsb' 0 3 = s.mode.code ∧
    s.statusWord.getLsbD 3 = false ∧
    s.statusWord.extractLsb' 4 4 = ecodeCode s.ecode ∧
    s.statusWord.extractLsb' 8 4 = fcodeCode s.fcode ∧
    s.statusWord.extractLsb' 12 20 = 0 ∧
    s.statusWord.toNat =
      (s.mode.code.toNat ||| (ecodeCode s.ecode).toNat <<< 4) ||| (fcodeCode s.fcode).toNat <<< 8

/-- 10_state.md R28: ECODE's codes, what writes ECODE and what clears it. -/
def Obligations.EcodeWrittenOnlyByErrorsAndStarts : Prop :=
  (ecodeCode none = 0 ∧ ecodeCode (some .invalidSymbol) = 1 ∧ ecodeCode (some .invalidHeader) = 2 ∧
    ∀ e, (ecodeCode e).toNat < 3) ∧
  (∀ (e : ResultError) (s : State), (s.raiseError e).ecode = some e) ∧
  (∀ s t : State, s.mode ≠ .fault → exec .encStart s = .next t → t.ecode = none) ∧
  (∀ s t : State, s.mode ≠ .fault → exec .decStart s = .next t → t.ecode = none) ∧
  (∀ (w : Word) (s t : State), executeWord w s = .next t →
    t.ecode = s.ecode ∨ (∃ e, t = s.raiseError e) ∨
      decode w = .ok .encStart ∨ decode w = .ok .decStart)

/-- 10_state.md R29: FCODE's codes, and that only `raise Fault` and reset write FCODE. -/
def Obligations.FcodeWrittenOnlyByFaultsAndReset : Prop :=
  (fcodeCode none = 0 ∧ fcodeCode (some .illegalCommand) = 1 ∧
    fcodeCode (some .sequenceFault) = 2 ∧ fcodeCode (some .accOverflow) = 3 ∧
    fcodeCode (some .accUnderflow) = 4 ∧ fcodeCode (some .outOverflow) = 5 ∧
    ∀ f, (fcodeCode f).toNat < 6) ∧
  (∀ (f : ProtocolFault) (s : State), (s.raiseFault f).fcode = some f) ∧
  (∀ (w : Word) (s t : State), executeWord w s = .next t →
    t.fcode = s.fcode ∨ (s.mode ≠ .fault ∧ ∃ f, t = s.raiseFault f)) ∧
  (∀ (x : HostInput) (s t : State), acceptInput x s = .next t → t.fcode ≠ s.fcode →
    (∃ w, x = .command w) ∨ ((x = .assertReset ∨ x = .releaseReset) ∧ t.fcode = none))

/-- 10_state.md R33: PAD holds a pad count; what each command that writes PAD writes, and that no other
command changes it. -/
def Obligations.PadWrittenByFinishHeaderAndStarts : Prop :=
  ∀ (i : Instr) (s t : State), s.Inv → s.mode ≠ .fault → exec i s = .next t →
    t.pad.toNat ≤ 17 ∧
    (i = .encStart → t.pad = 0) ∧ (i = .decStart → t.pad = 0) ∧
    (i = .encFinish → t.mode = .done → t.pad.toNat = (18 - s.cnt.toNat) % 18) ∧
    (∀ cp, i = .decSym cp → s.mode = .decHdr → t.mode = .decPay →
      t.pad.toNat = cp.toNat - s.config.cpStart.toNat) ∧
    (i ≠ .encStart → i ≠ .decStart → ¬ (i = .encFinish ∧ t.mode = .done) →
      ¬ (s.mode = .decHdr ∧ t.mode = .decPay) → t.pad = s.pad)

/-- 10_state.md R34, with the spec's inference that NSYM cannot overflow: the STARTs clear NSYM, an
accepted DEC_SYM adds 1, no other command changes it. -/
def Obligations.NsymCountsAcceptedSymbols : Prop :=
  ∀ (i : Instr) (s t : State), s.Inv → s.mode ≠ .fault → exec i s = .next t →
    (i = .encStart → t.nsym = 0) ∧ (i = .decStart → t.nsym = 0) ∧
    (∀ cp, i = .decSym cp → t.mode = .decPay → t.nsym.toNat = s.nsym.toNat + 1) ∧
    (i ≠ .encStart → i ≠ .decStart → ¬ ((∃ cp, i = .decSym cp) ∧ t.mode = .decPay) →
      t.nsym = s.nsym)

/-- 10_state.md R35: ACC_EXT writes RES, reset clears it, no other command touches it. -/
def Obligations.ResWrittenOnlyByAccExt : Prop :=
  (∀ (i : Instr) (s t : State), exec i s = .next t → (∀ m, i ≠ .accExt m) → t.res = s.res) ∧
  (∀ (m : GroupSize) (s : State), s.outsideTransaction → m.toNat ≤ s.cnt.toNat →
    ∃ t, exec (.accExt m) s = .next t ∧ t.res = s.extractValue m.toNat) ∧
  (∀ c : Config, (State.resetWith c).res = 0) ∧
  (∀ (w : Word) (s t : State), (∀ i, decode w ≠ .ok i) → executeWord w s = .next t → t.res = s.res)

/-- 10_state.md R37: CPSTART reads as the parameter CP_START, and nothing writes it. -/
def Obligations.CpstartNeverChanges : Prop :=
  (∀ s : State, s.readRegister 7 = s.config.cpStart.setWidth 32) ∧
  (∀ s t : State, step s = .next t → t.config = s.config ∧ t.readRegister 7 = s.readRegister 7)

/-- 10_state.md R46, the spec's summary of the command rules: what each command makes of each MODE. -/
def Obligations.ModeTransitionsFollowTheTable : Prop :=
  ∀ (i : Instr) (s t : State), exec i s = .next t →
    (s.mode = .fault → t = s) ∧
    (s.mode ≠ .fault →
      match i with
      | .accClr =>
        (s.outsideTransaction → t.mode = s.mode) ∧
        (¬ s.outsideTransaction → t = s.raiseFault .sequenceFault)
      | .accApp _ _ =>
        (s.outsideTransaction → t.mode = s.mode ∨ t = s.raiseFault .accOverflow) ∧
        (¬ s.outsideTransaction → t = s.raiseFault .sequenceFault)
      | .accExt _ =>
        (s.outsideTransaction → t.mode = s.mode ∨ t = s.raiseFault .accUnderflow) ∧
        (¬ s.outsideTransaction → t = s.raiseFault .sequenceFault)
      | .encStart => t.mode = .enc
      | .encByte _ =>
        (s.mode = .enc → t.mode = .enc ∨ t = s.raiseFault .outOverflow) ∧
        (s.mode ≠ .enc → t = s.raiseFault .sequenceFault)
      | .encFinish =>
        (s.mode = .enc → t.mode = .done ∨ t = s.raiseFault .outOverflow) ∧
        (s.mode ≠ .enc → t = s.raiseFault .sequenceFault)
      | .decStart => t.mode = .decHdr
      | .decSym _ =>
        (s.mode = .decHdr → t.mode = .decPay ∨ t.mode = .derr) ∧
        (s.mode = .decPay → t.mode = .decPay ∨ t.mode = .derr ∨ t = s.raiseFault .outOverflow) ∧
        (s.mode = .derr → t = s) ∧
        (s.mode = .idle ∨ s.mode = .enc ∨ s.mode = .done → t = s.raiseFault .sequenceFault)
      | .decFinish =>
        (s.mode = .decHdr ∨ s.mode = .decPay → t.mode = .done) ∧
        (s.mode = .derr → t = s) ∧
        (s.mode = .idle ∨ s.mode = .enc ∨ s.mode = .done → t = s.raiseFault .sequenceFault))

/-- 20_memory.md R48, with the model's reading of FAULT (notes/assumptions/9.md): which OUT entries are
defined. -/
def Obligations.OutEntriesDefinedBelowOutlen : Prop :=
  ∀ (s : State) (i : Nat), s.Inv →
    (s.outLen.toNat ≤ i → s.out.read i = none) ∧
    (s.mode = .enc → s.out.read 0 = none) ∧
    (i < s.outLen.toNat → i ≠ 0 → (s.out.read i).isSome = true) ∧
    (0 < s.outLen.toNat → s.mode ≠ .enc → s.mode ≠ .fault → (s.out.read 0).isSome = true)

/-! ## Errors and faults -/

/-- 60_exceptions.md R132: what `raise Error(e)` does, every other field of the state unchanged. -/
def Obligations.RaiseErrorEffect : Prop :=
  ∀ (e : ResultError) (s : State),
    s.raiseError e =
      { s with ecode := some e, outLen := 0, out := [], acc := 0, cnt := 0, mode := .derr } ∧
    (ecodeCode (s.raiseError e).ecode).toNat = (if e = .invalidSymbol then 1 else 2) ∧
    (∀ i, (s.raiseError e).out.read i = none)

/-- 60_exceptions.md R136: what `raise Fault(f)` does; a command that faults leaves every other field
of the state exactly as it was. -/
def Obligations.FaultingCommandChangesOnlyFcodeAndMode : Prop :=
  (∀ (f : ProtocolFault) (s : State), s.raiseFault f = { s with fcode := some f, mode := .fault }) ∧
  (∀ (w : Word) (s t : State), executeWord w s = .next t → s.mode ≠ .fault → t.mode = .fault →
    ∃ f, t = { s with fcode := some f, mode := .fault })

/-- 60_exceptions.md R137: in FAULT every command word, legal or not, is ignored; only reset leaves
FAULT; and the register read port still works, its word going to the host's data
(notes/assumptions/4.md). The model's reading of the rule's last sentence (notes/assumptions/7.md): a run
that ends in FAULT is a fault, by `State.finish` and not by a step. -/
def Obligations.FaultIsStickyUntilReset : Prop :=
  (∀ (w : Word) (s : State), s.mode = .fault → executeWord w s = .next s) ∧
  (∀ (x : HostInput) (s t : State), acceptInput x s = .next t → s.mode = .fault →
    t.mode = .fault ∨ x = .assertReset ∨ x = .releaseReset) ∧
  (∀ (s : State) (idx : BitVec 3), s.mode = .fault →
    acceptInput (.readRegister idx) s = .next { s with hostData := some (s.readRegister idx) }) ∧
  (∀ s : State, s.mode = .fault → s.finish = .fault (.protocolFault s.fcode))

/-- 60_exceptions.md R138: the order of the checks of one command; the first that fails is the only
failure it reports, and where none fails it reports none. -/
def Obligations.ChecksRunInOrder : Prop :=
  ∀ (w : Word) (s : State),
    (s.mode = .fault → executeWord w s = .next s) ∧
    (s.mode ≠ .fault →
      ((∀ i, decode w ≠ .ok i) → executeWord w s = .next (s.raiseFault .illegalCommand)) ∧
      (decode w = .ok .accClr →
        (¬ s.outsideTransaction → executeWord w s = .next (s.raiseFault .sequenceFault))) ∧
      (∀ n chunk, decode w = .ok (.accApp n chunk) →
        (¬ s.outsideTransaction → executeWord w s = .next (s.raiseFault .sequenceFault)) ∧
        (s.outsideTransaction → s.config.accCap < s.cnt.toNat + n.toNat →
          executeWord w s = .next (s.raiseFault .accOverflow))) ∧
      (∀ m, decode w = .ok (.accExt m) →
        (¬ s.outsideTransaction → executeWord w s = .next (s.raiseFault .sequenceFault)) ∧
        (s.outsideTransaction → s.cnt.toNat < m.toNat →
          executeWord w s = .next (s.raiseFault .accUnderflow))) ∧
      (∀ b, decode w = .ok (.encByte b) →
        (s.mode ≠ .enc → executeWord w s = .next (s.raiseFault .sequenceFault)) ∧
        (s.mode = .enc → s.config.outCap < s.outLen.toNat + (if 18 ≤ s.cnt.toNat + 8 then 1 else 0) →
          executeWord w s = .next (s.raiseFault .outOverflow))) ∧
      (decode w = .ok .encFinish →
        (s.mode ≠ .enc → executeWord w s = .next (s.raiseFault .sequenceFault)) ∧
        (s.mode = .enc →
          s.config.outCap < s.outLen.toNat + (if 0 < (18 - s.cnt.toNat) % 18 then 1 else 0) →
          executeWord w s = .next (s.raiseFault .outOverflow))) ∧
      (∀ cp, decode w = .ok (.decSym cp) →
        (s.mode = .idle ∨ s.mode = .enc ∨ s.mode = .done →
          executeWord w s = .next (s.raiseFault .sequenceFault)) ∧
        (s.mode = .derr → executeWord w s = .next s) ∧
        (s.mode = .decHdr ∨ s.mode = .decPay → inRange s.config cp = false →
          executeWord w s = .next (s.raiseError .invalidSymbol)) ∧
        (s.mode = .decHdr → inRange s.config cp = true →
          17 < cp.toNat - s.config.cpStart.toNat →
          executeWord w s = .next (s.raiseError .invalidHeader)) ∧
        (s.mode = .decPay → inRange s.config cp = true →
          s.config.outCap < s.outLen.toNat + (s.cnt.toNat + 18) / 8 →
          executeWord w s = .next (s.raiseFault .outOverflow))) ∧
      (decode w = .ok .decFinish →
        (s.mode = .idle ∨ s.mode = .enc ∨ s.mode = .done →
          executeWord w s = .next (s.raiseFault .sequenceFault)) ∧
        (s.mode = .derr → executeWord w s = .next s)) ∧
      (∀ i t, decode w = .ok i → executeWord w s = .next t →
        (t.mode = .fault ∨ (t.mode = .derr ∧ s.mode ≠ .derr)) →
        (t = s.raiseFault .sequenceFault ∧
          (match i with
            | .accClr | .accApp _ _ | .accExt _ => ¬ s.outsideTransaction
            | .encByte _ | .encFinish => s.mode ≠ .enc
            | .decSym _ | .decFinish => s.mode = .idle ∨ s.mode = .enc ∨ s.mode = .done
            | .encStart | .decStart => False)) ∨
        (t = s.raiseFault .accOverflow ∧
          ∃ n chunk, i = .accApp n chunk ∧ s.config.accCap < s.cnt.toNat + n.toNat) ∨
        (t = s.raiseFault .accUnderflow ∧ ∃ m, i = .accExt m ∧ s.cnt.toNat < m.toNat) ∨
        (∃ cp, i = .decSym cp ∧ t = s.raiseError .invalidSymbol ∧ inRange s.config cp = false) ∨
        (∃ cp, i = .decSym cp ∧ t = s.raiseError .invalidHeader ∧ inRange s.config cp = true ∧
          17 < cp.toNat - s.config.cpStart.toNat) ∨
        (t = s.raiseFault .outOverflow ∧
          (match i with
            | .encByte _ =>
              s.config.outCap < s.outLen.toNat + (if 18 ≤ s.cnt.toNat + 8 then 1 else 0)
            | .encFinish =>
              s.config.outCap < s.outLen.toNat + (if 0 < (18 - s.cnt.toNat) % 18 then 1 else 0)
            | .decSym cp => s.mode = .decPay ∧ inRange s.config cp = true ∧
              s.config.outCap < s.outLen.toNat + (s.cnt.toNat + 18) / 8
            | .accClr | .accApp _ _ | .accExt _ | .encStart | .decStart | .decFinish => False))))

/-- 60_exceptions.md R130 and R131: when a result error is raised, that only DEC_SYM raises one, and
what it leaves: NSYM and PAD keep what was accepted. -/
def Obligations.ResultErrorsOnlyFromDecSym : Prop :=
  (∀ (cp : CodePoint) (s : State), s.mode = .decHdr ∨ s.mode = .decPay →
    inRange s.config cp = false →
    exec (.decSym cp) s = .next { s with
      ecode := some .invalidSymbol, mode := .derr, outLen := 0, out := [], acc := 0, cnt := 0 }) ∧
  (∀ (cp : CodePoint) (s : State), s.mode = .decHdr → inRange s.config cp = true →
    17 < cp.toNat - s.config.cpStart.toNat →
    exec (.decSym cp) s = .next { s with
      ecode := some .invalidHeader, mode := .derr, outLen := 0, out := [], acc := 0, cnt := 0 }) ∧
  (∀ (i : Instr) (s t : State), exec i s = .next t → t.mode = .derr → s.mode ≠ .derr →
    ∃ cp, i = .decSym cp ∧
      ((s.mode = .decHdr ∨ s.mode = .decPay) ∧ inRange s.config cp = false ∨
        s.mode = .decHdr ∧ inRange s.config cp = true ∧
          17 < cp.toNat - s.config.cpStart.toNat)) ∧
  (∀ (s : State), s.Inv → s.mode = .decHdr → s.nsym = 0 ∧ s.pad = 0)

/-! ## Accumulator -/

/-- 41_accumulator.md R89: Append as arithmetic and as a bit sequence. -/
def Obligations.AppendAddsNewestBits : Prop :=
  ∀ (n : Nat) (c : Value) (s : State), s.Inv → 1 ≤ n → n ≤ 18 → c.toNat < 2 ^ n →
    s.cnt.toNat + n ≤ s.config.accCap →
    (s.append n c).acc.toNat = (s.acc.toNat <<< n ||| c.toNat) ∧
    (s.append n c).acc.toNat = s.acc.toNat * 2 ^ n + c.toNat ∧
    (s.append n c).acc.toNat < 2 ^ (s.cnt.toNat + n) ∧
    (s.append n c).cnt.toNat = s.cnt.toNat + n ∧
    (s.append n c).bits = s.bits ++ bitsOf c.toNat n ∧
    s.append n c = { s with acc := (s.append n c).acc, cnt := (s.append n c).cnt }

/-- 41_accumulator.md R90: Extract as arithmetic and as a bit sequence. -/
def Obligations.ExtractTakesOldestBits : Prop :=
  ∀ (m : Nat) (s : State), s.Inv → 1 ≤ m → m ≤ 18 → m ≤ s.cnt.toNat →
    (s.extractValue m).toNat = s.acc.toNat >>> (s.cnt.toNat - m) ∧
    (s.extractValue m).toNat < 2 ^ m ∧
    (s.extractRest m).acc.toNat = s.acc.toNat &&& ((1 <<< (s.cnt.toNat - m)) - 1) ∧
    (s.extractRest m).cnt.toNat = s.cnt.toNat - m ∧
    bitsOf (s.extractValue m).toNat m = s.bits.take m ∧
    (s.extractRest m).bits = s.bits.drop m ∧
    s.extractRest m = { s with acc := (s.extractRest m).acc, cnt := (s.extractRest m).cnt }

/-- 41_accumulator.md R91: Flush as arithmetic and as a bit sequence; the accumulator is left empty;
ENC_FINISH's pad is G - CNT. -/
def Obligations.FlushZeroFillsTheLowEnd : Prop :=
  ∀ (g : Nat) (s : State), s.Inv → 0 < s.cnt.toNat → s.cnt.toNat < g → g ≤ 18 →
    (s.flushValue g).toNat = s.acc.toNat <<< (g - s.cnt.toNat) ∧
    (s.flushValue g).toNat < 2 ^ g ∧
    (s.flushValue g).toNat % 2 ^ (g - s.cnt.toNat) = 0 ∧
    bitsOf (s.flushValue g).toNat g = s.bits ++ List.replicate (g - s.cnt.toNat) false ∧
    s.clear.bits = [] ∧ s.clear = { s with acc := 0, cnt := 0 } ∧
    (g = 18 → s.encPad = g - s.cnt.toNat)

/-- 41_accumulator.md R93, the spec's inference from R84, R89 and R90: the accumulator is a
first-in, first-out queue of bits, over any sequence of calls that each meet their precondition. -/
def Obligations.AccumulatorIsFifo : Prop :=
  ∀ (calls : List AccCall) (s : State), s.Inv → AccCall.allPre s calls →
    AccCall.bitsOutAll s calls ++ (AccCall.nextAll s calls).bits =
      s.bits ++ (calls.map AccCall.bitsIn).flatten

/-- 41_accumulator.md R95: ACC_CLR outside a transaction empties the accumulator and changes nothing
else. -/
def Obligations.AccClrEmptiesTheAccumulator : Prop :=
  ∀ s : State, s.outsideTransaction → exec .accClr s = .next { s with acc := 0, cnt := 0 }

/-- 41_accumulator.md R96: ACC_APP outside a transaction appends the chunk where it fits, every other
field unchanged, and overflows where it does not. -/
def Obligations.AccAppAppendsOrOverflows : Prop :=
  ∀ (n : GroupSize) (chunk : Value) (s : State), s.Inv → (Instr.accApp n chunk).WellFormed →
    s.outsideTransaction →
    (s.cnt.toNat + n.toNat ≤ s.config.accCap →
      ∃ t, exec (.accApp n chunk) s = .next t ∧
        t.acc.toNat = s.acc.toNat * 2 ^ n.toNat + chunk.toNat ∧
        t.cnt.toNat = s.cnt.toNat + n.toNat ∧
        t = { s with acc := t.acc, cnt := t.cnt }) ∧
    (s.config.accCap < s.cnt.toNat + n.toNat →
      exec (.accApp n chunk) s = .next { s with fcode := some .accOverflow, mode := .fault })

/-- 41_accumulator.md R97: ACC_EXT outside a transaction moves the oldest M bits to RES where they are
buffered, every other field unchanged, and underflows where they are not. -/
def Obligations.AccExtExtractsOrUnderflows : Prop :=
  ∀ (m : GroupSize) (s : State), s.Inv → (Instr.accExt m).WellFormed → s.outsideTransaction →
    (m.toNat ≤ s.cnt.toNat →
      ∃ t, exec (.accExt m) s = .next t ∧
        t.res.toNat = s.acc.toNat / 2 ^ (s.cnt.toNat - m.toNat) ∧
        t.acc.toNat = s.acc.toNat % 2 ^ (s.cnt.toNat - m.toNat) ∧
        t.cnt.toNat = s.cnt.toNat - m.toNat ∧
        t = { s with acc := t.acc, cnt := t.cnt, res := t.res }) ∧
    (s.cnt.toNat < m.toNat →
      exec (.accExt m) s = .next { s with fcode := some .accUnderflow, mode := .fault })

/-- 41_accumulator.md R94: the raw commands run only in IDLE, DONE and DERR, raise SequenceFault in the
three modes of an open transaction, and never change ECODE, PAD, NSYM, OUTLEN or OUT, nor MODE where
they run. -/
def Obligations.RawCommandsRunOnlyOutsideTransactions : Prop :=
  ∀ (i : Instr) (s : State),
    (i = .accClr ∨ (∃ n chunk, i = .accApp n chunk) ∨ ∃ m, i = .accExt m) →
    (s.mode = .enc ∨ s.mode = .decHdr ∨ s.mode = .decPay →
      exec i s = .next { s with fcode := some .sequenceFault, mode := .fault }) ∧
    (∀ t, exec i s = .next t →
      t.ecode = s.ecode ∧ t.pad = s.pad ∧ t.nsym = s.nsym ∧ t.outLen = s.outLen ∧ t.out = s.out ∧
      (t.mode = s.mode ∨ ∃ f, t = s.raiseFault f)) ∧
    (s.outsideTransaction → ∃ t, exec i s = .next t ∧ t ≠ s.raiseFault .sequenceFault)

/-- 41_accumulator.md R98, the spec's inference: from an empty accumulator the raw commands replay the
encoder's packing of two bytes, and its flush: `ACC_APP 2, 0 ; ACC_EXT 18` leave in RES the group that
ENC_FINISH flushes, whose symbol ENC_FINISH writes to entry OUTLEN where it fits. -/
def Obligations.RawCommandsReplayTheEncoder : Prop :=
  ∀ (b₀ b₁ : Byte) (s e : State), s.Inv → s.outsideTransaction → s.cnt = 0 →
    e.Inv → e.mode = .enc → e.cnt = 0 →
    ∃ t r u,
      execAll [.accApp 8 (b₀.setWidth 18), .accApp 8 (b₁.setWidth 18)] s = .next t ∧
      execAll [.encByte b₀, .encByte b₁] e = .next u ∧ t.acc = u.acc ∧ t.cnt = u.cnt ∧
      execAll [.accApp 2 0, .accExt 18] t = .next r ∧
      r.res.toNat = (b₀.toNat <<< 10 ||| b₁.toNat <<< 2) ∧ r.res = u.flushValue 18 ∧
      r.acc = 0 ∧ r.cnt = 0 ∧
      (u.outLen.toNat < u.config.outCap →
        ∃ v, exec .encFinish u = .next v ∧ v.mode = .done ∧
          v.out.read u.outLen.toNat = some (valueToSymbol u.config r.res) ∧
          v.acc = r.acc ∧ v.cnt = r.cnt)

/-! ## Encoder -/

/-- 42_encoder.md R106: ENC_START in any MODE but FAULT. -/
def Obligations.EncStartOpensAnEncode : Prop :=
  ∀ s : State, s.mode ≠ .fault →
    exec .encStart s = .next { s with
      acc := 0, cnt := 0, pad := 0, nsym := 0, ecode := none, outLen := 1, out := [],
      mode := .enc }

/-- 42_encoder.md R107: ENC_BYTE appends the byte; at 18 bits or more it emits one symbol to entry
OUTLEN; where that entry does not fit it overflows. Everything else is unchanged. -/
def Obligations.EncByteAppendsAndEmits : Prop :=
  ∀ (b : Byte) (s : State), s.Inv → s.mode = .enc →
    (s.cnt.toNat < 10 →
      ∃ t, exec (.encByte b) s = .next t ∧
        t.acc.toNat = s.acc.toNat * 256 + b.toNat ∧ t.cnt.toNat = s.cnt.toNat + 8 ∧
        t = { s with acc := t.acc, cnt := t.cnt } ∧
        ∀ a, t.out.read a = s.out.read a) ∧
    (10 ≤ s.cnt.toNat → s.outLen.toNat < s.config.outCap →
      ∃ t sym, exec (.encByte b) s = .next t ∧
        t.cnt.toNat = s.cnt.toNat - 10 ∧
        t.acc.toNat = (s.acc.toNat * 256 + b.toNat) % 2 ^ (s.cnt.toNat - 10) ∧
        t.outLen.toNat = s.outLen.toNat + 1 ∧
        t.out.read s.outLen.toNat = some sym ∧
        sym.toNat = s.config.cpStart.toNat +
          (s.acc.toNat * 256 + b.toNat) / 2 ^ (s.cnt.toNat - 10) ∧
        (∀ a, a ≠ s.outLen.toNat → t.out.read a = s.out.read a) ∧
        t = { s with acc := t.acc, cnt := t.cnt, outLen := t.outLen, out := t.out }) ∧
    (10 ≤ s.cnt.toNat → s.config.outCap ≤ s.outLen.toNat →
      exec (.encByte b) s = .next { s with fcode := some .outOverflow, mode := .fault })

/-- 10_state.md R41 and 42_encoder.md R107, the spec's inferences: after j accepted bytes CNT is 8j mod
18, and the entries below OUTLEN are the header's place and one per full group. -/
def Obligations.EncCntCountsTheBytes : Prop :=
  ∀ (bytes : List Byte) (s : State), s.Inv → s.mode ≠ .fault →
    1 + 8 * bytes.length / 18 ≤ s.config.outCap →
    ∃ t, execAll (.encStart :: bytes.map .encByte) s = .next t ∧ t.mode = .enc ∧
      t.cnt.toNat = 8 * bytes.length % 18 ∧ t.outLen.toNat = 1 + 8 * bytes.length / 18

/-- 42_encoder.md R108: ENC_FINISH writes the header to entry 0 and the zero-filled partial group, if
there is one, to entry OUTLEN; where that entry does not fit it overflows. Everything else is
unchanged. -/
def Obligations.EncFinishWritesHeaderAndFlushes : Prop :=
  ∀ s : State, s.Inv → s.mode = .enc →
    (s.cnt.toNat = 0 →
      ∃ t hdr, exec .encFinish s = .next t ∧ t.pad = 0 ∧
        t.out.read 0 = some hdr ∧ hdr = s.config.cpStart ∧
        (∀ a, a ≠ 0 → t.out.read a = s.out.read a) ∧
        t = { s with acc := 0, cnt := 0, pad := t.pad, out := t.out, mode := .done }) ∧
    (0 < s.cnt.toNat → s.outLen.toNat < s.config.outCap →
      ∃ t hdr sym, exec .encFinish s = .next t ∧
        t.pad.toNat = 18 - s.cnt.toNat ∧
        t.out.read 0 = some hdr ∧ hdr.toNat = s.config.cpStart.toNat + (18 - s.cnt.toNat) ∧
        t.out.read s.outLen.toNat = some sym ∧
        sym.toNat = s.config.cpStart.toNat + s.acc.toNat * 2 ^ (18 - s.cnt.toNat) ∧
        t.outLen.toNat = s.outLen.toNat + 1 ∧
        (∀ a, a ≠ 0 → a ≠ s.outLen.toNat → t.out.read a = s.out.read a) ∧
        t = { s with
          acc := 0, cnt := 0, pad := t.pad, outLen := t.outLen, out := t.out, mode := .done }) ∧
    (0 < s.cnt.toNat → s.config.outCap ≤ s.outLen.toNat →
      exec .encFinish s = .next { s with fcode := some .outOverflow, mode := .fault })

/-- 42_encoder.md R101 and R105, in part the spec's inferences: the pad count and its equivalent form,
that it is even and at most 16, the header, and the length relation for every L. -/
def Obligations.EncodePadAndLength : Prop :=
  ∀ (c : Config) (bytes : List Byte), c.wf →
    Codec.pad bytes.length = (18 - (8 * bytes.length) % 18) % 18 ∧
    Codec.pad bytes.length + 8 * bytes.length = 18 * ((8 * bytes.length + 17) / 18) ∧
    Codec.pad bytes.length % 2 = 0 ∧ Codec.pad bytes.length ≤ 16 ∧
    (Codec.encode c bytes)[0]? =
      some (valueToSymbol c (BitVec.ofNat 18 (Codec.pad bytes.length))) ∧
    (Codec.encode c bytes).length = 1 + (8 * bytes.length + 17) / 18 ∧
    8 * bytes.length + Codec.pad bytes.length = ((Codec.encode c bytes).length - 1) * 18

/-- 40_alphabet.md R83 (the source's testable property): encoding never emits a symbol outside the
alphabet. -/
def Obligations.EncodeEmitsOnlyAlphabetSymbols : Prop :=
  ∀ (c : Config) (bytes : List Byte), c.wf → ∀ cp ∈ Codec.encode c bytes, inRange c cp = true

/-- 42_encoder.md R110, the spec's transaction theorem, first case: an ENCODE transaction that fits in
OUT leaves exactly `encode(B)` in it. -/
def Obligations.EncodeTransactionComputesEncode : Prop :=
  ∀ (bytes : List Byte) (s : State), s.Inv → s.mode ≠ .fault →
    1 + (8 * bytes.length + 17) / 18 ≤ s.config.outCap →
    ∃ t, execAll (encodeTransaction bytes) s = .next t ∧ t.mode = .done ∧
      t.outLen.toNat = (Codec.encode s.config bytes).length ∧
      (∀ i, t.out.read i = (Codec.encode s.config bytes)[i]?) ∧
      t.pad.toNat = Codec.pad bytes.length ∧ t.cnt = 0 ∧ t.acc = 0 ∧
      t.ecode = none ∧ t.fcode = none ∧ t.res = s.res ∧ t.config = s.config

/-- 42_encoder.md R110, second case: where `encode(B)` does not fit, the first command whose emit
would exceed OUT_CAP raises OutOverflow with OUT full, and the later commands are ignored. -/
def Obligations.EncodeTransactionOverflowsWhenFull : Prop :=
  ∀ (bytes : List Byte) (s : State), s.Inv → s.mode ≠ .fault →
    s.config.outCap < 1 + (8 * bytes.length + 17) / 18 →
    ∃ k u, execAll ((encodeTransaction bytes).take k) s = .next u ∧ u.mode = .enc ∧
      u.outLen.toNat = s.config.outCap ∧
      execAll ((encodeTransaction bytes).take (k + 1)) s = .next (u.raiseFault .outOverflow) ∧
      execAll (encodeTransaction bytes) s = .next (u.raiseFault .outOverflow)

/-! ## Decoder -/

/-- 43_decoder.md R120: DEC_START in any MODE but FAULT. -/
def Obligations.DecStartOpensADecode : Prop :=
  ∀ s : State, s.mode ≠ .fault →
    exec .decStart s = .next { s with
      acc := 0, cnt := 0, pad := 0, nsym := 0, ecode := none, outLen := 0, out := [],
      mode := .decHdr }

/-- 43_decoder.md R121 in DEC_HDR: a symbol of a value in [0, 17] is accepted as the header, and
nothing else changes; in DERR the symbol is ignored. -/
def Obligations.DecSymAcceptsTheHeader : Prop :=
  ∀ (cp : CodePoint) (s : State), s.config.wf →
    (s.mode = .decHdr → s.config.cpStart.toNat ≤ cp.toNat →
      cp.toNat ≤ s.config.cpStart.toNat + 17 →
      ∃ t, exec (.decSym cp) s = .next t ∧
        t.pad.toNat = cp.toNat - s.config.cpStart.toNat ∧
        t = { s with pad := t.pad, nsym := 1, mode := .decPay }) ∧
    (s.mode = .derr → exec (.decSym cp) s = .next s)

/-- 43_decoder.md R121 in DEC_PAY: a symbol of the alphabet appends 18 bits and emits the full bytes to
the entries from OUTLEN on; where they do not fit it overflows. Everything else is unchanged. -/
def Obligations.DecSymUnpacksAPayloadSymbol : Prop :=
  ∀ (cp : CodePoint) (s : State), s.Inv → s.mode = .decPay → inRange s.config cp = true →
    (s.outLen.toNat + (s.cnt.toNat + 18) / 8 ≤ s.config.outCap →
      ∃ t, exec (.decSym cp) s = .next t ∧
        t.nsym.toNat = s.nsym.toNat + 1 ∧
        t.cnt.toNat = (s.cnt.toNat + 18) % 8 ∧
        t.acc.toNat =
          (s.acc.toNat * 2 ^ 18 + (cp.toNat - s.config.cpStart.toNat)) %
            2 ^ ((s.cnt.toNat + 18) % 8) ∧
        t.outLen.toNat = s.outLen.toNat + (s.cnt.toNat + 18) / 8 ∧
        (∀ j, j < (s.cnt.toNat + 18) / 8 →
          ∃ byte, t.out.read (s.outLen.toNat + j) = some byte ∧
            byte.toNat =
              (s.acc.toNat * 2 ^ 18 + (cp.toNat - s.config.cpStart.toNat)) /
                2 ^ (s.cnt.toNat + 18 - 8 * (j + 1)) % 256) ∧
        (∀ a, a < s.outLen.toNat ∨ s.outLen.toNat + (s.cnt.toNat + 18) / 8 ≤ a →
          t.out.read a = s.out.read a) ∧
        t = { s with
          acc := t.acc, cnt := t.cnt, nsym := t.nsym, outLen := t.outLen, out := t.out }) ∧
    (s.config.outCap < s.outLen.toNat + (s.cnt.toNat + 18) / 8 →
      exec (.decSym cp) s = .next { s with fcode := some .outOverflow, mode := .fault })

/-- 43_decoder.md R125: DEC_FINISH with no symbol gives the empty result; after a header it strips the
bytes the padding gave and drops the leftover bits; in DERR it is ignored. Everything else is
unchanged. -/
def Obligations.DecFinishStripsThePadding : Prop :=
  ∀ s : State, s.Inv →
    (s.mode = .decHdr → exec .decFinish s = .next { s with mode := .done } ∧ s.outLen = 0) ∧
    (s.mode = .derr → exec .decFinish s = .next s) ∧
    (s.mode = .decPay →
      ∃ t, exec .decFinish s = .next t ∧
        t.outLen.toNat = (if s.pad = 0 then s.outLen.toNat
          else (18 * (s.nsym.toNat - 1) - s.pad.toNat) / 8) ∧
        (∀ a, a < t.outLen.toNat → t.out.read a = s.out.read a) ∧
        (∀ a, t.outLen.toNat ≤ a → t.out.read a = none) ∧
        t = { s with acc := 0, cnt := 0, outLen := t.outLen, out := t.out, mode := .done })

/-- 43_decoder.md R119 and R124, the spec's inferences: truncation never extends OUT, takes away at
most 3 entries, and a negative `useful_bits` comes only from a header alone. -/
def Obligations.TruncationNeverExtends : Prop :=
  ∀ s : State, s.Inv → s.mode = .decPay →
    s.usefulBytes ≤ s.outLen.toNat ∧ s.outLen.toNat ≤ s.usefulBytes + 3 ∧
    (s.usefulBits < 0 → s.nsym.toNat = 1 ∧ s.outLen = 0)

/-- 43_decoder.md R128, the spec's inference from R114: the outcomes of inputs that no encoder
produced. -/
def Obligations.ForeignInputOutcomes : Prop :=
  ∀ c : Config, c.wf →
    Codec.decode c [] = .ok [] ∧
    (∀ p : Value, p.toNat ≤ 17 → Codec.decode c [valueToSymbol c p] = .ok []) ∧
    (∀ p v : Value, p.toNat ≤ 2 → Codec.decode c [valueToSymbol c p, valueToSymbol c v] =
      .ok [(v >>> 10).setWidth 8, ((v >>> 2) &&& 0xFF).setWidth 8]) ∧
    (∀ p v : Value, 3 ≤ p.toNat → p.toNat ≤ 10 →
      Codec.decode c [valueToSymbol c p, valueToSymbol c v] = .ok [(v >>> 10).setWidth 8]) ∧
    (∀ p v : Value, 11 ≤ p.toNat → p.toNat ≤ 17 →
      Codec.decode c [valueToSymbol c p, valueToSymbol c v] = .ok []) ∧
    (∀ rest, Codec.decode c (valueToSymbol c 18 :: rest) = .error .invalidHeader) ∧
    (∀ cp rest, inRange c cp = false → Codec.decode c (cp :: rest) = .error .invalidSymbol) ∧
    (∀ (p : Value) rest, p.toNat ≤ 17 → (∃ cp ∈ rest, inRange c cp = false) →
      Codec.decode c (valueToSymbol c p :: rest) = .error .invalidSymbol)

/-- 43_decoder.md R127, the spec's transaction theorem: a DECODE transaction computes `decode(T)`. The
capacity it needs is stated for the accepted symbols, which are all of T where `decode(T)` succeeds and
those before the failing one where it fails. -/
def Obligations.DecodeTransactionComputesDecode : Prop :=
  ∀ (symbols : List CodePoint) (s : State), s.Inv → s.mode ≠ .fault →
    18 * (Codec.accepted s.config symbols - 1) / 8 ≤ s.config.outCap →
    (∀ bytes, Codec.decode s.config symbols = .ok bytes →
      ∃ t, execAll (decodeTransaction symbols) s = .next t ∧ t.mode = .done ∧
        t.outLen.toNat = bytes.length ∧
        (∀ i, t.out.read i = bytes[i]?.map (fun b => b.setWidth 21)) ∧
        t.ecode = none ∧ t.fcode = none ∧ t.cnt = 0 ∧ t.nsym.toNat = symbols.length ∧
        t.pad.toNat = (symbols.map (fun h => h.toNat - s.config.cpStart.toNat)).headD 0 ∧
        Codec.accepted s.config symbols = symbols.length) ∧
    (∀ e, Codec.decode s.config symbols = .error e →
      ∃ t, execAll (decodeTransaction symbols) s = .next t ∧ t.mode = .derr ∧
        t.ecode = some e ∧ t.outLen = 0 ∧ (∀ i, t.out.read i = none) ∧
        t.nsym.toNat = Codec.accepted s.config symbols)

/-- 43_decoder.md R127, last sentence: where the bytes of the accepted symbols do not fit, the decode
ends in OutOverflow. -/
def Obligations.DecodeTransactionOverflowsWhenFull : Prop :=
  ∀ (symbols : List CodePoint) (s : State), s.Inv → s.mode ≠ .fault →
    s.config.outCap < 18 * (Codec.accepted s.config symbols - 1) / 8 →
    ∃ t, execAll (decodeTransaction symbols) s = .next t ∧ t.mode = .fault ∧
      t.fcode = some .outOverflow

/-- 43_decoder.md R126 (the source's property): for every byte sequence B, decode(encode(B)) = B. -/
def Obligations.DecodeInvertsEncode : Prop :=
  ∀ (c : Config) (bytes : List Byte), c.wf → Codec.decode c (Codec.encode c bytes) = .ok bytes

/-- The same on the engine: an ENCODE transaction, and then a DECODE transaction of the symbols it left
in OUT, leaves the bytes (42_encoder.md R110, 43_decoder.md R126 and R127). -/
def Obligations.EngineRoundTrip : Prop :=
  ∀ (bytes : List Byte) (s : State), s.Inv → s.mode ≠ .fault →
    1 + (8 * bytes.length + 17) / 18 ≤ s.config.outCap →
    18 * ((8 * bytes.length + 17) / 18) / 8 ≤ s.config.outCap →
    ∃ t u, execAll (encodeTransaction bytes) s = .next t ∧
      execAll (decodeTransaction (t.out.map Prod.snd)) t = .next u ∧ u.mode = .done ∧
      u.outLen.toNat = bytes.length ∧
      ∀ i, u.out.read i = bytes[i]?.map (fun b => b.setWidth 21)
end

