-- ==== Sys2Proof/Laws/Memory.lean ====
section
/-! SUPPORT. OUT's accesses: what a read gives after a write or a truncation, and that every operation
keeps the canonical form. -/

namespace Sys2Proof.Machine

/-- The canonical form, as a fact about the list of indices. -/
theorem Memory.wf_iff_pairwise (m : Memory) :
    Memory.wf m = true ↔ (m.map Prod.fst).Pairwise (· < ·) := by
  induction m with
  | nil => simp [Memory.wf]
  | cons e rest ih =>
    cases rest with
    | nil => simp [Memory.wf]
    | cons e' rest =>
      obtain ⟨i, u⟩ := e
      obtain ⟨j, v⟩ := e'
      simp only [Memory.wf, Bool.and_eq_true, decide_eq_true_eq, ih, List.map_cons,
        List.pairwise_cons]
      constructor
      · rintro ⟨hij, hj, hrest⟩
        refine ⟨fun a ha => ?_, hj, hrest⟩
        rcases List.mem_cons.mp ha with rfl | ha
        · exact hij
        · exact Nat.lt_trans hij (hj a ha)
      · rintro ⟨hi, hj, hrest⟩
        exact ⟨hi j (by simp), hj, hrest⟩

@[simp] theorem Memory.read_nil (i : Nat) : Memory.read i [] = none := rfl

/-- A read after a write to the same index gives the value written. -/
@[simp] theorem Memory.read_write_self (i : Nat) (v : CodePoint) (m : Memory) :
    (m.write i v).read i = some v := by
  induction m with
  | nil => simp [Memory.write, Memory.read]
  | cons e rest ih =>
    obtain ⟨j, u⟩ := e
    simp only [Memory.write]
    split
    · simp [Memory.read]
    · split
      · simp [Memory.read]
      · next h => simp [Memory.read, Ne.symm h, ih]

/-- A write leaves every other index alone. -/
theorem Memory.read_write_of_ne (i a : Nat) (v : CodePoint) (m : Memory) (h : a ≠ i) :
    (m.write i v).read a = m.read a := by
  induction m with
  | nil => simp [Memory.write, Memory.read, Ne.symm h]
  | cons e rest ih =>
    obtain ⟨j, u⟩ := e
    simp only [Memory.write]
    split
    · simp [Memory.read, Ne.symm h]
    · split
      · next hij => subst hij; simp [Memory.read, Ne.symm h]
      · simp [Memory.read, ih]

/-- Below the bound a truncation changes nothing. -/
theorem Memory.read_truncate_of_lt (n a : Nat) (m : Memory) (h : a < n) :
    (m.truncate n).read a = m.read a := by
  induction m with
  | nil => rfl
  | cons e rest ih =>
    obtain ⟨j, u⟩ := e
    simp only [Memory.truncate]
    split
    · simp [Memory.read, ih]
    · simp [Memory.read, ih, show j ≠ a by omega]

/-- From the bound up a truncation leaves every index ABSENT. -/
theorem Memory.read_truncate_of_ge (n a : Nat) (m : Memory) (h : n ≤ a) :
    (m.truncate n).read a = none := by
  induction m with
  | nil => rfl
  | cons e rest ih =>
    obtain ⟨j, u⟩ := e
    simp only [Memory.truncate]
    split
    · simp [Memory.read, ih, show j ≠ a by omega]
    · exact ih

@[simp] theorem Memory.truncate_zero (m : Memory) : m.truncate 0 = [] := by
  induction m with
  | nil => rfl
  | cons e rest ih => simpa [Memory.truncate] using ih

/-- A write puts its index among the indices and no other. -/
theorem Memory.mem_keys_write (i a : Nat) (v : CodePoint) (m : Memory) :
    a ∈ (m.write i v).map Prod.fst ↔ a = i ∨ a ∈ m.map Prod.fst := by
  induction m with
  | nil => simp [Memory.write]
  | cons e rest ih =>
    obtain ⟨j, u⟩ := e
    simp only [Memory.write]
    split
    · simp
    · split
      · next h => subst h; simp
      · simp only [List.map_cons, List.mem_cons, ih]; tauto

/-- A write keeps the canonical form. -/
theorem Memory.wf_write (i : Nat) (v : CodePoint) (m : Memory) (h : Memory.wf m = true) :
    Memory.wf (m.write i v) = true := by
  rw [Memory.wf_iff_pairwise] at h ⊢
  induction m with
  | nil => simp [Memory.write]
  | cons e rest ih =>
    obtain ⟨j, u⟩ := e
    simp only [List.map_cons, List.pairwise_cons] at h
    simp only [Memory.write]
    split
    · next hij =>
      simp only [List.map_cons, List.pairwise_cons]
      refine ⟨fun a ha => ?_, h⟩
      rcases List.mem_cons.mp ha with rfl | ha
      · exact hij
      · exact Nat.lt_trans hij (h.1 a ha)
    · split
      · next hij => subst hij; simpa using h
      · simp only [List.map_cons, List.pairwise_cons]
        refine ⟨fun a ha => ?_, ih h.2⟩
        rcases (Memory.mem_keys_write i a v rest).mp ha with rfl | ha
        · omega
        · exact h.1 a ha

/-- A truncation keeps some of the indices. -/
theorem Memory.keys_truncate (n : Nat) (m : Memory) :
    (m.truncate n).map Prod.fst = (m.map Prod.fst).filter (· < n) := by
  induction m with
  | nil => rfl
  | cons e rest ih =>
    obtain ⟨j, u⟩ := e
    simp only [Memory.truncate]
    split <;> simp [*]

/-- A truncation keeps the canonical form. -/
theorem Memory.wf_truncate (n : Nat) (m : Memory) (h : Memory.wf m = true) :
    Memory.wf (m.truncate n) = true := by
  rw [Memory.wf_iff_pairwise] at h ⊢
  rw [Memory.keys_truncate]
  exact h.filter _

/-- The defined indices are those listed. -/
theorem Memory.read_isSome_iff (i : Nat) (m : Memory) :
    (m.read i).isSome = true ↔ i ∈ m.map Prod.fst := by
  induction m with
  | nil => simp
  | cons e rest ih =>
    obtain ⟨j, u⟩ := e
    by_cases h : j = i
    · simp [Memory.read, h]
    · simp [Memory.read, h, ih, Ne.symm h]

/-- A write past every index adds the entry at the end. -/
theorem Memory.write_at_end (i : Nat) (v : CodePoint) (m : Memory)
    (h : ∀ a ∈ m.map Prod.fst, a < i) : m.write i v = m ++ [(i, v)] := by
  induction m with
  | nil => rfl
  | cons e rest ih =>
    obtain ⟨j, u⟩ := e
    have hj : j < i := h j (by simp)
    have hrest : ∀ a ∈ rest.map Prod.fst, a < i := fun a ha => h a (by simp [ha])
    simp [Memory.write, show ¬ i < j by omega, show i ≠ j by omega, ih hrest]

/-! ## The engine's OUT keeps the canonical form -/

theorem State.wf_memWrite (i : Nat) (v : CodePoint) (s : State) (h : Memory.wf s.out = true) :
    Memory.wf (s.memWrite i v).out = true := Memory.wf_write i v s.out h

theorem State.wf_emit (v : CodePoint) (s : State) (h : Memory.wf s.out = true) :
    Memory.wf (s.emit v).out = true := Memory.wf_write _ v s.out h

theorem State.wf_setOutLen (n : Nat) (s : State) (h : Memory.wf s.out = true) :
    Memory.wf (s.setOutLen n).out = true := Memory.wf_truncate n s.out h

theorem State.wf_drain (g : Nat) (entry : Value → CodePoint) (fuel : Nat) (s : State)
    (h : Memory.wf s.out = true) : Memory.wf (s.drain g entry fuel).out = true := by
  induction fuel generalizing s with
  | zero => exact h
  | succ k ih =>
    unfold State.drain
    split
    · exact ih _ (State.wf_emit _ _ h)
    · exact h

theorem State.wf_resetWith (c : Config) : Memory.wf (State.resetWith c).out = true := rfl

end Sys2Proof.Machine
end

