-- ==== Sys2Proof/Laws/State.lean ====
section
/-! SUPPORT. One lemma per field per state update, so that no proof unfolds a record update. The
updates are the shared operations, the parts of the encoder and decoder commands, and reset. -/

namespace Sys2Proof.Machine

/-! ## MemWrite -/

@[simp] theorem State.memWrite_config (s : State) (i : Nat) (v : CodePoint) : (s.memWrite i v).config = s.config := rfl
@[simp] theorem State.memWrite_mode (s : State) (i : Nat) (v : CodePoint) : (s.memWrite i v).mode = s.mode := rfl
@[simp] theorem State.memWrite_ecode (s : State) (i : Nat) (v : CodePoint) : (s.memWrite i v).ecode = s.ecode := rfl
@[simp] theorem State.memWrite_fcode (s : State) (i : Nat) (v : CodePoint) : (s.memWrite i v).fcode = s.fcode := rfl
@[simp] theorem State.memWrite_acc (s : State) (i : Nat) (v : CodePoint) : (s.memWrite i v).acc = s.acc := rfl
@[simp] theorem State.memWrite_cnt (s : State) (i : Nat) (v : CodePoint) : (s.memWrite i v).cnt = s.cnt := rfl
@[simp] theorem State.memWrite_pad (s : State) (i : Nat) (v : CodePoint) : (s.memWrite i v).pad = s.pad := rfl
@[simp] theorem State.memWrite_nsym (s : State) (i : Nat) (v : CodePoint) : (s.memWrite i v).nsym = s.nsym := rfl
@[simp] theorem State.memWrite_res (s : State) (i : Nat) (v : CodePoint) : (s.memWrite i v).res = s.res := rfl
@[simp] theorem State.memWrite_outLen (s : State) (i : Nat) (v : CodePoint) : (s.memWrite i v).outLen = s.outLen := rfl
@[simp] theorem State.memWrite_out (s : State) (i : Nat) (v : CodePoint) : (s.memWrite i v).out = s.out.write i v := rfl
@[simp] theorem State.memWrite_resetAsserted (s : State) (i : Nat) (v : CodePoint) : (s.memWrite i v).resetAsserted = s.resetAsserted := rfl
@[simp] theorem State.memWrite_inputs (s : State) (i : Nat) (v : CodePoint) : (s.memWrite i v).inputs = s.inputs := rfl
@[simp] theorem State.memWrite_hostData (s : State) (i : Nat) (v : CodePoint) : (s.memWrite i v).hostData = s.hostData := rfl

/-! ## Emit -/

@[simp] theorem State.emit_config (s : State) (v : CodePoint) : (s.emit v).config = s.config := rfl
@[simp] theorem State.emit_mode (s : State) (v : CodePoint) : (s.emit v).mode = s.mode := rfl
@[simp] theorem State.emit_ecode (s : State) (v : CodePoint) : (s.emit v).ecode = s.ecode := rfl
@[simp] theorem State.emit_fcode (s : State) (v : CodePoint) : (s.emit v).fcode = s.fcode := rfl
@[simp] theorem State.emit_acc (s : State) (v : CodePoint) : (s.emit v).acc = s.acc := rfl
@[simp] theorem State.emit_cnt (s : State) (v : CodePoint) : (s.emit v).cnt = s.cnt := rfl
@[simp] theorem State.emit_pad (s : State) (v : CodePoint) : (s.emit v).pad = s.pad := rfl
@[simp] theorem State.emit_nsym (s : State) (v : CodePoint) : (s.emit v).nsym = s.nsym := rfl
@[simp] theorem State.emit_res (s : State) (v : CodePoint) : (s.emit v).res = s.res := rfl
@[simp] theorem State.emit_outLen (s : State) (v : CodePoint) : (s.emit v).outLen = s.outLen + 1 := rfl
@[simp] theorem State.emit_out (s : State) (v : CodePoint) : (s.emit v).out = s.out.write s.outLen.toNat v := rfl
@[simp] theorem State.emit_resetAsserted (s : State) (v : CodePoint) : (s.emit v).resetAsserted = s.resetAsserted := rfl
@[simp] theorem State.emit_inputs (s : State) (v : CodePoint) : (s.emit v).inputs = s.inputs := rfl
@[simp] theorem State.emit_hostData (s : State) (v : CodePoint) : (s.emit v).hostData = s.hostData := rfl

/-! ## OUTLEN <- n -/

@[simp] theorem State.setOutLen_config (s : State) (n : Nat) : (s.setOutLen n).config = s.config := rfl
@[simp] theorem State.setOutLen_mode (s : State) (n : Nat) : (s.setOutLen n).mode = s.mode := rfl
@[simp] theorem State.setOutLen_ecode (s : State) (n : Nat) : (s.setOutLen n).ecode = s.ecode := rfl
@[simp] theorem State.setOutLen_fcode (s : State) (n : Nat) : (s.setOutLen n).fcode = s.fcode := rfl
@[simp] theorem State.setOutLen_acc (s : State) (n : Nat) : (s.setOutLen n).acc = s.acc := rfl
@[simp] theorem State.setOutLen_cnt (s : State) (n : Nat) : (s.setOutLen n).cnt = s.cnt := rfl
@[simp] theorem State.setOutLen_pad (s : State) (n : Nat) : (s.setOutLen n).pad = s.pad := rfl
@[simp] theorem State.setOutLen_nsym (s : State) (n : Nat) : (s.setOutLen n).nsym = s.nsym := rfl
@[simp] theorem State.setOutLen_res (s : State) (n : Nat) : (s.setOutLen n).res = s.res := rfl
@[simp] theorem State.setOutLen_outLen (s : State) (n : Nat) : (s.setOutLen n).outLen = BitVec.ofNat 32 n := rfl
@[simp] theorem State.setOutLen_out (s : State) (n : Nat) : (s.setOutLen n).out = s.out.truncate n := rfl
@[simp] theorem State.setOutLen_resetAsserted (s : State) (n : Nat) : (s.setOutLen n).resetAsserted = s.resetAsserted := rfl
@[simp] theorem State.setOutLen_inputs (s : State) (n : Nat) : (s.setOutLen n).inputs = s.inputs := rfl
@[simp] theorem State.setOutLen_hostData (s : State) (n : Nat) : (s.setOutLen n).hostData = s.hostData := rfl

/-! ## Append -/

@[simp] theorem State.append_config (s : State) (n : Nat) (c : Value) : (s.append n c).config = s.config := rfl
@[simp] theorem State.append_mode (s : State) (n : Nat) (c : Value) : (s.append n c).mode = s.mode := rfl
@[simp] theorem State.append_ecode (s : State) (n : Nat) (c : Value) : (s.append n c).ecode = s.ecode := rfl
@[simp] theorem State.append_fcode (s : State) (n : Nat) (c : Value) : (s.append n c).fcode = s.fcode := rfl
@[simp] theorem State.append_acc (s : State) (n : Nat) (c : Value) : (s.append n c).acc = (s.acc <<< n) ||| c.setWidth 32 := rfl
@[simp] theorem State.append_cnt (s : State) (n : Nat) (c : Value) : (s.append n c).cnt = s.cnt + BitVec.ofNat 6 n := rfl
@[simp] theorem State.append_pad (s : State) (n : Nat) (c : Value) : (s.append n c).pad = s.pad := rfl
@[simp] theorem State.append_nsym (s : State) (n : Nat) (c : Value) : (s.append n c).nsym = s.nsym := rfl
@[simp] theorem State.append_res (s : State) (n : Nat) (c : Value) : (s.append n c).res = s.res := rfl
@[simp] theorem State.append_outLen (s : State) (n : Nat) (c : Value) : (s.append n c).outLen = s.outLen := rfl
@[simp] theorem State.append_out (s : State) (n : Nat) (c : Value) : (s.append n c).out = s.out := rfl
@[simp] theorem State.append_resetAsserted (s : State) (n : Nat) (c : Value) : (s.append n c).resetAsserted = s.resetAsserted := rfl
@[simp] theorem State.append_inputs (s : State) (n : Nat) (c : Value) : (s.append n c).inputs = s.inputs := rfl
@[simp] theorem State.append_hostData (s : State) (n : Nat) (c : Value) : (s.append n c).hostData = s.hostData := rfl

/-! ## Extract -/

@[simp] theorem State.extractRest_config (s : State) (m : Nat) : (s.extractRest m).config = s.config := rfl
@[simp] theorem State.extractRest_mode (s : State) (m : Nat) : (s.extractRest m).mode = s.mode := rfl
@[simp] theorem State.extractRest_ecode (s : State) (m : Nat) : (s.extractRest m).ecode = s.ecode := rfl
@[simp] theorem State.extractRest_fcode (s : State) (m : Nat) : (s.extractRest m).fcode = s.fcode := rfl
@[simp] theorem State.extractRest_acc (s : State) (m : Nat) : (s.extractRest m).acc = s.acc &&& ((1#32 <<< (s.cnt.toNat - m)) - 1) := rfl
@[simp] theorem State.extractRest_cnt (s : State) (m : Nat) : (s.extractRest m).cnt = s.cnt - BitVec.ofNat 6 m := rfl
@[simp] theorem State.extractRest_pad (s : State) (m : Nat) : (s.extractRest m).pad = s.pad := rfl
@[simp] theorem State.extractRest_nsym (s : State) (m : Nat) : (s.extractRest m).nsym = s.nsym := rfl
@[simp] theorem State.extractRest_res (s : State) (m : Nat) : (s.extractRest m).res = s.res := rfl
@[simp] theorem State.extractRest_outLen (s : State) (m : Nat) : (s.extractRest m).outLen = s.outLen := rfl
@[simp] theorem State.extractRest_out (s : State) (m : Nat) : (s.extractRest m).out = s.out := rfl
@[simp] theorem State.extractRest_resetAsserted (s : State) (m : Nat) : (s.extractRest m).resetAsserted = s.resetAsserted := rfl
@[simp] theorem State.extractRest_inputs (s : State) (m : Nat) : (s.extractRest m).inputs = s.inputs := rfl
@[simp] theorem State.extractRest_hostData (s : State) (m : Nat) : (s.extractRest m).hostData = s.hostData := rfl

/-! ## Clear -/

@[simp] theorem State.clear_config (s : State) : s.clear.config = s.config := rfl
@[simp] theorem State.clear_mode (s : State) : s.clear.mode = s.mode := rfl
@[simp] theorem State.clear_ecode (s : State) : s.clear.ecode = s.ecode := rfl
@[simp] theorem State.clear_fcode (s : State) : s.clear.fcode = s.fcode := rfl
@[simp] theorem State.clear_acc (s : State) : s.clear.acc = 0 := rfl
@[simp] theorem State.clear_cnt (s : State) : s.clear.cnt = 0 := rfl
@[simp] theorem State.clear_pad (s : State) : s.clear.pad = s.pad := rfl
@[simp] theorem State.clear_nsym (s : State) : s.clear.nsym = s.nsym := rfl
@[simp] theorem State.clear_res (s : State) : s.clear.res = s.res := rfl
@[simp] theorem State.clear_outLen (s : State) : s.clear.outLen = s.outLen := rfl
@[simp] theorem State.clear_out (s : State) : s.clear.out = s.out := rfl
@[simp] theorem State.clear_resetAsserted (s : State) : s.clear.resetAsserted = s.resetAsserted := rfl
@[simp] theorem State.clear_inputs (s : State) : s.clear.inputs = s.inputs := rfl
@[simp] theorem State.clear_hostData (s : State) : s.clear.hostData = s.hostData := rfl

/-! ## raise Error -/

@[simp] theorem State.raiseError_config (s : State) (e : ResultError) : (s.raiseError e).config = s.config := rfl
@[simp] theorem State.raiseError_mode (s : State) (e : ResultError) : (s.raiseError e).mode = .derr := rfl
@[simp] theorem State.raiseError_ecode (s : State) (e : ResultError) : (s.raiseError e).ecode = some e := rfl
@[simp] theorem State.raiseError_fcode (s : State) (e : ResultError) : (s.raiseError e).fcode = s.fcode := rfl
@[simp] theorem State.raiseError_acc (s : State) (e : ResultError) : (s.raiseError e).acc = 0 := rfl
@[simp] theorem State.raiseError_cnt (s : State) (e : ResultError) : (s.raiseError e).cnt = 0 := rfl
@[simp] theorem State.raiseError_pad (s : State) (e : ResultError) : (s.raiseError e).pad = s.pad := rfl
@[simp] theorem State.raiseError_nsym (s : State) (e : ResultError) : (s.raiseError e).nsym = s.nsym := rfl
@[simp] theorem State.raiseError_res (s : State) (e : ResultError) : (s.raiseError e).res = s.res := rfl
@[simp] theorem State.raiseError_outLen (s : State) (e : ResultError) : (s.raiseError e).outLen = 0 := rfl
@[simp] theorem State.raiseError_out (s : State) (e : ResultError) : (s.raiseError e).out = s.out.truncate 0 := rfl
@[simp] theorem State.raiseError_resetAsserted (s : State) (e : ResultError) : (s.raiseError e).resetAsserted = s.resetAsserted := rfl
@[simp] theorem State.raiseError_inputs (s : State) (e : ResultError) : (s.raiseError e).inputs = s.inputs := rfl
@[simp] theorem State.raiseError_hostData (s : State) (e : ResultError) : (s.raiseError e).hostData = s.hostData := rfl

/-! ## raise Fault -/

@[simp] theorem State.raiseFault_config (s : State) (f : ProtocolFault) : (s.raiseFault f).config = s.config := rfl
@[simp] theorem State.raiseFault_mode (s : State) (f : ProtocolFault) : (s.raiseFault f).mode = .fault := rfl
@[simp] theorem State.raiseFault_ecode (s : State) (f : ProtocolFault) : (s.raiseFault f).ecode = s.ecode := rfl
@[simp] theorem State.raiseFault_fcode (s : State) (f : ProtocolFault) : (s.raiseFault f).fcode = some f := rfl
@[simp] theorem State.raiseFault_acc (s : State) (f : ProtocolFault) : (s.raiseFault f).acc = s.acc := rfl
@[simp] theorem State.raiseFault_cnt (s : State) (f : ProtocolFault) : (s.raiseFault f).cnt = s.cnt := rfl
@[simp] theorem State.raiseFault_pad (s : State) (f : ProtocolFault) : (s.raiseFault f).pad = s.pad := rfl
@[simp] theorem State.raiseFault_nsym (s : State) (f : ProtocolFault) : (s.raiseFault f).nsym = s.nsym := rfl
@[simp] theorem State.raiseFault_res (s : State) (f : ProtocolFault) : (s.raiseFault f).res = s.res := rfl
@[simp] theorem State.raiseFault_outLen (s : State) (f : ProtocolFault) : (s.raiseFault f).outLen = s.outLen := rfl
@[simp] theorem State.raiseFault_out (s : State) (f : ProtocolFault) : (s.raiseFault f).out = s.out := rfl
@[simp] theorem State.raiseFault_resetAsserted (s : State) (f : ProtocolFault) : (s.raiseFault f).resetAsserted = s.resetAsserted := rfl
@[simp] theorem State.raiseFault_inputs (s : State) (f : ProtocolFault) : (s.raiseFault f).inputs = s.inputs := rfl
@[simp] theorem State.raiseFault_hostData (s : State) (f : ProtocolFault) : (s.raiseFault f).hostData = s.hostData := rfl

/-! ## the start of a transaction -/

@[simp] theorem State.openTransaction_config (s : State) : s.openTransaction.config = s.config := rfl
@[simp] theorem State.openTransaction_mode (s : State) : s.openTransaction.mode = s.mode := rfl
@[simp] theorem State.openTransaction_ecode (s : State) : s.openTransaction.ecode = none := rfl
@[simp] theorem State.openTransaction_fcode (s : State) : s.openTransaction.fcode = s.fcode := rfl
@[simp] theorem State.openTransaction_acc (s : State) : s.openTransaction.acc = 0 := rfl
@[simp] theorem State.openTransaction_cnt (s : State) : s.openTransaction.cnt = 0 := rfl
@[simp] theorem State.openTransaction_pad (s : State) : s.openTransaction.pad = 0 := rfl
@[simp] theorem State.openTransaction_nsym (s : State) : s.openTransaction.nsym = 0 := rfl
@[simp] theorem State.openTransaction_res (s : State) : s.openTransaction.res = s.res := rfl
@[simp] theorem State.openTransaction_outLen (s : State) : s.openTransaction.outLen = 0 := rfl
@[simp] theorem State.openTransaction_out (s : State) : s.openTransaction.out = s.out.truncate 0 := rfl
@[simp] theorem State.openTransaction_resetAsserted (s : State) : s.openTransaction.resetAsserted = s.resetAsserted := rfl
@[simp] theorem State.openTransaction_inputs (s : State) : s.openTransaction.inputs = s.inputs := rfl
@[simp] theorem State.openTransaction_hostData (s : State) : s.openTransaction.hostData = s.hostData := rfl

/-! ## reset -/

@[simp] theorem State.resetEngine_config (s : State) : s.resetEngine.config = s.config := rfl
@[simp] theorem State.resetEngine_mode (s : State) : s.resetEngine.mode = .idle := rfl
@[simp] theorem State.resetEngine_ecode (s : State) : s.resetEngine.ecode = none := rfl
@[simp] theorem State.resetEngine_fcode (s : State) : s.resetEngine.fcode = none := rfl
@[simp] theorem State.resetEngine_acc (s : State) : s.resetEngine.acc = 0 := rfl
@[simp] theorem State.resetEngine_cnt (s : State) : s.resetEngine.cnt = 0 := rfl
@[simp] theorem State.resetEngine_pad (s : State) : s.resetEngine.pad = 0 := rfl
@[simp] theorem State.resetEngine_nsym (s : State) : s.resetEngine.nsym = 0 := rfl
@[simp] theorem State.resetEngine_res (s : State) : s.resetEngine.res = 0 := rfl
@[simp] theorem State.resetEngine_outLen (s : State) : s.resetEngine.outLen = 0 := rfl
@[simp] theorem State.resetEngine_out (s : State) : s.resetEngine.out = [] := rfl
@[simp] theorem State.resetEngine_resetAsserted (s : State) : s.resetEngine.resetAsserted = s.resetAsserted := rfl
@[simp] theorem State.resetEngine_inputs (s : State) : s.resetEngine.inputs = s.inputs := rfl
@[simp] theorem State.resetEngine_hostData (s : State) : s.resetEngine.hostData = s.hostData := rfl

/-! ## The emit loop: only ACC, CNT, OUTLEN and OUT can change -/

@[simp] theorem State.drain_config (g : Nat) (entry : Value → CodePoint) (fuel : Nat) (s : State) :
    (s.drain g entry fuel).config = s.config := by
  induction fuel generalizing s with
  | zero => rfl
  | succ k ih => unfold State.drain; split <;> simp [ih]

@[simp] theorem State.drain_mode (g : Nat) (entry : Value → CodePoint) (fuel : Nat) (s : State) :
    (s.drain g entry fuel).mode = s.mode := by
  induction fuel generalizing s with
  | zero => rfl
  | succ k ih => unfold State.drain; split <;> simp [ih]

@[simp] theorem State.drain_ecode (g : Nat) (entry : Value → CodePoint) (fuel : Nat) (s : State) :
    (s.drain g entry fuel).ecode = s.ecode := by
  induction fuel generalizing s with
  | zero => rfl
  | succ k ih => unfold State.drain; split <;> simp [ih]

@[simp] theorem State.drain_fcode (g : Nat) (entry : Value → CodePoint) (fuel : Nat) (s : State) :
    (s.drain g entry fuel).fcode = s.fcode := by
  induction fuel generalizing s with
  | zero => rfl
  | succ k ih => unfold State.drain; split <;> simp [ih]

@[simp] theorem State.drain_pad (g : Nat) (entry : Value → CodePoint) (fuel : Nat) (s : State) :
    (s.drain g entry fuel).pad = s.pad := by
  induction fuel generalizing s with
  | zero => rfl
  | succ k ih => unfold State.drain; split <;> simp [ih]

@[simp] theorem State.drain_nsym (g : Nat) (entry : Value → CodePoint) (fuel : Nat) (s : State) :
    (s.drain g entry fuel).nsym = s.nsym := by
  induction fuel generalizing s with
  | zero => rfl
  | succ k ih => unfold State.drain; split <;> simp [ih]

@[simp] theorem State.drain_res (g : Nat) (entry : Value → CodePoint) (fuel : Nat) (s : State) :
    (s.drain g entry fuel).res = s.res := by
  induction fuel generalizing s with
  | zero => rfl
  | succ k ih => unfold State.drain; split <;> simp [ih]

@[simp] theorem State.drain_resetAsserted (g : Nat) (entry : Value → CodePoint) (fuel : Nat) (s : State) :
    (s.drain g entry fuel).resetAsserted = s.resetAsserted := by
  induction fuel generalizing s with
  | zero => rfl
  | succ k ih => unfold State.drain; split <;> simp [ih]

@[simp] theorem State.drain_inputs (g : Nat) (entry : Value → CodePoint) (fuel : Nat) (s : State) :
    (s.drain g entry fuel).inputs = s.inputs := by
  induction fuel generalizing s with
  | zero => rfl
  | succ k ih => unfold State.drain; split <;> simp [ih]

@[simp] theorem State.drain_hostData (g : Nat) (entry : Value → CodePoint) (fuel : Nat) (s : State) :
    (s.drain g entry fuel).hostData = s.hostData := by
  induction fuel generalizing s with
  | zero => rfl
  | succ k ih => unfold State.drain; split <;> simp [ih]

/-! ## The parts of the encoder and decoder commands -/

@[simp] theorem State.feedByte_config (s : State) (b : Byte) :
    (s.feedByte b).config = s.config := by simp [State.feedByte]

@[simp] theorem State.feedByte_mode (s : State) (b : Byte) :
    (s.feedByte b).mode = s.mode := by simp [State.feedByte]

@[simp] theorem State.feedByte_ecode (s : State) (b : Byte) :
    (s.feedByte b).ecode = s.ecode := by simp [State.feedByte]

@[simp] theorem State.feedByte_fcode (s : State) (b : Byte) :
    (s.feedByte b).fcode = s.fcode := by simp [State.feedByte]

@[simp] theorem State.feedByte_pad (s : State) (b : Byte) :
    (s.feedByte b).pad = s.pad := by simp [State.feedByte]

@[simp] theorem State.feedByte_nsym (s : State) (b : Byte) :
    (s.feedByte b).nsym = s.nsym := by simp [State.feedByte]

@[simp] theorem State.feedByte_res (s : State) (b : Byte) :
    (s.feedByte b).res = s.res := by simp [State.feedByte]

@[simp] theorem State.feedByte_resetAsserted (s : State) (b : Byte) :
    (s.feedByte b).resetAsserted = s.resetAsserted := by simp [State.feedByte]

@[simp] theorem State.feedByte_inputs (s : State) (b : Byte) :
    (s.feedByte b).inputs = s.inputs := by simp [State.feedByte]

@[simp] theorem State.feedByte_hostData (s : State) (b : Byte) :
    (s.feedByte b).hostData = s.hostData := by simp [State.feedByte]

@[simp] theorem State.feedValue_config (s : State) (v : Value) :
    (s.feedValue v).config = s.config := by simp [State.feedValue]

@[simp] theorem State.feedValue_mode (s : State) (v : Value) :
    (s.feedValue v).mode = s.mode := by simp [State.feedValue]

@[simp] theorem State.feedValue_ecode (s : State) (v : Value) :
    (s.feedValue v).ecode = s.ecode := by simp [State.feedValue]

@[simp] theorem State.feedValue_fcode (s : State) (v : Value) :
    (s.feedValue v).fcode = s.fcode := by simp [State.feedValue]

@[simp] theorem State.feedValue_pad (s : State) (v : Value) :
    (s.feedValue v).pad = s.pad := by simp [State.feedValue]

@[simp] theorem State.feedValue_res (s : State) (v : Value) :
    (s.feedValue v).res = s.res := by simp [State.feedValue]

@[simp] theorem State.feedValue_resetAsserted (s : State) (v : Value) :
    (s.feedValue v).resetAsserted = s.resetAsserted := by simp [State.feedValue]

@[simp] theorem State.feedValue_inputs (s : State) (v : Value) :
    (s.feedValue v).inputs = s.inputs := by simp [State.feedValue]

@[simp] theorem State.feedValue_hostData (s : State) (v : Value) :
    (s.feedValue v).hostData = s.hostData := by simp [State.feedValue]

@[simp] theorem State.writeHeader_config (s : State) :
    s.writeHeader.config = s.config := by simp [State.writeHeader]

@[simp] theorem State.writeHeader_mode (s : State) :
    s.writeHeader.mode = s.mode := by simp [State.writeHeader]

@[simp] theorem State.writeHeader_ecode (s : State) :
    s.writeHeader.ecode = s.ecode := by simp [State.writeHeader]

@[simp] theorem State.writeHeader_fcode (s : State) :
    s.writeHeader.fcode = s.fcode := by simp [State.writeHeader]

@[simp] theorem State.writeHeader_acc (s : State) :
    s.writeHeader.acc = s.acc := by simp [State.writeHeader]

@[simp] theorem State.writeHeader_cnt (s : State) :
    s.writeHeader.cnt = s.cnt := by simp [State.writeHeader]

@[simp] theorem State.writeHeader_nsym (s : State) :
    s.writeHeader.nsym = s.nsym := by simp [State.writeHeader]

@[simp] theorem State.writeHeader_res (s : State) :
    s.writeHeader.res = s.res := by simp [State.writeHeader]

@[simp] theorem State.writeHeader_outLen (s : State) :
    s.writeHeader.outLen = s.outLen := by simp [State.writeHeader]

@[simp] theorem State.writeHeader_resetAsserted (s : State) :
    s.writeHeader.resetAsserted = s.resetAsserted := by simp [State.writeHeader]

@[simp] theorem State.writeHeader_inputs (s : State) :
    s.writeHeader.inputs = s.inputs := by simp [State.writeHeader]

@[simp] theorem State.writeHeader_hostData (s : State) :
    s.writeHeader.hostData = s.hostData := by simp [State.writeHeader]

@[simp] theorem State.flushPartial_config (s : State) :
    s.flushPartial.config = s.config := by unfold State.flushPartial; split <;> simp

@[simp] theorem State.flushPartial_mode (s : State) :
    s.flushPartial.mode = s.mode := by unfold State.flushPartial; split <;> simp

@[simp] theorem State.flushPartial_ecode (s : State) :
    s.flushPartial.ecode = s.ecode := by unfold State.flushPartial; split <;> simp

@[simp] theorem State.flushPartial_fcode (s : State) :
    s.flushPartial.fcode = s.fcode := by unfold State.flushPartial; split <;> simp

@[simp] theorem State.flushPartial_pad (s : State) :
    s.flushPartial.pad = s.pad := by unfold State.flushPartial; split <;> simp

@[simp] theorem State.flushPartial_nsym (s : State) :
    s.flushPartial.nsym = s.nsym := by unfold State.flushPartial; split <;> simp

@[simp] theorem State.flushPartial_res (s : State) :
    s.flushPartial.res = s.res := by unfold State.flushPartial; split <;> simp

@[simp] theorem State.flushPartial_resetAsserted (s : State) :
    s.flushPartial.resetAsserted = s.resetAsserted := by unfold State.flushPartial; split <;> simp

@[simp] theorem State.flushPartial_inputs (s : State) :
    s.flushPartial.inputs = s.inputs := by unfold State.flushPartial; split <;> simp

@[simp] theorem State.flushPartial_hostData (s : State) :
    s.flushPartial.hostData = s.hostData := by unfold State.flushPartial; split <;> simp

@[simp] theorem State.stripPadding_config (s : State) :
    s.stripPadding.config = s.config := by unfold State.stripPadding; split <;> simp

@[simp] theorem State.stripPadding_mode (s : State) :
    s.stripPadding.mode = s.mode := by unfold State.stripPadding; split <;> simp

@[simp] theorem State.stripPadding_ecode (s : State) :
    s.stripPadding.ecode = s.ecode := by unfold State.stripPadding; split <;> simp

@[simp] theorem State.stripPadding_fcode (s : State) :
    s.stripPadding.fcode = s.fcode := by unfold State.stripPadding; split <;> simp

@[simp] theorem State.stripPadding_acc (s : State) :
    s.stripPadding.acc = s.acc := by unfold State.stripPadding; split <;> simp

@[simp] theorem State.stripPadding_cnt (s : State) :
    s.stripPadding.cnt = s.cnt := by unfold State.stripPadding; split <;> simp

@[simp] theorem State.stripPadding_pad (s : State) :
    s.stripPadding.pad = s.pad := by unfold State.stripPadding; split <;> simp

@[simp] theorem State.stripPadding_nsym (s : State) :
    s.stripPadding.nsym = s.nsym := by unfold State.stripPadding; split <;> simp

@[simp] theorem State.stripPadding_res (s : State) :
    s.stripPadding.res = s.res := by unfold State.stripPadding; split <;> simp

@[simp] theorem State.stripPadding_resetAsserted (s : State) :
    s.stripPadding.resetAsserted = s.resetAsserted := by unfold State.stripPadding; split <;> simp

@[simp] theorem State.stripPadding_inputs (s : State) :
    s.stripPadding.inputs = s.inputs := by unfold State.stripPadding; split <;> simp

@[simp] theorem State.stripPadding_hostData (s : State) :
    s.stripPadding.hostData = s.hostData := by unfold State.stripPadding; split <;> simp

@[simp] theorem State.finishEncode_config (s : State) :
    s.finishEncode.config = s.config := by simp [State.finishEncode]

@[simp] theorem State.finishEncode_ecode (s : State) :
    s.finishEncode.ecode = s.ecode := by simp [State.finishEncode]

@[simp] theorem State.finishEncode_fcode (s : State) :
    s.finishEncode.fcode = s.fcode := by simp [State.finishEncode]

@[simp] theorem State.finishEncode_nsym (s : State) :
    s.finishEncode.nsym = s.nsym := by simp [State.finishEncode]

@[simp] theorem State.finishEncode_res (s : State) :
    s.finishEncode.res = s.res := by simp [State.finishEncode]

@[simp] theorem State.finishEncode_resetAsserted (s : State) :
    s.finishEncode.resetAsserted = s.resetAsserted := by simp [State.finishEncode]

@[simp] theorem State.finishEncode_inputs (s : State) :
    s.finishEncode.inputs = s.inputs := by simp [State.finishEncode]

@[simp] theorem State.finishEncode_hostData (s : State) :
    s.finishEncode.hostData = s.hostData := by simp [State.finishEncode]

@[simp] theorem State.finishDecode_config (s : State) :
    s.finishDecode.config = s.config := by simp [State.finishDecode]

@[simp] theorem State.finishDecode_ecode (s : State) :
    s.finishDecode.ecode = s.ecode := by simp [State.finishDecode]

@[simp] theorem State.finishDecode_fcode (s : State) :
    s.finishDecode.fcode = s.fcode := by simp [State.finishDecode]

@[simp] theorem State.finishDecode_pad (s : State) :
    s.finishDecode.pad = s.pad := by simp [State.finishDecode]

@[simp] theorem State.finishDecode_nsym (s : State) :
    s.finishDecode.nsym = s.nsym := by simp [State.finishDecode]

@[simp] theorem State.finishDecode_res (s : State) :
    s.finishDecode.res = s.res := by simp [State.finishDecode]

@[simp] theorem State.finishDecode_resetAsserted (s : State) :
    s.finishDecode.resetAsserted = s.resetAsserted := by simp [State.finishDecode]

@[simp] theorem State.finishDecode_inputs (s : State) :
    s.finishDecode.inputs = s.inputs := by simp [State.finishDecode]

@[simp] theorem State.finishDecode_hostData (s : State) :
    s.finishDecode.hostData = s.hostData := by simp [State.finishDecode]

@[simp] theorem State.feedValue_nsym (s : State) (v : Value) :
    (s.feedValue v).nsym = s.nsym + 1 := rfl

/-! ## The rounds of the emit loop -/

/-- The loop stops at once when less than a group is buffered. -/
theorem State.drain_of_lt (g : Nat) (entry : Value → CodePoint) (fuel : Nat) (s : State)
    (h : s.cnt.toNat < g) : s.drain g entry fuel = s := by
  cases fuel with
  | zero => rfl
  | succ k => simp [State.drain, Nat.not_le.mpr h]

/-- The loop emits one group when at least one is buffered. -/
theorem State.drain_of_le (g : Nat) (entry : Value → CodePoint) (fuel : Nat) (s : State)
    (h : g ≤ s.cnt.toNat) : s.drain g entry (fuel + 1) =
      ((s.extractRest g).emit (entry (s.extractValue g))).drain g entry fuel := by
  simp [State.drain, h]

end Sys2Proof.Machine
end

