-- ==== Sys2Proof/Laws/Accumulator.lean ====
section
/-! SUPPORT. What the accumulator primitives do as arithmetic on naturals, under the accumulator's own
invariant (10_state.md R31, R32), and what the emit loop does in one piece. -/

namespace Sys2Proof.Machine

/-- The accumulator's part of `State.Inv`: ACC below 2^CNT, and CNT within the 32 bits that every
ACC_CAP fits. -/
structure State.AccOk (s : State) : Prop where
  lt : s.acc.toNat < 2 ^ s.cnt.toNat
  le : s.cnt.toNat ≤ 32

/-! ## Append -/

/-- A chunk appended below a number of CNT bits gives a number of CNT + N bits. -/
theorem appended_lt (a k n c : Nat) (ha : a < 2 ^ k) (hc : c < 2 ^ n) :
    a * 2 ^ n + c < 2 ^ (k + n) := by
  rw [pow_add]
  calc a * 2 ^ n + c < a * 2 ^ n + 2 ^ n := by omega
    _ = (a + 1) * 2 ^ n := by ring
    _ ≤ 2 ^ k * 2 ^ n := Nat.mul_le_mul_right _ ha

theorem State.append_cnt_toNat (n : Nat) (c : Value) (s : State) (hn : s.cnt.toNat + n ≤ 32) :
    (s.append n c).cnt.toNat = s.cnt.toNat + n := by
  simp only [State.append_cnt, BitVec.toNat_add, BitVec.toNat_ofNat]
  omega

theorem State.append_acc_toNat (n : Nat) (c : Value) (s : State) (h : s.AccOk)
    (hn : s.cnt.toNat + n ≤ 32) (hc : c.toNat < 2 ^ n) :
    (s.append n c).acc.toNat = s.acc.toNat * 2 ^ n + c.toNat := by
  have hpow : 2 ^ (s.cnt.toNat + n) ≤ 2 ^ 32 := Nat.pow_le_pow_right (by omega) hn
  have hfit : s.acc.toNat * 2 ^ n < 2 ^ 32 := by
    have := appended_lt _ _ n 0 h.lt (Nat.two_pow_pos n)
    omega
  have hchunk : c.toNat < 2 ^ 32 := by omega
  simp only [State.append_acc, BitVec.toNat_or, BitVec.toNat_shiftLeft, BitVec.toNat_setWidth]
  rw [Nat.shiftLeft_eq, Nat.mod_eq_of_lt hfit, Nat.mod_eq_of_lt hchunk, ← Nat.shiftLeft_eq,
    ← Nat.shiftLeft_add_eq_or_of_lt hc]

theorem State.AccOk.append {s : State} (h : s.AccOk) (n : Nat) (c : Value)
    (hn : s.cnt.toNat + n ≤ 32) (hc : c.toNat < 2 ^ n) : (s.append n c).AccOk := by
  refine ⟨?_, ?_⟩
  · rw [State.append_acc_toNat n c s h hn hc, State.append_cnt_toNat n c s hn]
    exact appended_lt _ _ _ _ h.lt hc
  · rwa [State.append_cnt_toNat n c s hn]

/-! ## Extract -/

/-- The mask of the low `k` bits. -/
theorem lowMask_toNat (k : Nat) (hk : k ≤ 32) : ((1#32 <<< k) - 1).toNat = 2 ^ k - 1 := by
  interval_cases k <;> rfl

/-- The oldest M bits of a CNT-bit number are an M-bit number. -/
theorem oldest_lt (a k m : Nat) (ha : a < 2 ^ k) (hm : m ≤ k) : a / 2 ^ (k - m) < 2 ^ m := by
  rw [Nat.div_lt_iff_lt_mul (Nat.two_pow_pos _), ← pow_add, show m + (k - m) = k by omega]
  exact ha

theorem State.extractValue_toNat (m : Nat) (s : State) (h : s.AccOk) (hm : m ≤ s.cnt.toNat)
    (h18 : m ≤ 18) : (s.extractValue m).toNat = s.acc.toNat / 2 ^ (s.cnt.toNat - m) := by
  have hpow : 2 ^ m ≤ 2 ^ 18 := Nat.pow_le_pow_right (by omega) h18
  have := oldest_lt _ _ _ h.lt hm
  simp only [State.extractValue, BitVec.toNat_setWidth, BitVec.toNat_ushiftRight,
    Nat.shiftRight_eq_div_pow]
  exact Nat.mod_eq_of_lt (by omega)

theorem State.extractRest_acc_toNat (m : Nat) (s : State) (h : s.AccOk) :
    (s.extractRest m).acc.toNat = s.acc.toNat % 2 ^ (s.cnt.toNat - m) := by
  have := h.le
  rw [State.extractRest_acc, BitVec.toNat_and, lowMask_toNat _ (by omega),
    Nat.and_two_pow_sub_one_eq_mod]

theorem State.extractRest_cnt_toNat (m : Nat) (s : State) (hm : m ≤ s.cnt.toNat) :
    (s.extractRest m).cnt.toNat = s.cnt.toNat - m := by
  simp only [State.extractRest_cnt, BitVec.toNat_sub, BitVec.toNat_ofNat]
  omega

theorem State.AccOk.extractRest {s : State} (h : s.AccOk) (m : Nat) (hm : m ≤ s.cnt.toNat) :
    (s.extractRest m).AccOk := by
  have := h.le
  refine ⟨?_, ?_⟩
  · rw [State.extractRest_acc_toNat m s h, State.extractRest_cnt_toNat m s hm]
    exact Nat.mod_lt _ (Nat.two_pow_pos _)
  · rw [State.extractRest_cnt_toNat m s hm]
    omega

/-! ## Flush and Clear -/

theorem State.flushValue_toNat (g : Nat) (s : State) (h : s.AccOk) (hg : s.cnt.toNat ≤ g)
    (h18 : g ≤ 18) : (s.flushValue g).toNat = s.acc.toNat * 2 ^ (g - s.cnt.toNat) := by
  have hpow : 2 ^ g ≤ 2 ^ 18 := Nat.pow_le_pow_right (by omega) h18
  have := appended_lt _ _ (g - s.cnt.toNat) 0 h.lt (Nat.two_pow_pos _)
  rw [show s.cnt.toNat + (g - s.cnt.toNat) = g by omega] at this
  simp only [State.flushValue, BitVec.toNat_setWidth, BitVec.toNat_shiftLeft, Nat.shiftLeft_eq]
  rw [Nat.mod_eq_of_lt (a := s.acc.toNat * 2 ^ (g - s.cnt.toNat)) (by omega),
    Nat.mod_eq_of_lt (by omega)]

theorem State.AccOk.clear (s : State) : s.clear.AccOk := ⟨by simp, by simp⟩

/-! ## Emit and the emit loop -/

theorem State.emit_outLen_toNat (v : CodePoint) (s : State) (h : s.outLen.toNat + 1 < 2 ^ 32) :
    (s.emit v).outLen.toNat = s.outLen.toNat + 1 := by
  have h1 : (1 : BitVec 32).toNat = 1 := rfl
  simp only [State.emit_outLen, BitVec.toNat_add, h1]
  omega

/-- The entries a list of values makes at consecutive indices. -/
def entriesFrom (k : Nat) (vs : List CodePoint) : Memory := (List.range' k vs.length).zip vs

@[simp] theorem entriesFrom_nil (k : Nat) : entriesFrom k [] = [] := rfl

@[simp] theorem entriesFrom_cons (k : Nat) (v : CodePoint) (vs : List CodePoint) :
    entriesFrom k (v :: vs) = (k, v) :: entriesFrom (k + 1) vs := rfl

@[simp] theorem entriesFrom_keys (k : Nat) (vs : List CodePoint) :
    (entriesFrom k vs).map Prod.fst = List.range' k vs.length := by
  simp [entriesFrom, List.map_fst_zip]

/-- The values the emit loop takes out of a CNT-bit number, oldest group first. -/
def loopValues (g : Nat) : Nat → Nat → Nat → List Nat
  | 0, _, _ => []
  | fuel + 1, a, n =>
    if g ≤ n then a / 2 ^ (n - g) :: loopValues g fuel (a % 2 ^ (n - g)) (n - g) else []

theorem loopValues_length (g : Nat) (hg : 1 ≤ g) (fuel a n : Nat) (hf : n ≤ fuel) :
    (loopValues g fuel a n).length = n / g := by
  induction fuel generalizing a n with
  | zero => simp [loopValues, show n = 0 by omega]
  | succ k ih =>
    unfold loopValues
    split
    · next h =>
      rw [List.length_cons, ih _ _ (by omega), ← Nat.div_eq_sub_div (by omega) h]
    · next h => simp [Nat.div_eq_of_lt (by omega : n < g)]

/-- The emit loop in one piece: CNT div G entries are added at the end of OUT, and the CNT mod G newest
bits stay. -/
theorem State.drain_spec (g : Nat) (entry : Value → CodePoint) (fuel : Nat) (s : State)
    (h : s.AccOk) (hg : 1 ≤ g) (h18 : g ≤ 18) (hf : s.cnt.toNat ≤ fuel)
    (hout : s.outLen.toNat + s.cnt.toNat / g < 2 ^ 32)
    (hkeys : ∀ a ∈ s.out.map Prod.fst, a < s.outLen.toNat) :
    (s.drain g entry fuel).acc.toNat = s.acc.toNat % 2 ^ (s.cnt.toNat % g) ∧
      (s.drain g entry fuel).cnt.toNat = s.cnt.toNat % g ∧
      (s.drain g entry fuel).outLen.toNat = s.outLen.toNat + s.cnt.toNat / g ∧
      (s.drain g entry fuel).out = s.out ++ entriesFrom s.outLen.toNat
        ((loopValues g fuel s.acc.toNat s.cnt.toNat).map (fun v => entry (BitVec.ofNat 18 v))) := by
  induction fuel generalizing s with
  | zero =>
    have h0 : s.cnt.toNat = 0 := by omega
    have ha := h.lt
    simp only [h0, pow_zero, Nat.lt_one_iff] at ha
    simp [State.drain, loopValues, h0, ha]
  | succ k ih =>
    by_cases hle : g ≤ s.cnt.toNat
    · have hdiv : s.cnt.toNat / g = (s.cnt.toNat - g) / g + 1 := Nat.div_eq_sub_div (by omega) hle
      have hmod : s.cnt.toNat % g = (s.cnt.toNat - g) % g := Nat.mod_eq_sub_mod hle
      have hout' : s.outLen.toNat + 1 + (s.cnt.toNat - g) / g < 2 ^ 32 := by
        rw [hdiv] at hout
        omega
      have hcnt := State.extractRest_cnt_toNat g s hle
      have hacc := State.extractRest_acc_toNat g s h
      have hlen : ((s.extractRest g).emit (entry (s.extractValue g))).outLen.toNat =
          s.outLen.toNat + 1 := State.emit_outLen_toNat _ (s.extractRest g)
            (Nat.lt_of_le_of_lt (Nat.le_add_right _ _) hout')
      have hmem : ((s.extractRest g).emit (entry (s.extractValue g))).out =
          s.out ++ [(s.outLen.toNat, entry (s.extractValue g))] := by
        simp only [State.emit_out, State.extractRest_out, State.extractRest_outLen]
        exact Memory.write_at_end _ _ _ hkeys
      have hok := h.extractRest g hle
      have hnext := ih ((s.extractRest g).emit (entry (s.extractValue g))) ⟨hok.lt, hok.le⟩
        (by simp only [State.emit_cnt, hcnt]; omega)
        (by rw [hlen]; simp only [State.emit_cnt, hcnt]; exact hout')
        (by
          rw [hmem, hlen]
          intro a ha
          rcases (by simpa using ha : a ∈ s.out.map Prod.fst ∨ a = s.outLen.toNat) with ha | rfl
          · have := hkeys a ha; omega
          · omega)
      rw [State.drain_of_le g entry k s hle]
      obtain ⟨n1, n2, n3, n4⟩ := hnext
      simp only [State.emit_acc, State.emit_cnt, hcnt, hacc, hlen, hmem] at n1 n2 n3 n4
      refine ⟨?_, by rw [n2, hmod], by rw [n3, hdiv]; omega, ?_⟩
      · rw [n1, hmod, Nat.mod_mod_of_dvd]
        exact pow_dvd_pow 2 (Nat.mod_le _ _)
      · rw [n4, List.append_assoc]
        have hval : BitVec.ofNat 18 (s.acc.toNat / 2 ^ (s.cnt.toNat - g)) = s.extractValue g := by
          rw [← State.extractValue_toNat g s h hle h18]
          simp
        simp [loopValues, hle, hval]
    · have hlt : s.cnt.toNat < g := by omega
      rw [State.drain_of_lt g entry (k + 1) s hlt]
      simp [loopValues, hle, Nat.mod_eq_of_lt hlt, Nat.div_eq_of_lt hlt, Nat.mod_eq_of_lt h.lt]

end Sys2Proof.Machine
end

