-- ==== Sys2Proof/Laws/Checks.lean ====
section
/-! SUPPORT. What the checks at the head of every command can do. -/

namespace Sys2Proof.Machine

/-- In MODE = FAULT the command is ignored. -/
@[simp] theorem unlessFaulted_of_fault (s effect : State) (h : s.mode = .fault) :
    unlessFaulted s effect = .next s := by simp [unlessFaulted, h]

/-- In every other mode the command runs. -/
@[simp] theorem unlessFaulted_of_running (s effect : State) (h : s.mode ≠ .fault) :
    unlessFaulted s effect = .next effect := by simp [unlessFaulted, h]

/-- What a command can answer: the state it met, in MODE = FAULT, or its effect, in another mode. -/
theorem unlessFaulted_cases (s effect t : State) (h : unlessFaulted s effect = .next t) :
    (s.mode = .fault ∧ t = s) ∨ (s.mode ≠ .fault ∧ t = effect) := by
  by_cases hf : s.mode = .fault
  · exact .inl ⟨hf, by simpa [unlessFaulted, hf] using h.symm⟩
  · exact .inr ⟨hf, by simpa [unlessFaulted, hf] using h.symm⟩

/-- A check that fails raises its fault. -/
@[simp] theorem faultIf_of (bad : Prop) [Decidable bad] (f : ProtocolFault) (s effect : State)
    (h : bad) : faultIf bad f s effect = s.raiseFault f := by simp [faultIf, h]

/-- A check that passes lets the command go on. -/
@[simp] theorem faultIf_of_not (bad : Prop) [Decidable bad] (f : ProtocolFault) (s effect : State)
    (h : ¬ bad) : faultIf bad f s effect = effect := by simp [faultIf, h]

/-- A check raises its fault exactly when it fails. -/
theorem faultIf_cases (bad : Prop) [Decidable bad] (f : ProtocolFault) (s effect : State) :
    (bad ∧ faultIf bad f s effect = s.raiseFault f) ∨
      (¬ bad ∧ faultIf bad f s effect = effect) := by
  by_cases h : bad
  · exact .inl ⟨h, faultIf_of bad f s effect h⟩
  · exact .inr ⟨h, faultIf_of_not bad f s effect h⟩

end Sys2Proof.Machine
end

