-- ==== Sys2Proof/Laws/Decode.lean ====
section
/-! SUPPORT. The bits and fields of an assembled word (30_encoding.md R64, R75), and the word that a
legal word's fields assemble to. -/

namespace Sys2Proof

/-- Which field each bit of an assembled word belongs to. -/
theorem getLsbD_cmd32 (opc : BitVec 4) (nm : GroupSize) (data : BitVec 21) (k : Nat) :
    (cmd32 opc nm data).getLsbD k =
      if k < 21 then data.getLsbD k
      else if k < 23 then false
      else if k < 28 then nm.getLsbD (k - 23)
      else opc.getLsbD (k - 28) := by
  have hd : 21 ≤ k → data.getLsbD k = false := BitVec.getLsbD_of_ge data k
  have hn : 28 ≤ k → nm.getLsbD (k - 23) = false := fun h => BitVec.getLsbD_of_ge nm _ (by omega)
  have ho : 32 ≤ k → opc.getLsbD (k - 28) = false := fun h => BitVec.getLsbD_of_ge opc _ (by omega)
  rcases (by omega : k < 21 ∨ (21 ≤ k ∧ k < 23) ∨ (23 ≤ k ∧ k < 28) ∨ (28 ≤ k ∧ k < 32) ∨ 32 ≤ k)
    with h | h | h | h | h
  · simp [cmd32, h, show k < 23 by omega, show k < 28 by omega]; omega
  · simp [cmd32, h, show k < 28 by omega, show ¬ k < 21 by omega]
  · simp [cmd32, show k < 28 by omega, show ¬ k < 21 by omega, show ¬ k < 23 by omega,
      show k < 32 by omega, hd (by omega)]
  · simp [cmd32, show ¬ k < 28 by omega, show ¬ k < 21 by omega, show ¬ k < 23 by omega,
      show k < 32 by omega, hd (by omega), hn h.1]
  · simp [cmd32, show ¬ k < 28 by omega, show ¬ k < 21 by omega, show ¬ k < 23 by omega,
      show ¬ k < 32 by omega, hd (by omega), ho h]

@[simp] theorem opcField_cmd32 (opc : BitVec 4) (nm : GroupSize) (data : BitVec 21) :
    opcField (cmd32 opc nm data) = opc := by
  apply BitVec.eq_of_getLsbD_eq
  intro i hi
  simp [opcField, getLsbD_cmd32, hi, show ¬ 28 + i < 21 by omega, show ¬ 28 + i < 23 by omega,
    show ¬ 28 + i < 28 by omega]

@[simp] theorem nmField_cmd32 (opc : BitVec 4) (nm : GroupSize) (data : BitVec 21) :
    nmField (cmd32 opc nm data) = nm := by
  apply BitVec.eq_of_getLsbD_eq
  intro i hi
  simp [nmField, getLsbD_cmd32, hi, show ¬ 23 + i < 21 by omega, show ¬ 23 + i < 23 by omega,
    show 23 + i < 28 by omega]

@[simp] theorem rsvField_cmd32 (opc : BitVec 4) (nm : GroupSize) (data : BitVec 21) :
    rsvField (cmd32 opc nm data) = 0 := by
  apply BitVec.eq_of_getLsbD_eq
  intro i hi
  simp [rsvField, getLsbD_cmd32, hi, show ¬ 21 + i < 21 by omega, show 21 + i < 23 by omega]

@[simp] theorem dataField_cmd32 (opc : BitVec 4) (nm : GroupSize) (data : BitVec 21) :
    dataField (cmd32 opc nm data) = data := by
  apply BitVec.eq_of_getLsbD_eq
  intro i hi
  simp [dataField, getLsbD_cmd32, hi]

@[simp] theorem chunkField_cmd32 (opc : BitVec 4) (nm : GroupSize) (data : BitVec 21) :
    chunkField (cmd32 opc nm data) = data.setWidth 18 := by
  apply BitVec.eq_of_getLsbD_eq
  intro i hi
  simp [chunkField, getLsbD_cmd32, hi, show i < 21 by omega]

@[simp] theorem byteField_cmd32 (opc : BitVec 4) (nm : GroupSize) (data : BitVec 21) :
    byteField (cmd32 opc nm data) = data.setWidth 8 := by
  apply BitVec.eq_of_getLsbD_eq
  intro i hi
  simp [byteField, getLsbD_cmd32, hi, show i < 21 by omega]

/-- A word with RSV = 0 is assembled from its own fields. -/
theorem cmd32_of_fields (w : Word) (h : rsvField w = 0) :
    cmd32 (opcField w) (nmField w) (dataField w) = w := by
  apply BitVec.eq_of_getLsbD_eq
  intro i hi
  have hr : ∀ j, j < 2 → w.getLsbD (21 + j) = false := fun j hj => by
    simpa [rsvField, hj] using congrArg (fun v => v.getLsbD j) h
  rw [getLsbD_cmd32]
  split
  · simp [dataField, *]
  · split
    · have := hr (i - 21) (by omega)
      rw [show 21 + (i - 21) = i by omega] at this
      simp [this]
    · split
      · simp [nmField, show i - 23 < 5 by omega, show 23 + (i - 23) = i by omega]
      · simp [opcField, show i - 28 < 4 by omega, show 28 + (i - 28) = i by omega]

end Sys2Proof
end

