-- ==== Sys2Proof/Laws/Exec.lean ====
section
/-! SUPPORT. What each meaning can answer, once: outside MODE = FAULT, the checks in their order and
the effect that is left (60_exceptions.md R138). Proofs cite these and never unfold a meaning. -/

namespace Sys2Proof.Machine

/-- In MODE = FAULT every command is ignored (60_exceptions.md R137). -/
theorem exec_of_fault (i : Instr) (s : State) (h : s.mode = .fault) : exec i s = .next s := by
  cases i <;> exact unlessFaulted_of_fault _ _ h

/-- A symbol is the value of a code point of the alphabet, or it is an InvalidSymbol. -/
theorem symbolToValue_cases (c : Config) (cp : CodePoint) :
    (inRange c cp = true ∧ symbolToValue c cp = .ok ((cp - c.cpStart).setWidth 18)) ∨
      (inRange c cp = false ∧ symbolToValue c cp = .error .invalidSymbol) := by
  unfold symbolToValue
  cases h : inRange c cp <;> simp

/-- The value of a code point of the alphabet. -/
theorem symbolValue_toNat (c : Config) (cp : CodePoint) (h : inRange c cp = true) :
    ((cp - c.cpStart).setWidth 18 : Value).toNat = cp.toNat - c.cpStart.toNat := by
  simp only [inRange, decide_eq_true_eq] at h
  simp only [BitVec.toNat_setWidth, BitVec.toNat_sub]
  omega

theorem execAccClr_cases (s t : State) (hs : s.mode ≠ .fault) (h : exec .accClr s = .next t) :
    (¬ s.outsideTransaction ∧ t = s.raiseFault .sequenceFault) ∨
      (s.outsideTransaction ∧ t = s.clear) := by
  simp only [exec, execAccClr, unlessFaulted_of_running _ _ hs, Host.Outcome.next.injEq] at h
  subst h
  rcases faultIf_cases (¬ s.outsideTransaction) .sequenceFault s s.clear with ⟨hm, e⟩ | ⟨hm, e⟩
  · exact .inl ⟨hm, e⟩
  · exact .inr ⟨not_not.mp hm, e⟩

theorem execAccApp_cases (n : GroupSize) (chunk : Value) (s t : State) (hs : s.mode ≠ .fault)
    (h : exec (.accApp n chunk) s = .next t) :
    (¬ s.outsideTransaction ∧ t = s.raiseFault .sequenceFault) ∨
      (s.outsideTransaction ∧ s.config.accCap < s.cnt.toNat + n.toNat ∧
        t = s.raiseFault .accOverflow) ∨
      (s.outsideTransaction ∧ ¬ s.config.accCap < s.cnt.toNat + n.toNat ∧
        t = s.append n.toNat chunk) := by
  simp only [exec, execAccApp, unlessFaulted_of_running _ _ hs, Host.Outcome.next.injEq] at h
  subst h
  by_cases hm : s.outsideTransaction
  · rw [faultIf_of_not _ _ _ _ (not_not.mpr hm)]
    by_cases hc : s.config.accCap < s.cnt.toNat + n.toNat
    · exact .inr (.inl ⟨hm, hc, faultIf_of _ _ _ _ hc⟩)
    · exact .inr (.inr ⟨hm, hc, faultIf_of_not _ _ _ _ hc⟩)
  · exact .inl ⟨hm, faultIf_of _ _ _ _ hm⟩

theorem execAccExt_cases (m : GroupSize) (s t : State) (hs : s.mode ≠ .fault)
    (h : exec (.accExt m) s = .next t) :
    (¬ s.outsideTransaction ∧ t = s.raiseFault .sequenceFault) ∨
      (s.outsideTransaction ∧ s.cnt.toNat < m.toNat ∧ t = s.raiseFault .accUnderflow) ∨
      (s.outsideTransaction ∧ ¬ s.cnt.toNat < m.toNat ∧
        t = { s.extractRest m.toNat with res := s.extractValue m.toNat }) := by
  simp only [exec, execAccExt, unlessFaulted_of_running _ _ hs, Host.Outcome.next.injEq] at h
  subst h
  by_cases hm : s.outsideTransaction
  · rw [faultIf_of_not _ _ _ _ (not_not.mpr hm)]
    by_cases hc : s.cnt.toNat < m.toNat
    · exact .inr (.inl ⟨hm, hc, faultIf_of _ _ _ _ hc⟩)
    · exact .inr (.inr ⟨hm, hc, faultIf_of_not _ _ _ _ hc⟩)
  · exact .inl ⟨hm, faultIf_of _ _ _ _ hm⟩

theorem execEncStart_cases (s t : State) (hs : s.mode ≠ .fault) (h : exec .encStart s = .next t) :
    t = { s.openTransaction with outLen := 1, mode := .enc } := by
  simp only [exec, execEncStart, unlessFaulted_of_running _ _ hs, Host.Outcome.next.injEq] at h
  exact h.symm

theorem execEncByte_cases (b : Byte) (s t : State) (hs : s.mode ≠ .fault)
    (h : exec (.encByte b) s = .next t) :
    (s.mode ≠ .enc ∧ t = s.raiseFault .sequenceFault) ∨
      (s.mode = .enc ∧ s.outOverflows s.encByteEmits ∧ t = s.raiseFault .outOverflow) ∨
      (s.mode = .enc ∧ ¬ s.outOverflows s.encByteEmits ∧ t = s.feedByte b) := by
  simp only [exec, execEncByte, unlessFaulted_of_running _ _ hs, Host.Outcome.next.injEq] at h
  subst h
  by_cases hm : s.mode = .enc
  · rw [faultIf_of_not _ _ _ _ (not_not.mpr hm)]
    by_cases hc : s.outOverflows s.encByteEmits
    · exact .inr (.inl ⟨hm, hc, faultIf_of _ _ _ _ hc⟩)
    · exact .inr (.inr ⟨hm, hc, faultIf_of_not _ _ _ _ hc⟩)
  · exact .inl ⟨hm, faultIf_of _ _ _ _ hm⟩

theorem execEncFinish_cases (s t : State) (hs : s.mode ≠ .fault)
    (h : exec .encFinish s = .next t) :
    (s.mode ≠ .enc ∧ t = s.raiseFault .sequenceFault) ∨
      (s.mode = .enc ∧ s.outOverflows s.encFinishEmits ∧ t = s.raiseFault .outOverflow) ∨
      (s.mode = .enc ∧ ¬ s.outOverflows s.encFinishEmits ∧ t = s.finishEncode) := by
  simp only [exec, execEncFinish, unlessFaulted_of_running _ _ hs, Host.Outcome.next.injEq] at h
  subst h
  by_cases hm : s.mode = .enc
  · rw [faultIf_of_not _ _ _ _ (not_not.mpr hm)]
    by_cases hc : s.outOverflows s.encFinishEmits
    · exact .inr (.inl ⟨hm, hc, faultIf_of _ _ _ _ hc⟩)
    · exact .inr (.inr ⟨hm, hc, faultIf_of_not _ _ _ _ hc⟩)
  · exact .inl ⟨hm, faultIf_of _ _ _ _ hm⟩

theorem execDecStart_cases (s t : State) (hs : s.mode ≠ .fault) (h : exec .decStart s = .next t) :
    t = { s.openTransaction with mode := .decHdr } := by
  simp only [exec, execDecStart, unlessFaulted_of_running _ _ hs, Host.Outcome.next.injEq] at h
  exact h.symm

/-- The header of a decode: two ways to fail and one to be accepted. -/
theorem acceptHeader_cases (cp : CodePoint) (s : State) :
    (inRange s.config cp = false ∧ s.acceptHeader cp = s.raiseError .invalidSymbol) ∨
      (inRange s.config cp = true ∧ 17 < cp.toNat - s.config.cpStart.toNat ∧
        s.acceptHeader cp = s.raiseError .invalidHeader) ∨
      (inRange s.config cp = true ∧ ¬ 17 < cp.toNat - s.config.cpStart.toNat ∧
        s.acceptHeader cp =
          { s with pad := ((cp - s.config.cpStart).setWidth 18 : Value).setWidth 5, nsym := 1,
                   mode := .decPay }) := by
  unfold State.acceptHeader
  rcases symbolToValue_cases s.config cp with ⟨hr, e⟩ | ⟨hr, e⟩
  · simp only [e, symbolValue_toNat _ _ hr, hr]
    by_cases h17 : 17 < cp.toNat - s.config.cpStart.toNat <;> simp [h17]
  · simp [e, hr]

/-- A payload symbol: one way to fail, one to overflow and one to be unpacked. -/
theorem acceptPayload_cases (cp : CodePoint) (s : State) :
    (inRange s.config cp = false ∧ s.acceptPayload cp = s.raiseError .invalidSymbol) ∨
      (inRange s.config cp = true ∧ s.outOverflows s.decSymEmits ∧
        s.acceptPayload cp = s.raiseFault .outOverflow) ∨
      (inRange s.config cp = true ∧ ¬ s.outOverflows s.decSymEmits ∧
        s.acceptPayload cp = s.feedValue ((cp - s.config.cpStart).setWidth 18)) := by
  unfold State.acceptPayload
  rcases symbolToValue_cases s.config cp with ⟨hr, e⟩ | ⟨hr, e⟩
  · simp only [e, hr]
    by_cases ho : s.outOverflows s.decSymEmits
    · exact .inr (.inl ⟨trivial, ho, faultIf_of _ _ _ _ ho⟩)
    · exact .inr (.inr ⟨trivial, ho, faultIf_of_not _ _ _ _ ho⟩)
  · simp [e, hr]

theorem execDecSym_cases (cp : CodePoint) (s t : State) (hs : s.mode ≠ .fault)
    (h : exec (.decSym cp) s = .next t) :
    ((s.mode = .idle ∨ s.mode = .enc ∨ s.mode = .done) ∧ t = s.raiseFault .sequenceFault) ∨
      (s.mode = .derr ∧ t = s) ∨ (s.mode = .decHdr ∧ t = s.acceptHeader cp) ∨
      (s.mode = .decPay ∧ t = s.acceptPayload cp) := by
  simp only [exec, execDecSym, unlessFaulted_of_running _ _ hs, Host.Outcome.next.injEq] at h
  subst h
  cases hm : s.mode <;> simp_all

theorem execDecFinish_cases (s t : State) (hs : s.mode ≠ .fault)
    (h : exec .decFinish s = .next t) :
    ((s.mode = .idle ∨ s.mode = .enc ∨ s.mode = .done) ∧ t = s.raiseFault .sequenceFault) ∨
      (s.mode = .derr ∧ t = s) ∨ (s.mode = .decHdr ∧ t = { s with mode := .done }) ∨
      (s.mode = .decPay ∧ t = s.finishDecode) := by
  simp only [exec, execDecFinish, unlessFaulted_of_running _ _ hs, Host.Outcome.next.injEq] at h
  subst h
  cases hm : s.mode <;> simp_all

end Sys2Proof.Machine
end

