-- ==== Sys2Proof/Laws/PerInstr.lean ====
section
/-! SUPPORT. Facts about a command as syntax, one lemma per constructor. -/

/-- The OPC field of a command's word is its opcode of 30_encoding.md R65. -/
def Sys2Proof.Laws.OpcodeField.Statement (i : Sys2Proof.Instr) : Prop :=
  Sys2Proof.opcField (Sys2Proof.encode i) = i.opcode

namespace Sys2Proof.Laws.OpcodeField

theorem accClr : Statement .accClr := opcField_cmd32 _ _ _
theorem accApp (n : GroupSize) (chunk : Value) : Statement (.accApp n chunk) := opcField_cmd32 _ _ _
theorem accExt (m : GroupSize) : Statement (.accExt m) := opcField_cmd32 _ _ _
theorem encStart : Statement .encStart := opcField_cmd32 _ _ _
theorem encByte (b : Byte) : Statement (.encByte b) := opcField_cmd32 _ _ _
theorem encFinish : Statement .encFinish := opcField_cmd32 _ _ _
theorem decStart : Statement .decStart := opcField_cmd32 _ _ _
theorem decSym (cp : CodePoint) : Statement (.decSym cp) := opcField_cmd32 _ _ _
theorem decFinish : Statement .decFinish := opcField_cmd32 _ _ _

end Sys2Proof.Laws.OpcodeField
end

