-- ==== Sys2Proof/Tests/Slice0.lean ====
section
/-! SUPPORT. The model's own tests: the well-formedness checks, words written out bit by bit from
30_encoding.md R64 and R65, single steps of 95_test_vectors.md, and for every statement with hypotheses
states and operands that meet them. -/

namespace Sys2Proof.Tests
open Sys2Proof Sys2Proof.Machine

/-! ## Well-formedness (30_encoding.md R66) -/

theorem test_wellFormed_refuses_group_size_zero :
    (Instr.accApp 0 0).wellFormed = false ∧ (Instr.accExt 0).wellFormed = false := by decide

theorem test_wellFormed_refuses_group_size_nineteen :
    (Instr.accApp 19 0).wellFormed = false ∧ (Instr.accExt 19).wellFormed = false := by decide

theorem test_wellFormed_refuses_wide_chunk :
    (Instr.accApp 8 0x100).wellFormed = false ∧ (Instr.accApp 17 0x20000).wellFormed = false := by
  decide

theorem test_wellFormed_accepts_the_limits :
    (Instr.accApp 18 0x3FFFF).wellFormed = true ∧ (Instr.accApp 1 1).wellFormed = true ∧
      (Instr.accExt 1).wellFormed = true ∧ (Instr.accExt 18).wellFormed = true := by decide

/-! ## Decoding: OPC, NM, RSV, DATA from the most significant bit (30_encoding.md R64, R65) -/

theorem test_decode_accClr : decode 0b0001_00000_00_000000000000000000000 = .ok .accClr := by decide
theorem test_decode_accApp :
    decode 0b0010_10001_00_000011111111111111111 = .ok (.accApp 17 0x1FFFF) := by decide
theorem test_decode_accExt : decode 0b0011_00100_00_000000000000000000000 = .ok (.accExt 4) := by
  decide
theorem test_decode_encStart : decode 0b0100_00000_00_000000000000000000000 = .ok .encStart := by
  decide
theorem test_decode_encByte :
    decode 0b0101_00000_00_000000000000010101011 = .ok (.encByte 0xAB) := by decide
theorem test_decode_encFinish : decode 0b0110_00000_00_000000000000000000000 = .ok .encFinish := by
  decide
theorem test_decode_decStart : decode 0b1000_00000_00_000000000000000000000 = .ok .decStart := by
  decide
theorem test_decode_decSym :
    decode 0b1001_00000_00_111111111111111111111 = .ok (.decSym 0x1FFFFF) := by decide
theorem test_decode_decFinish : decode 0b1010_00000_00_000000000000000000000 = .ok .decFinish := by
  decide

/-- The illegal words of 95_test_vectors.md section 2.2, with the case of R68 each falls under. -/
theorem test_decode_illegal_words :
    [0x00000000, 0x70000000, 0xB0000000, 0xF0000000].all (decode · == .error .opcode) = true ∧
    [0x30000001, 0x10000001, 0x50000100, 0x90200000, 0x60800000].all
      (decode · == .error .unusedField) = true ∧
    [0x20000000, 0x29800000, 0x30000000, 0x39800000].all (decode · == .error .groupSize) = true ∧
    decode 0x24000100 = .error .chunk := by decide

theorem test_decodeTableWord :
    decodeTableWord 32 0x2881FFFF = some (.accApp 17 0x1FFFF) ∧ decodeTableWord 32 0 = none := by
  decide

/-- The word stored for the next step is the one the step runs, right after reset. -/
theorem test_withFetchWord_runs_first (w : Nat) :
    step (State.reset.withFetchWord 32 w) = executeWord (tableWord 32 w) State.reset := rfl

/-! ## Single steps (95_test_vectors.md) -/

/-- The state a step leads to, if it does. -/
def nextOf : StepOutcome → Option State
  | .next s => some s
  | .fault _ => none
  | .refused _ => none

/-- The state after a word, at the parameters of the vectors. -/
def after (w : Word) (s : State) : Option State := nextOf (executeWord w s)

/-- After reset, with bits in the accumulator. -/
def buffered (acc : BitVec 32) (cnt : BitVec 6) : State := { State.reset with acc := acc, cnt := cnt }

/-- An open encode. -/
def encoding (acc : BitVec 32) (cnt : BitVec 6) (outLen : BitVec 32) (out : Memory) : State :=
  { buffered acc cnt with mode := .enc, outLen := outLen, out := out }

/-- An open decode behind its header. -/
def decoding (acc : BitVec 32) (cnt : BitVec 6) (pad : BitVec 5) (nsym outLen : BitVec 32)
    (out : Memory) : State :=
  { buffered acc cnt with mode := .decPay, pad := pad, nsym := nsym, outLen := outLen, out := out }

/-- The same engine built with another OUT_CAP. -/
def withCap (cap : Nat) (s : State) : State := { s with config := { s.config with outCap := cap } }

/-- R-16. -/
theorem test_accClr : after 0x10000000 (buffered 0x1234 16) = some (buffered 0 0) := by decide

/-- R-17. -/
theorem test_accClr_in_enc :
    (after 0x10000000 (encoding 0 0 1 [])).map State.statusWord = some 0x207 := by decide

/-- R-8. -/
theorem test_accApp_up_to_capacity :
    after 0x2903FFFF (buffered 0x7F 7) = some (buffered 0x1FFFFFF 25) := by decide

/-- R-9. -/
theorem test_accApp_overflow :
    after 0x29000000 (buffered 0xA5 8) =
      some { buffered 0xA5 8 with mode := .fault, fcode := some .accOverflow } := by decide

/-- R-5. -/
theorem test_accExt :
    after 0x34000000 (buffered 0x2AF34 18) = some { buffered 0x334 10 with res := 0xAB } := by decide

/-- R-7. -/
theorem test_accExt_underflow :
    (after 0x34000000 (buffered 0 2)).map State.statusWord = some 0x407 := by decide

/-- 42_encoder.md R106, its example. -/
theorem test_encStart :
    after 0x40000000 { State.reset with
      mode := .done, pad := 12, outLen := 3,
      out := [(0, 0x2000C), (1, 0x20408), (2, 0x23000)] } = some (encoding 0 0 1 []) := by decide

/-- EB3. -/
theorem test_encByte_emits :
    after 0x500000CD (encoding 0x2B 10 1 []) = some (encoding 0 0 2 [(1, 0x22BCD)]) := by decide

/-- EX4. -/
theorem test_encByte_overflow :
    (after 0x500000CD (withCap 1 (encoding 0x2B 10 1 []))).map
      (fun s => (s.statusWord, s.acc, s.cnt)) = some (0x507, 0x2B, 10) := by decide

/-- EF2, as in P3. -/
theorem test_encFinish :
    after 0x60000000 (encoding 3 6 2 [(1, 0x20408)]) =
      some { State.reset with
        mode := .done, pad := 12, outLen := 3,
        out := [(0, 0x2000C), (1, 0x20408), (2, 0x23000)] } := by decide

/-- EF1. -/
theorem test_encFinish_of_nothing :
    after 0x60000000 (encoding 0 0 1 []) =
      some { State.reset with mode := .done, outLen := 1, out := [(0, 0x20000)] } := by decide

/-- 43_decoder.md R120, its example. -/
theorem test_decStart :
    after 0x80000000 { State.reset with mode := .derr, ecode := some .invalidHeader } =
      some { State.reset with mode := .decHdr } := by decide

/-- DS4. -/
theorem test_decSym_emits_three_bytes :
    after 0x9005FFFF (decoding 0x2A 6 0 4 6 [(0, 1), (1, 2), (2, 3), (3, 4), (4, 5), (5, 6)]) =
      some (decoding 0 0 0 5 9 [(0, 1), (1, 2), (2, 3), (3, 4), (4, 5), (5, 6), (6, 0xAB), (7, 0xFF),
        (8, 0xFF)]) := by decide

/-- DH1 and DH2: a header of 10, and one of 18. -/
theorem test_decSym_header :
    after 0x9002000A { State.reset with mode := .decHdr } = some (decoding 0 0 10 1 0 []) ∧
    (after 0x90020012 { State.reset with mode := .decHdr }).map State.statusWord = some 0x25 := by
  decide

/-- DF4, as in P3. -/
theorem test_decFinish :
    after 0xA0000000 (decoding 0 4 12 3 4 [(0, 1), (1, 2), (2, 3), (3, 0)]) =
      some { State.reset with
        mode := .done, pad := 12, nsym := 3, outLen := 3,
        out := [(0, 1), (1, 2), (2, 3)] } := by decide

/-- DH6. -/
theorem test_decFinish_in_done :
    (after 0xA0000000 { State.reset with mode := .done }).map State.statusWord = some 0x207 := by
  decide

/-- F1 and F7: IllegalCommand from reset, and in DERR with ECODE kept. -/
theorem test_illegal_word :
    (after 0 State.reset).map State.statusWord = some 0x107 ∧
    (after 0x29800000 { State.reset with mode := .derr, ecode := some .invalidHeader }).map
      State.statusWord = some 0x127 := by decide

/-- F5. -/
theorem test_fault_ignores_encStart :
    after 0x40000000 ((buffered 3 6).raiseFault .accUnderflow) =
      some ((buffered 3 6).raiseFault .accUnderflow) := by decide

/-! ## The source's worked examples, on the pure functions (W1, W2, W3) -/

theorem test_encode_examples :
    Codec.encode Config.reference [0xFF] = [0x2000A, 0x5FC00] ∧
    Codec.encode Config.reference [1, 2, 3] = [0x2000C, 0x20408, 0x23000] ∧
    Codec.encode Config.reference [] = [0x20000] := by decide

theorem test_decode_examples :
    Codec.decode Config.reference [0x2000A, 0x5FC00] = .ok [0xFF] ∧
    Codec.decode Config.reference [0x2000C, 0x20408, 0x23000] = .ok [1, 2, 3] ∧
    Codec.decode Config.reference [] = .ok [] := by decide

/-! ## States that meet the invariant, one or more in each mode -/

/-- CNT = 10 behind three full groups. -/
def encTen : State := encoding 0x2B 10 4 [(1, 0x20000), (2, 0x20001), (3, 0x5FFFF)]

/-- CNT = 6 behind three payload symbols. -/
def decSix : State := decoding 0x2A 6 17 4 6 [(0, 1), (1, 2), (2, 3), (3, 4), (4, 5), (5, 6)]

/-- A finished encode of nothing. -/
def doneEmpty : State := { State.reset with mode := .done, outLen := 1, out := [(0, 0x20000)] }

/-- A failed decode. -/
def failed : State := { State.reset with mode := .derr, ecode := some .invalidHeader }

/-- A decode before its header. -/
def waiting : State := { State.reset with mode := .decHdr }

/-- A stopped engine. -/
def stopped : State := encTen.raiseFault .outOverflow

theorem inv_buffered_full : (buffered 0x1FFFFFF 25).Inv := by constructor <;> decide
theorem inv_buffered_seven : (buffered 0x7F 7).Inv := by constructor <;> decide
theorem inv_buffered_eight : (buffered 0xA5 8).Inv := by constructor <;> decide
theorem inv_buffered_one : (buffered 1 1).Inv := by constructor <;> decide
theorem inv_buffered_seventeen : (buffered 0x1FFFF 17).Inv := by constructor <;> decide
theorem inv_buffered_eighteen : (buffered 0x3FFFF 18).Inv := by constructor <;> decide
theorem inv_reset : State.reset.Inv := by constructor <;> decide
theorem inv_enc_empty : (encoding 0 0 1 []).Inv := by constructor <;> decide
theorem inv_enc_eight : (encoding 0xA5 8 1 []).Inv := by constructor <;> decide
theorem inv_encTen : encTen.Inv := by constructor <;> decide
theorem inv_encTen_roomy : (withCap 5 encTen).Inv := by constructor <;> decide
theorem inv_encTen_full : (withCap 4 encTen).Inv := by constructor <;> decide
theorem inv_waiting : waiting.Inv := by constructor <;> decide
theorem inv_header_only : (decoding 0 0 17 1 0 []).Inv := by constructor <;> decide
theorem inv_decSix : decSix.Inv := by constructor <;> decide
theorem inv_decSix_roomy : (withCap 9 decSix).Inv := by constructor <;> decide
theorem inv_decSix_full : (withCap 8 decSix).Inv := by constructor <;> decide
theorem inv_decFour : (decoding 0 4 0 3 4 [(0, 1), (1, 2), (2, 3), (3, 0)]).Inv := by
  constructor <;> decide
theorem inv_doneEmpty : doneEmpty.Inv := by constructor <;> decide
theorem inv_failed : failed.Inv := by constructor <;> decide
theorem inv_stopped : stopped.Inv := by constructor <;> decide

/-! ## The statements' hypotheses are met: encoding -/

theorem witness_DecodeOfEncodeIsIdentity :
    (Instr.accApp 18 0x3FFFF).WellFormed ∧ (Instr.accExt 18).WellFormed ∧
      (Instr.decSym 0x1FFFFF).WellFormed := by decide

theorem witness_EncodeOfDecodeIsIdentity : decode 0x2903FFFF = .ok (.accApp 18 0x3FFFF) := by decide

theorem witness_DecodeAcceptsExactlyLegalWords :
    (⟨0x20000000, 0xF07C0000, .sizeAndChunk⟩ ∈ opcodeRows) ∧
    (0x29800000 : Word) &&& 0xF07C0000 = 0x20000000 ∧ (0x39000000 : Word) &&& 0xF07FFFFF = 0x30000000 ∧
    (0x10000000 : Word) ∈ ([0x10000000, 0x40000000, 0x60000000, 0x80000000, 0xA0000000] : List Word) ∧
    (0x500000FF : Word) &&& 0xFFFFFF00 = 0x50000000 ∧ (0x901FFFFF : Word) &&& 0xFFE00000 = 0x90000000 ∧
    (∀ r ∈ opcodeRows, (0xB0000000 : Word) &&& r.mask ≠ r.matchBits) := by decide

theorem witness_IllegalWordsRaiseIllegalCommand :
    (legal 0x70000000 = false ∧ legal 0x50000100 = false ∧ legal 0x39800000 = false ∧
      legal 0x24000100 = false) ∧ State.reset.mode ≠ .fault := by decide

theorem witness_ExecuteDispatchesByOpcode :
    stopped.mode = .fault ∧ State.reset.mode ≠ .fault ∧ legal 0x24000100 = false ∧
    (legal 0x10000000 = true ∧ opcField 0x10000000 = 0x1) ∧
    (legal 0x2903FFFF = true ∧ opcField 0x2903FFFF = 0x2) ∧
    (legal 0x39000000 = true ∧ opcField 0x39000000 = 0x3) ∧
    (legal 0x40000000 = true ∧ opcField 0x40000000 = 0x4) ∧
    (legal 0x500000FF = true ∧ opcField 0x500000FF = 0x5) ∧
    (legal 0x60000000 = true ∧ opcField 0x60000000 = 0x6) ∧
    (legal 0x80000000 = true ∧ opcField 0x80000000 = 0x8) ∧
    (legal 0x901FFFFF = true ∧ opcField 0x901FFFFF = 0x9) ∧
    (legal 0xA0000000 = true ∧ opcField 0xA0000000 = 0xA) := by decide

theorem witness_StepRunsTheDecodedCommand :
    (State.reset.withFetchWord 32 0x40000000).inputs = [.command 0x40000000] ∧
    (State.reset.withFetchWord 32 0x40000000).resetAsserted = false ∧
    decode 0x40000000 = .ok .encStart ∧
    (State.reset.issue (.readRegister 0)).inputs = [.readRegister 0] := by decide

/-- Every form of line with an operand, at a limit of its range; the words are those of 30_encoding.md R64,
with CP_START = 0x20000. -/
theorem witness_AssembledLinesDecode :
    Config.reference.wf ∧
    (AsmLine.accApp 18 0x3FFFF).assemble Config.reference = some 0x2903FFFF ∧
    (AsmLine.accExt 18).assemble Config.reference = some 0x39000000 ∧
    (AsmLine.encByte 255).assemble Config.reference = some 0x500000FF ∧
    (AsmLine.decSym 0x1FFFFF).assemble Config.reference = some 0x901FFFFF ∧
    (AsmLine.decSymOf 262143).assemble Config.reference = some 0x9005FFFF ∧
    AsmLine.decFinish.assemble Config.reference = some 0xA0000000 ∧
    (AsmLine.accApp 8 0x100).assemble Config.reference = none ∧
    (AsmLine.decSymOf 262144).assemble Config.reference = none ∧ 262143 ≤ 262143 := by decide

/-! ## Alphabet, reset and the host -/

theorem witness_AlphabetMappingIsBijection :
    Config.reference.wf ∧ inRange Config.reference 0x20000 = true ∧
    inRange Config.reference 0x5FFFF = true ∧ inRange Config.reference 0x1FFFF = false ∧
    inRange Config.reference 0x60000 = false := by decide

theorem witness_ResetInputLeadsToResetState :
    { stopped with resetAsserted := true }.resetAsserted = true ∧
    stopped.mode = .fault ∧
    (nextOf (acceptInput .assertReset stopped)).map State.mode = some .idle ∧
    (nextOf (acceptInput .releaseReset { stopped with resetAsserted := true })).map State.mode =
      some .idle := by decide

theorem witness_ResetStatesSatisfyInv :
    Config.wf { cpStart := 0xE000, accCap := 32, outCap := 1 } ∧
    Config.wf { cpStart := 0xD0000, accCap := 25, outCap := 2 ^ 32 - 1 } := by decide

theorem witness_EveryStepKeepsInv :
    (State.reset.withFetchWord 32 0x40000000).Inv ∧
    nextOf (step (State.reset.withFetchWord 32 0x40000000)) = some (encoding 0 0 1 []) :=
  ⟨by constructor <;> decide, by decide⟩

theorem witness_OutReadPortReturnsDefinedEntries :
    doneEmpty.Inv ∧ (doneEmpty.mode = .done ∧ (0 : Word).toNat < doneEmpty.outLen.toNat) ∧
    ¬ (doneEmpty.mode = .done ∧ (1 : Word).toNat < doneEmpty.outLen.toNat) ∧
    encTen.Inv ∧ ¬ (encTen.mode = .done ∧ (1 : Word).toNat < encTen.outLen.toNat) :=
  ⟨inv_doneEmpty, by decide, by decide, inv_encTen, by decide⟩

theorem witness_EngineHoldsStateWithoutInput : State.reset.inputs = [] := by decide

theorem witness_IssuedCommandsRunInOrder :
    (∀ i ∈ [Instr.encStart, .encByte 0xFF], i.WellFormed) ∧ State.reset.resetAsserted = false ∧
    ((State.reset.issue (.command 0x40000000)).issue (.command 0x500000FF)).inputs =
      [Instr.encStart, .encByte 0xFF].map (fun i => .command (encode i)) ++ [] := by decide

/-! ## Registers -/

theorem witness_EcodeWrittenOnlyByErrorsAndStarts :
    failed.mode ≠ .fault ∧ (nextOf (exec .encStart failed)).isSome = true ∧
    (nextOf (exec .decStart failed)).isSome = true ∧
    (nextOf (executeWord 0x90020012 waiting)).isSome = true := by decide

theorem witness_FcodeWrittenOnlyByFaultsAndReset :
    (nextOf (executeWord 0 State.reset)).isSome = true ∧
    (nextOf (acceptInput (.command 0) State.reset)).map State.fcode = some (some .illegalCommand) ∧
    (nextOf (acceptInput .assertReset stopped)).map State.fcode = some none ∧
    stopped.fcode ≠ none := by decide

theorem witness_PadWrittenByFinishHeaderAndStarts :
    (encTen.Inv ∧ encTen.mode ≠ .fault ∧
      (nextOf (exec .encFinish encTen)).map State.mode = some .done ∧
      (nextOf (exec .encStart encTen)).isSome = true ∧
      (nextOf (exec .decStart encTen)).isSome = true) ∧
    (waiting.Inv ∧ waiting.mode = .decHdr ∧
      (nextOf (exec (.decSym 0x20011) waiting)).map State.mode = some .decPay) ∧
    (decSix.Inv ∧ (nextOf (exec .decFinish decSix)).map State.mode = some .done) :=
  ⟨⟨inv_encTen, by decide, by decide, by decide, by decide⟩, ⟨inv_waiting, by decide, by decide⟩,
    inv_decSix, by decide⟩

theorem witness_NsymCountsAcceptedSymbols :
    (waiting.Inv ∧ waiting.mode ≠ .fault ∧
      (nextOf (exec .encStart waiting)).isSome = true ∧ (nextOf (exec .decStart waiting)).isSome = true ∧
      (nextOf (exec (.decSym 0x20000) waiting)).map State.mode = some .decPay ∧
      (nextOf (exec (.decSym 0x20012) waiting)).map State.mode = some .derr) ∧
    (decSix.Inv ∧ (nextOf (exec (.decSym 0x5FFFF) decSix)).map State.mode = some .decPay ∧
      (nextOf (exec .decFinish decSix)).isSome = true) :=
  ⟨⟨inv_waiting, by decide⟩, inv_decSix, by decide⟩

theorem witness_ResWrittenOnlyByAccExt :
    (nextOf (exec .accClr State.reset)).isSome = true ∧ (∀ m, Instr.accClr ≠ .accExt m) ∧
    (buffered 0x3FFFF 18).outsideTransaction ∧ (18 : GroupSize).toNat ≤ (buffered 0x3FFFF 18).cnt.toNat ∧
    decode 0 = .error .opcode ∧ (nextOf (executeWord 0 State.reset)).isSome = true :=
  ⟨by decide, by simp, by decide, by decide, by decide, by decide⟩

theorem witness_CpstartNeverChanges : (nextOf (step State.reset)).isSome = true := by decide

/-- Every command answers a next state in every mode. -/
theorem witness_ModeTransitionsFollowTheTable :
    ∀ i ∈ [Instr.accClr, .accApp 1 1, .accExt 1, .encStart, .encByte 0, .encFinish, .decStart,
        .decSym 0x20000, .decFinish],
      ∀ m ∈ [Mode.idle, .enc, .decHdr, .decPay, .done, .derr, .fault],
        (nextOf (exec i { State.reset with mode := m })).isSome = true := by decide

theorem witness_OutEntriesDefinedBelowOutlen :
    (encTen.Inv ∧ encTen.mode = .enc ∧ encTen.outLen.toNat ≤ 4 ∧ 3 < encTen.outLen.toNat) ∧
    (stopped.Inv ∧ 1 < stopped.outLen.toNat) ∧
    (doneEmpty.Inv ∧ 0 < doneEmpty.outLen.toNat ∧ doneEmpty.mode ≠ .enc ∧ doneEmpty.mode ≠ .fault) :=
  ⟨⟨inv_encTen, by decide⟩, ⟨inv_stopped, by decide⟩, inv_doneEmpty, by decide⟩

/-! ## Errors and faults -/

theorem witness_FaultingCommandChangesOnlyFcodeAndMode :
    (nextOf (executeWord 0x24000000 encTen)).map State.mode = some .fault ∧ encTen.mode ≠ .fault := by
  decide

theorem witness_FaultIsStickyUntilReset :
    stopped.mode = .fault ∧
    (nextOf (acceptInput (.command 0x40000000) stopped)).map State.mode = some .fault ∧
    (nextOf (acceptInput .assertReset stopped)).map State.mode = some .idle := by decide

theorem witness_ChecksRunInOrder :
    stopped.mode = .fault ∧ decode 0x3F000000 = .error .groupSize ∧
    (decode 0x10000000 = .ok .accClr ∧ ¬ encTen.outsideTransaction) ∧
    (decode 0x29000000 = .ok (.accApp 18 0) ∧ ¬ encTen.outsideTransaction ∧
      (buffered 0xA5 8).outsideTransaction ∧ (buffered 0xA5 8).config.accCap < 8 + 18) ∧
    (decode 0x34000000 = .ok (.accExt 8) ∧ ¬ encTen.outsideTransaction ∧
      (buffered 0x7F 7).outsideTransaction ∧ (buffered 0x7F 7).cnt.toNat < 8) ∧
    (decode 0x500000CD = .ok (.encByte 0xCD) ∧ State.reset.mode ≠ .enc ∧ encTen.mode = .enc ∧
      (withCap 4 encTen).config.outCap < (withCap 4 encTen).outLen.toNat + 1) ∧
    (decode 0x60000000 = .ok .encFinish ∧ doneEmpty.mode ≠ .enc ∧ (18 - encTen.cnt.toNat) % 18 = 8) ∧
    (decode 0x90060000 = .ok (.decSym 0x60000) ∧ State.reset.mode = .idle ∧ failed.mode = .derr ∧
      decSix.mode = .decPay ∧ inRange decSix.config 0x60000 = false) ∧
    (decode 0x90020012 = .ok (.decSym 0x20012) ∧ waiting.mode = .decHdr ∧
      inRange waiting.config 0x20012 = true ∧
      17 < (0x20012 : CodePoint).toNat - waiting.config.cpStart.toNat ∧
      (withCap 8 decSix).config.outCap < (withCap 8 decSix).outLen.toNat + (decSix.cnt.toNat + 18) / 8) ∧
    (decode 0xA0000000 = .ok .decFinish ∧ doneEmpty.mode = .done ∧ failed.mode = .derr) ∧
    (nextOf (executeWord 0x90060000 decSix)).map State.mode = some .derr := by decide

theorem witness_ResultErrorsOnlyFromDecSym :
    (waiting.mode = .decHdr ∧ inRange waiting.config 0x1FFFF = false) ∧
    (inRange waiting.config 0x20012 = true ∧
      17 < (0x20012 : CodePoint).toNat - waiting.config.cpStart.toNat) ∧
    (decSix.mode = .decPay ∧ (nextOf (exec (.decSym 0x60000) decSix)).map State.mode = some .derr) ∧
    waiting.Inv := ⟨by decide, by decide, by decide, inv_waiting⟩

/-! ## Accumulator -/

theorem witness_AppendAddsNewestBits :
    (buffered 0x7F 7).Inv ∧ (0x3FFFF : Value).toNat < 2 ^ 18 ∧
    (buffered 0x7F 7).cnt.toNat + 18 ≤ (buffered 0x7F 7).config.accCap ∧
    State.reset.Inv ∧ (1 : Value).toNat < 2 ^ 1 ∧ State.reset.cnt.toNat + 1 ≤ State.reset.config.accCap :=
  ⟨inv_buffered_seven, by decide, by decide, inv_reset, by decide, by decide⟩

theorem witness_ExtractTakesOldestBits :
    ((buffered 0x3FFFF 18).Inv ∧ 18 ≤ (buffered 0x3FFFF 18).cnt.toNat) ∧
    (buffered 0x1FFFFFF 25).Inv ∧ 1 ≤ (buffered 0x1FFFFFF 25).cnt.toNat :=
  ⟨⟨inv_buffered_eighteen, by decide⟩, inv_buffered_full, by decide⟩

theorem witness_FlushZeroFillsTheLowEnd :
    ((buffered 0x1FFFF 17).Inv ∧ 0 < (buffered 0x1FFFF 17).cnt.toNat ∧
      (buffered 0x1FFFF 17).cnt.toNat < 18) ∧
    (buffered 1 1).Inv ∧ 0 < (buffered 1 1).cnt.toNat ∧ (buffered 1 1).cnt.toNat < 2 :=
  ⟨⟨inv_buffered_seventeen, by decide⟩, inv_buffered_one, by decide⟩

theorem witness_AccumulatorIsFifo :
    (buffered 0x7F 7).Inv ∧
    AccCall.allPre (buffered 0x7F 7) [.append 18 0x3FFFF, .extract 18, .extract 7, .append 1 1] := by
  refine ⟨inv_buffered_seven, ?_⟩
  simp only [AccCall.allPre]
  decide

theorem witness_AccClrEmptiesTheAccumulator :
    (buffered 0x7F 7).outsideTransaction ∧ doneEmpty.outsideTransaction ∧
      failed.outsideTransaction := by decide

theorem witness_AccAppAppendsOrOverflows :
    ((buffered 0xA5 8).Inv ∧ (Instr.accApp 17 0x1FFFF).WellFormed ∧
      (buffered 0xA5 8).outsideTransaction ∧ (buffered 0xA5 8).cnt.toNat + 17 ≤ 25) ∧
    ((Instr.accApp 18 0).WellFormed ∧
      (buffered 0xA5 8).config.accCap < (buffered 0xA5 8).cnt.toNat + 18) :=
  ⟨⟨inv_buffered_eight, by decide⟩, by decide⟩

theorem witness_AccExtExtractsOrUnderflows :
    ((buffered 0xA5 8).Inv ∧ (Instr.accExt 8).WellFormed ∧ (buffered 0xA5 8).outsideTransaction ∧
      8 ≤ (buffered 0xA5 8).cnt.toNat) ∧
    ((Instr.accExt 9).WellFormed ∧ (buffered 0xA5 8).cnt.toNat < 9) :=
  ⟨⟨inv_buffered_eight, by decide⟩, by decide⟩

theorem witness_RawCommandsRunOnlyOutsideTransactions :
    encTen.mode = .enc ∧ waiting.mode = .decHdr ∧ decSix.mode = .decPay ∧
    (nextOf (exec (.accExt 1) failed)).isSome = true ∧ failed.outsideTransaction := by decide

theorem witness_RawCommandsReplayTheEncoder :
    State.reset.Inv ∧ State.reset.outsideTransaction ∧ State.reset.cnt = 0 ∧
    (encoding 0 0 1 []).Inv ∧ (encoding 0 0 1 []).mode = .enc ∧ (encoding 0 0 1 []).cnt = 0 ∧
    (nextOf (execAll [.encByte 0xAB, .encByte 0xCD] (encoding 0 0 1 []))).map
      (fun u => decide (u.outLen.toNat < u.config.outCap)) = some true :=
  ⟨inv_reset, by decide, by decide, inv_enc_empty, by decide, by decide, by decide⟩

/-! ## Encoder -/

theorem witness_EncStartOpensAnEncode : State.reset.mode ≠ .fault ∧ decSix.mode ≠ .fault := by decide

theorem witness_EncByteAppendsAndEmits :
    ((encoding 0xA5 8 1 []).Inv ∧ (encoding 0xA5 8 1 []).mode = .enc ∧
      (encoding 0xA5 8 1 []).cnt.toNat < 10) ∧
    ((withCap 5 encTen).Inv ∧ (withCap 5 encTen).mode = .enc ∧ 10 ≤ (withCap 5 encTen).cnt.toNat ∧
      (withCap 5 encTen).outLen.toNat < (withCap 5 encTen).config.outCap) ∧
    ((withCap 4 encTen).Inv ∧
      (withCap 4 encTen).config.outCap ≤ (withCap 4 encTen).outLen.toNat) :=
  ⟨⟨inv_enc_eight, by decide⟩, ⟨inv_encTen_roomy, by decide⟩, inv_encTen_full, by decide⟩

theorem witness_EncCntCountsTheBytes :
    State.reset.Inv ∧ State.reset.mode ≠ .fault ∧
    1 + 8 * (List.replicate 35 (0 : Byte)).length / 18 ≤ State.reset.config.outCap :=
  ⟨inv_reset, by decide, by decide⟩

theorem witness_EncFinishWritesHeaderAndFlushes :
    ((encoding 0 0 1 []).Inv ∧ (encoding 0 0 1 []).mode = .enc ∧
      (encoding 0 0 1 []).cnt.toNat = 0) ∧
    ((withCap 5 encTen).Inv ∧ (withCap 5 encTen).mode = .enc ∧ 0 < (withCap 5 encTen).cnt.toNat ∧
      (withCap 5 encTen).outLen.toNat < (withCap 5 encTen).config.outCap) ∧
    ((withCap 4 encTen).Inv ∧
      (withCap 4 encTen).config.outCap ≤ (withCap 4 encTen).outLen.toNat) :=
  ⟨⟨inv_enc_empty, by decide⟩, ⟨inv_encTen_roomy, by decide⟩, inv_encTen_full, by decide⟩

theorem witness_EncodePadAndLength : Config.reference.wf := by decide

theorem witness_EncodeEmitsOnlyAlphabetSymbols :
    Config.reference.wf ∧ (0x2000A : CodePoint) ∈ Codec.encode Config.reference [0xFF] := by decide

theorem witness_EncodeTransactionComputesEncode :
    State.reset.Inv ∧ State.reset.mode ≠ .fault ∧
    1 + (8 * (List.replicate 33 (0 : Byte)).length + 17) / 18 ≤ State.reset.config.outCap :=
  ⟨inv_reset, by decide, by decide⟩

theorem witness_EncodeTransactionOverflowsWhenFull :
    State.reset.Inv ∧ State.reset.mode ≠ .fault ∧
    State.reset.config.outCap < 1 + (8 * (List.replicate 34 (0 : Byte)).length + 17) / 18 :=
  ⟨inv_reset, by decide, by decide⟩

/-! ## Decoder -/

theorem witness_DecStartOpensADecode : failed.mode ≠ .fault ∧ encTen.mode ≠ .fault := by decide

theorem witness_DecSymAcceptsTheHeader :
    waiting.config.wf ∧ waiting.mode = .decHdr ∧
    (waiting.config.cpStart.toNat ≤ (0x20000 : CodePoint).toNat) ∧
    (0x20011 : CodePoint).toNat ≤ waiting.config.cpStart.toNat + 17 ∧
    failed.config.wf ∧ failed.mode = .derr := by decide

theorem witness_DecSymUnpacksAPayloadSymbol :
    ((withCap 9 decSix).Inv ∧ (withCap 9 decSix).mode = .decPay ∧
      inRange (withCap 9 decSix).config 0x5FFFF = true ∧
      (withCap 9 decSix).outLen.toNat + ((withCap 9 decSix).cnt.toNat + 18) / 8 ≤
        (withCap 9 decSix).config.outCap) ∧
    ((withCap 8 decSix).Inv ∧ (withCap 8 decSix).mode = .decPay ∧
      (withCap 8 decSix).config.outCap <
        (withCap 8 decSix).outLen.toNat + ((withCap 8 decSix).cnt.toNat + 18) / 8) :=
  ⟨⟨inv_decSix_roomy, by decide⟩, inv_decSix_full, by decide⟩

theorem witness_DecFinishStripsThePadding :
    (waiting.Inv ∧ waiting.mode = .decHdr) ∧ (failed.Inv ∧ failed.mode = .derr) ∧
    (decSix.Inv ∧ decSix.mode = .decPay ∧ decSix.pad ≠ 0) ∧
    ((decoding 0 4 0 3 4 [(0, 1), (1, 2), (2, 3), (3, 0)]).Inv ∧
      (decoding 0 4 0 3 4 [(0, 1), (1, 2), (2, 3), (3, 0)]).pad = 0) :=
  ⟨⟨inv_waiting, by decide⟩, ⟨inv_failed, by decide⟩, ⟨inv_decSix, by decide⟩, inv_decFour, by decide⟩

theorem witness_TruncationNeverExtends :
    (decSix.Inv ∧ decSix.mode = .decPay) ∧
    (decoding 0 0 17 1 0 []).Inv ∧ (decoding 0 0 17 1 0 []).mode = .decPay ∧
    (decoding 0 0 17 1 0 []).usefulBits < 0 :=
  ⟨⟨inv_decSix, by decide⟩, inv_header_only, by decide, by decide⟩

theorem witness_ForeignInputOutcomes :
    Config.reference.wf ∧ (17 : Value).toNat ≤ 17 ∧ (2 : Value).toNat ≤ 2 ∧
    (3 ≤ (3 : Value).toNat ∧ (10 : Value).toNat ≤ 10) ∧
    (11 ≤ (11 : Value).toNat ∧ (17 : Value).toNat ≤ 17) ∧
    inRange Config.reference 0x1FFFF = false ∧ inRange Config.reference 0x60000 = false ∧
    ∃ cp ∈ [(0x20000 : CodePoint), 0x60000], inRange Config.reference cp = false :=
  ⟨by decide, by decide, by decide, by decide, by decide, by decide, by decide, 0x60000, by decide⟩

theorem witness_DecodeTransactionComputesDecode :
    (withCap 2 State.reset).Inv ∧ (withCap 2 State.reset).mode ≠ .fault ∧
    (18 * (Codec.accepted Config.reference [0x2000A, 0x5FC00] - 1) / 8 ≤ 2 ∧
      Codec.decode Config.reference [0x2000A, 0x5FC00] = .ok [0xFF]) ∧
    (18 * (Codec.accepted Config.reference [0x20012, 0x20000] - 1) / 8 ≤ 2 ∧
      Codec.decode Config.reference [0x20012, 0x20000] = .error .invalidHeader) :=
  ⟨by constructor <;> decide, by decide, by decide, by decide⟩

theorem witness_DecodeTransactionOverflowsWhenFull :
    (withCap 1 State.reset).Inv ∧ (withCap 1 State.reset).mode ≠ .fault ∧
    1 < 18 * (Codec.accepted Config.reference [0x2000A, 0x5FC00] - 1) / 8 :=
  ⟨by constructor <;> decide, by decide, by decide⟩

theorem witness_DecodeInvertsEncode : Config.reference.wf := by decide

theorem witness_EngineRoundTrip :
    State.reset.Inv ∧ State.reset.mode ≠ .fault ∧
    1 + (8 * (List.replicate 15 (0 : Byte)).length + 17) / 18 ≤ State.reset.config.outCap ∧
    18 * ((8 * (List.replicate 15 (0 : Byte)).length + 17) / 18) / 8 ≤ State.reset.config.outCap :=
  ⟨inv_reset, by decide, by decide, by decide⟩

end Sys2Proof.Tests
end

section
/-! PROOFS. The engine's state (10_state.md): what a command can do, the invariant every step keeps,
what writes each register, and the statements about them. -/

namespace Sys2Proof

/-! ## The bounds of the parameters (00_scope.md R9, R10) -/

theorem Config.wf.accCap_le {c : Config} (h : c.wf) : c.accCap ≤ 32 := by
  obtain ⟨-, -, -, hcap, -⟩ := h
  exact hcap

theorem Config.wf.le_accCap {c : Config} (h : c.wf) : 25 ≤ c.accCap := by
  obtain ⟨-, -, hcap, -⟩ := h
  exact hcap

theorem Config.wf.outCap_pos {c : Config} (h : c.wf) : 1 ≤ c.outCap := by
  obtain ⟨-, -, -, -, hpos, -⟩ := h
  exact hpos

/-- OUT_CAP, and so OUTLEN, fits the 32 bits of OUTLEN. -/
theorem Config.wf.outCap_lt {c : Config} (h : c.wf) : c.outCap < 2 ^ 32 := by
  obtain ⟨-, -, -, -, -, hcap⟩ := h
  omega

/-! ## What a word decodes to is well formed (30_encoding.md R66) -/

theorem wellFormed_of_decodePlain {w : Word} {i j : Instr} (hi : i.WellFormed)
    (h : decodePlain i w = .ok j) : j.WellFormed := by
  unfold decodePlain at h
  split at h
  · cases h; exact hi
  · cases h

theorem wellFormed_of_decodeAccApp {w : Word} {i : Instr} (h : decodeAccApp w = .ok i) :
    i.WellFormed := by
  unfold decodeAccApp at h
  split_ifs at h with hu hn hc
  cases h
  simp only [Instr.WellFormed, Instr.wellFormed, decide_eq_true_eq]
  exact ⟨hn, not_le.mp hc⟩

theorem wellFormed_of_decodeAccExt {w : Word} {i : Instr} (h : decodeAccExt w = .ok i) :
    i.WellFormed := by
  unfold decodeAccExt at h
  split_ifs at h with hu hn
  cases h
  simpa only [Instr.WellFormed, Instr.wellFormed, decide_eq_true_eq] using hn

/-- What a word decodes to meets the value constraints of its row (30_encoding.md R66). -/
theorem wellFormed_of_decode {w : Word} {i : Instr} (h : decode w = .ok i) : i.WellFormed := by
  unfold decode at h
  split at h
  · exact wellFormed_of_decodePlain rfl h
  · exact wellFormed_of_decodeAccApp h
  · exact wellFormed_of_decodeAccExt h
  · exact wellFormed_of_decodePlain rfl h
  · unfold decodeEncByte at h; split at h <;> cases h; rfl
  · exact wellFormed_of_decodePlain rfl h
  · exact wellFormed_of_decodePlain rfl h
  · unfold decodeDecSym at h; split at h <;> cases h; rfl
  · exact wellFormed_of_decodePlain rfl h
  · cases h

end Sys2Proof

namespace Sys2Proof.Machine

/-! ## What a command can do -/

/-- What a command can do outside MODE = FAULT, with the checks it has passed: raise a fault, fail the
decode, be ignored in DERR, or have its own effect (60_exceptions.md R138). Every statement about what a
command writes is a case analysis of this. -/
inductive Effect (s : State) : Instr → State → Prop where
  | fault (i : Instr) (f : ProtocolFault) (henc : i ≠ .encStart) (hdec : i ≠ .decStart) :
      Effect s i (s.raiseFault f)
  | error (cp : CodePoint) (e : ResultError) (hm : s.mode = .decHdr ∨ s.mode = .decPay) :
      Effect s (.decSym cp) (s.raiseError e)
  | decSymIgnored (cp : CodePoint) (hm : s.mode = .derr) : Effect s (.decSym cp) s
  | decFinishIgnored (hm : s.mode = .derr) : Effect s .decFinish s
  | accClr (hm : s.outsideTransaction) : Effect s .accClr s.clear
  | accApp (n : GroupSize) (chunk : Value) (hm : s.outsideTransaction)
      (hfit : s.cnt.toNat + n.toNat ≤ s.config.accCap) :
      Effect s (.accApp n chunk) (s.append n.toNat chunk)
  | accExt (m : GroupSize) (hm : s.outsideTransaction) (hfit : m.toNat ≤ s.cnt.toNat) :
      Effect s (.accExt m) { s.extractRest m.toNat with res := s.extractValue m.toNat }
  | encStart : Effect s .encStart { s.openTransaction with outLen := 1, mode := .enc }
  | encByte (b : Byte) (hm : s.mode = .enc) (hfit : ¬ s.outOverflows s.encByteEmits) :
      Effect s (.encByte b) (s.feedByte b)
  | encFinish (hm : s.mode = .enc) (hfit : ¬ s.outOverflows s.encFinishEmits) :
      Effect s .encFinish s.finishEncode
  | decStart : Effect s .decStart { s.openTransaction with mode := .decHdr }
  | header (cp : CodePoint) (hm : s.mode = .decHdr) (hcp : inRange s.config cp = true)
      (hv : cp.toNat - s.config.cpStart.toNat ≤ 17) :
      Effect s (.decSym cp)
        { s with pad := ((cp - s.config.cpStart).setWidth 18 : Value).setWidth 5, nsym := 1,
                 mode := .decPay }
  | payload (cp : CodePoint) (hm : s.mode = .decPay) (hcp : inRange s.config cp = true)
      (hfit : ¬ s.outOverflows s.decSymEmits) :
      Effect s (.decSym cp) (s.feedValue ((cp - s.config.cpStart).setWidth 18))
  | decFinishEmpty (hm : s.mode = .decHdr) : Effect s .decFinish { s with mode := .done }
  | decFinish (hm : s.mode = .decPay) : Effect s .decFinish s.finishDecode

theorem effect_acceptHeader (cp : CodePoint) (s : State) (hm : s.mode = .decHdr) :
    Effect s (.decSym cp) (s.acceptHeader cp) := by
  rcases acceptHeader_cases cp s with ⟨-, e⟩ | ⟨-, -, e⟩ | ⟨hcp, hv, e⟩ <;> rw [e]
  · exact .error cp _ (.inl hm)
  · exact .error cp _ (.inl hm)
  · exact .header cp hm hcp (by omega)

theorem effect_acceptPayload (cp : CodePoint) (s : State) (hm : s.mode = .decPay) :
    Effect s (.decSym cp) (s.acceptPayload cp) := by
  rcases acceptPayload_cases cp s with ⟨-, e⟩ | ⟨-, -, e⟩ | ⟨hcp, hfit, e⟩ <;> rw [e]
  · exact .error cp _ (.inr hm)
  · exact .fault _ _ nofun nofun
  · exact .payload cp hm hcp hfit

/-- Each meaning answers one of these effects. -/
theorem effect_of_exec {i : Instr} {s t : State} (hs : s.mode ≠ .fault) (h : exec i s = .next t) :
    Effect s i t := by
  cases i with
  | accClr =>
    obtain ⟨-, rfl⟩ | ⟨hm, rfl⟩ := execAccClr_cases s t hs h
    · exact .fault _ _ nofun nofun
    · exact .accClr hm
  | accApp n chunk =>
    obtain ⟨-, rfl⟩ | ⟨-, -, rfl⟩ | ⟨hm, hfit, rfl⟩ := execAccApp_cases n chunk s t hs h
    · exact .fault _ _ nofun nofun
    · exact .fault _ _ nofun nofun
    · exact .accApp n chunk hm (by omega)
  | accExt m =>
    obtain ⟨-, rfl⟩ | ⟨-, -, rfl⟩ | ⟨hm, hfit, rfl⟩ := execAccExt_cases m s t hs h
    · exact .fault _ _ nofun nofun
    · exact .fault _ _ nofun nofun
    · exact .accExt m hm (by omega)
  | encStart => rw [execEncStart_cases s t hs h]; exact .encStart
  | encByte b =>
    obtain ⟨-, rfl⟩ | ⟨-, -, rfl⟩ | ⟨hm, hfit, rfl⟩ := execEncByte_cases b s t hs h
    · exact .fault _ _ nofun nofun
    · exact .fault _ _ nofun nofun
    · exact .encByte b hm hfit
  | encFinish =>
    obtain ⟨-, rfl⟩ | ⟨-, -, rfl⟩ | ⟨hm, hfit, rfl⟩ := execEncFinish_cases s t hs h
    · exact .fault _ _ nofun nofun
    · exact .fault _ _ nofun nofun
    · exact .encFinish hm hfit
  | decStart => rw [execDecStart_cases s t hs h]; exact .decStart
  | decSym cp =>
    obtain ⟨-, rfl⟩ | ⟨hm, rfl⟩ | ⟨hm, rfl⟩ | ⟨hm, rfl⟩ := execDecSym_cases cp s t hs h
    · exact .fault _ _ nofun nofun
    · exact .decSymIgnored cp hm
    · exact effect_acceptHeader cp s hm
    · exact effect_acceptPayload cp s hm
  | decFinish =>
    obtain ⟨-, rfl⟩ | ⟨hm, rfl⟩ | ⟨hm, rfl⟩ | ⟨hm, rfl⟩ := execDecFinish_cases s t hs h
    · exact .fault _ _ nofun nofun
    · exact .decFinishIgnored hm
    · exact .decFinishEmpty hm
    · exact .decFinish hm

/-- A command word is ignored in FAULT, is illegal, or runs the command it decodes to. -/
theorem executeWord_cases {w : Word} {s t : State} (h : executeWord w s = .next t) :
    (s.mode = .fault ∧ t = s) ∨
      (s.mode ≠ .fault ∧ (∀ i, decode w ≠ .ok i) ∧ t = s.raiseFault .illegalCommand) ∨
      (s.mode ≠ .fault ∧ ∃ i, decode w = .ok i ∧ Effect s i t) := by
  unfold executeWord at h
  cases hd : decode w with
  | error e =>
    rw [hd] at h
    rcases unlessFaulted_cases _ _ _ h with ⟨hf, e⟩ | ⟨hf, e⟩
    · exact .inl ⟨hf, e⟩
    · exact .inr (.inl ⟨hf, by simp, e⟩)
  | ok i =>
    rw [hd] at h
    by_cases hf : s.mode = .fault
    · exact .inl ⟨hf, by simpa [exec_of_fault i s hf] using h.symm⟩
    · exact .inr (.inr ⟨hf, i, rfl, effect_of_exec hf h⟩)

/-- What the engine makes of one input: it runs a command word, its registers are reset, or at most
the host's own data change. -/
theorem acceptInput_cases {x : HostInput} {s t : State} (h : acceptInput x s = .next t) :
    (∃ w, x = .command w ∧ s.resetAsserted = false ∧ executeWord w s = .next t) ∨
      ((x = .assertReset ∨ x = .releaseReset) ∧
        ∃ b, t = { s.resetEngine with resetAsserted := b }) ∨
      ∃ d, t = { s with hostData := d } := by
  cases x with
  | command w =>
    simp only [acceptInput, acceptCommand] at h
    split at h
    · cases h; exact .inr (.inr ⟨s.hostData, rfl⟩)
    · next hr => exact .inl ⟨w, rfl, by simpa using hr, h⟩
  | readRegister idx => cases h; exact .inr (.inr ⟨_, rfl⟩)
  | readOut index =>
    simp only [acceptInput, acceptReadOut] at h
    split at h
    · cases h; exact .inr (.inr ⟨_, rfl⟩)
    · cases h
  | assertReset => cases h; exact .inr (.inl ⟨.inl rfl, true, rfl⟩)
  | releaseReset =>
    simp only [acceptInput, acceptReleaseReset] at h
    split at h
    · cases h; exact .inr (.inl ⟨.inr rfl, false, rfl⟩)
    · cases h; exact .inr (.inr ⟨s.hostData, rfl⟩)

/-- A step holds the state, or it takes the oldest input. -/
theorem step_cases {s t : State} (h : step s = .next t) :
    t = s ∨ ∃ x rest, s.inputs = x :: rest ∧ acceptInput x { s with inputs := rest } = .next t := by
  unfold step at h
  split at h
  · cases h; exact .inl rfl
  · next x rest hx => exact .inr ⟨x, rest, hx, h⟩

/-! ## What no command touches -/

section
variable {s t : State} {i : Instr}

theorem Effect.config_eq (h : Effect s i t) : t.config = s.config := by cases h <;> simp

theorem Effect.resetAsserted_eq (h : Effect s i t) : t.resetAsserted = s.resetAsserted := by
  cases h <;> simp

theorem executeWord_config_eq {w : Word} (h : executeWord w s = .next t) :
    t.config = s.config := by
  rcases executeWord_cases h with ⟨-, rfl⟩ | ⟨-, -, rfl⟩ | ⟨-, i, -, he⟩
  · rfl
  · rfl
  · exact he.config_eq

theorem executeWord_resetAsserted_eq {w : Word} (h : executeWord w s = .next t) :
    t.resetAsserted = s.resetAsserted := by
  rcases executeWord_cases h with ⟨-, rfl⟩ | ⟨-, -, rfl⟩ | ⟨-, i, -, he⟩
  · rfl
  · rfl
  · exact he.resetAsserted_eq

theorem acceptInput_config_eq {x : HostInput} (h : acceptInput x s = .next t) :
    t.config = s.config := by
  obtain ⟨w, -, -, he⟩ | ⟨-, b, rfl⟩ | ⟨d, rfl⟩ := acceptInput_cases h
  · exact executeWord_config_eq he
  · rfl
  · rfl

theorem step_config_eq (h : step s = .next t) : t.config = s.config := by
  obtain rfl | ⟨x, rest, -, hx⟩ := step_cases h
  · rfl
  · exact acceptInput_config_eq (s := { s with inputs := rest }) hx

end

/-! ## OUT and the loop behind ENC_BYTE and DEC_SYM -/

theorem loopValues_lt (g fuel a n : Nat) (ha : a < 2 ^ n) :
    ∀ v ∈ loopValues g fuel a n, v < 2 ^ g := by
  induction fuel generalizing a n with
  | zero => simp [loopValues]
  | succ k ih =>
    unfold loopValues
    split
    · next hle =>
      intro v hv
      rcases List.mem_cons.mp hv with rfl | hv
      · exact oldest_lt a n g ha hle
      · exact ih _ _ (Nat.mod_lt _ (Nat.two_pow_pos _)) v hv
    · simp

theorem mem_of_mem_entriesFrom {k : Nat} {vs : List CodePoint} {e : Nat × CodePoint}
    (h : e ∈ entriesFrom k vs) : e.2 ∈ vs := (List.of_mem_zip h).2

/-- Two states whose OUT and OUTLEN show that `vs` was added at the end. -/
structure State.Appends (s t : State) (vs : List CodePoint) : Prop where
  outLen : t.outLen.toNat = s.outLen.toNat + vs.length
  out : t.out = s.out ++ entriesFrom s.outLen.toNat vs

/-- Every defined index lies below OUTLEN, so an entry emitted at OUTLEN comes last. -/
theorem State.definedFrom_keys_lt {s : State} {first : Nat} (hd : s.definedFrom first) :
    ∀ a ∈ s.out.map Prod.fst, a < s.outLen.toNat := by
  intro a ha
  rw [show s.out.map Prod.fst = _ from hd, List.mem_range'_1] at ha
  omega

theorem State.Appends.definedFrom {s t : State} {vs : List CodePoint} {first : Nat}
    (h : s.Appends t vs) (hd : s.definedFrom first) (hf : first ≤ s.outLen.toNat) :
    t.definedFrom first := by
  have hd : s.out.map Prod.fst = _ := hd
  have hstart : s.outLen.toNat = first + (s.outLen.toNat - first) := by omega
  have hcount : t.outLen.toNat - first = (s.outLen.toNat - first) + vs.length := by
    rw [h.outLen]; omega
  rw [State.definedFrom, h.out, List.map_append, hd, entriesFrom_keys, hcount,
    ← List.range'_append_1, ← hstart]

theorem State.Appends.all {s t : State} {vs : List CodePoint} {p : CodePoint → Bool}
    (h : s.Appends t vs) (hs : s.out.all (fun e => p e.2) = true) (hvs : ∀ v ∈ vs, p v = true) :
    t.out.all (fun e => p e.2) = true := by
  rw [h.out, List.all_append, hs, Bool.true_and, List.all_eq_true]
  exact fun e he => hvs e.2 (mem_of_mem_entriesFrom he)

/-- The entries the loop adds when a chunk of N bits joins the accumulator. -/
def State.groups (g n : Nat) (c : Value) (entry : Value → CodePoint) (s : State) :
    List CodePoint :=
  (loopValues g (s.append n c).cnt.toNat (s.append n c).acc.toNat (s.append n c).cnt.toNat).map
    (fun v => entry (BitVec.ofNat 18 v))

/-- Append a chunk and emit the full groups: (CNT + N) div G entries are added, and a number of
(CNT + N) mod G bits stays. -/
theorem State.drain_append_spec (g n : Nat) (c : Value) (entry : Value → CodePoint) (s : State)
    (h : s.AccOk) (hg : 1 ≤ g) (h18 : g ≤ 18) (hn : s.cnt.toNat + n ≤ 32) (hc : c.toNat < 2 ^ n)
    (hout : s.outLen.toNat + (s.cnt.toNat + n) / g < 2 ^ 32)
    (hkeys : ∀ a ∈ s.out.map Prod.fst, a < s.outLen.toNat) :
    ((s.append n c).drain g entry (s.append n c).cnt.toNat).acc.toNat <
        2 ^ ((s.cnt.toNat + n) % g) ∧
      ((s.append n c).drain g entry (s.append n c).cnt.toNat).cnt.toNat = (s.cnt.toNat + n) % g ∧
      (s.groups g n c entry).length = (s.cnt.toNat + n) / g ∧
      s.Appends ((s.append n c).drain g entry (s.append n c).cnt.toNat) (s.groups g n c entry) := by
  rw [← State.append_cnt_toNat n c s hn] at hout ⊢
  obtain ⟨hacc, hcnt, hlen, hmem⟩ := State.drain_spec g entry (s.append n c).cnt.toNat
    (s.append n c) (h.append n c hn hc) hg h18 le_rfl hout hkeys
  have hcount : (s.groups g n c entry).length = (s.append n c).cnt.toNat / g := by
    rw [State.groups, List.length_map, loopValues_length g hg _ _ _ le_rfl]
  refine ⟨?_, hcnt, hcount, by rw [hcount]; exact hlen, hmem⟩
  rw [hacc]
  exact Nat.mod_lt _ (Nat.two_pow_pos _)

/-- Every entry the loop adds is the entry of a G-bit number. -/
theorem State.groups_forall {g n : Nat} {c : Value} {entry : Value → CodePoint} {s : State}
    {p : CodePoint → Prop} (h : s.AccOk) (hn : s.cnt.toNat + n ≤ 32) (hc : c.toNat < 2 ^ n)
    (hp : ∀ v, v < 2 ^ g → p (entry (BitVec.ofNat 18 v))) : ∀ e ∈ s.groups g n c entry, p e := by
  intro e he
  obtain ⟨v, hv, rfl⟩ := List.mem_map.mp he
  exact hp v (loopValues_lt g _ _ _ (h.append n c hn hc).lt v hv)

/-- S(v) is a code point of the alphabet (40_alphabet.md R78). -/
theorem inRange_valueToSymbol {c : Config} (hc : c.wf) (v : Value) :
    inRange c (valueToSymbol c v) = true := by
  obtain ⟨-, hmax, -⟩ := hc
  simp only [inRange, valueToSymbol, decide_eq_true_eq, BitVec.toNat_add, BitVec.toNat_setWidth]
  omega

theorem Memory.all_truncate {p : Nat × CodePoint → Bool} {m : Memory} (n : Nat)
    (h : m.all p = true) : (m.truncate n).all p = true := by
  induction m with
  | nil => rfl
  | cons e rest ih =>
    obtain ⟨j, u⟩ := e
    simp only [List.all_cons, Bool.and_eq_true] at h
    simp only [Memory.truncate]
    split <;> simp [h.1, ih h.2]

theorem Memory.all_write {p : Nat × CodePoint → Bool} {m : Memory} (i : Nat) (v : CodePoint)
    (hv : p (i, v) = true) (h : m.all p = true) : (m.write i v).all p = true := by
  induction m with
  | nil => simp [Memory.write, hv]
  | cons e rest ih =>
    obtain ⟨j, u⟩ := e
    simp only [List.all_cons, Bool.and_eq_true] at h
    simp only [Memory.write]
    split
    · simp [hv, h.1, h.2]
    · split <;> simp [hv, h.1, h.2, ih h.2]

/-- A write before every index puts the entry at the front. -/
theorem Memory.write_at_front (i : Nat) (v : CodePoint) (m : Memory)
    (h : ∀ a ∈ m.map Prod.fst, i < a) : m.write i v = (i, v) :: m := by
  cases m with
  | nil => rfl
  | cons e rest =>
    obtain ⟨j, u⟩ := e
    have hj : i < j := h j (by simp)
    simp [Memory.write, hj]

/-- Emit adds one entry at the end of OUT. -/
theorem State.emit_appends {s : State} (v : CodePoint) (hout : s.outLen.toNat + 1 < 2 ^ 32)
    (hkeys : ∀ a ∈ s.out.map Prod.fst, a < s.outLen.toNat) : s.Appends (s.emit v) [v] :=
  ⟨State.emit_outLen_toNat v s hout, Memory.write_at_end _ v _ hkeys⟩

theorem filter_lt_range' {n m : Nat} (h : n ≤ m) :
    (List.range' 0 m).filter (· < n) = List.range' 0 n := by
  have hsplit : List.range' 0 m = List.range' 0 n ++ List.range' n (m - n) := by
    simpa [h] using (List.range'_append_1 (s := 0) (m := n) (n := m - n)).symm
  have hlow : (List.range' 0 n).filter (· < n) = List.range' 0 n := by
    simp [List.filter_eq_self]
  have hhigh : (List.range' n (m - n)).filter (· < n) = [] := by
    simp only [List.filter_eq_nil_iff, List.mem_range'_1, decide_eq_true_eq]
    omega
  rw [hsplit, List.filter_append, hlow, hhigh, List.append_nil]

/-- Lowering OUTLEN leaves exactly the entries below it defined. -/
theorem State.definedFrom_setOutLen {s : State} {n : Nat} (hd : s.definedFrom 0)
    (hn : n ≤ s.outLen.toNat) : (s.setOutLen n).definedFrom 0 := by
  have hd : s.out.map Prod.fst = _ := hd
  have hlen : (BitVec.ofNat 32 n).toNat = n := by
    rw [BitVec.toNat_ofNat]; omega
  rw [State.definedFrom, State.setOutLen_out, Memory.keys_truncate, hd, State.setOutLen_outLen, hlen]
  exact filter_lt_range' hn

/-! ## The invariant of the engine proper

`execAll` runs commands whatever the reset input, so the invariant is kept in two layers: all but the
clause on an asserted reset, which every command keeps, and that clause, which only a step can break. -/

/-- `State.Inv` but for its clause on an asserted reset. -/
def State.EngineInv (s : State) : Prop := ({ s with resetAsserted := false } : State).Inv

theorem State.Inv.engineInv {s : State} (h : s.Inv) : s.EngineInv :=
  { h with reset := fun hr => nomatch hr }

theorem State.EngineInv.inv {s : State} (h : s.EngineInv)
    (hr : s.resetAsserted = true → s = s.resetEngine) : s.Inv :=
  { h with reset := hr }

section
variable {s : State}

/-! The clauses of the invariant, read off the state itself. -/

theorem State.EngineInv.released (h : s.EngineInv) :
    ({ s with resetAsserted := false } : State).Inv := h

theorem State.EngineInv.wf (h : s.EngineInv) : s.config.wf := h.released.config

theorem State.EngineInv.defined (h : s.EngineInv) (he : s.mode ≠ .enc) (hf : s.mode ≠ .fault) :
    s.definedFrom 0 := h.released.defined he hf

theorem State.EngineInv.definedEnc (h : s.EngineInv) (hm : s.mode = .enc) : s.definedFrom 1 :=
  h.released.definedEnc hm

theorem State.EngineInv.enc (h : s.EngineInv) (hm : s.mode = .enc) :
    1 ≤ s.outLen.toNat ∧ s.cnt.toNat ≤ 17 ∧
      (18 * (s.outLen.toNat - 1) + s.cnt.toNat) % 8 = 0 ∧ s.nsym = 0 ∧ s.pad = 0 :=
  h.released.enc hm

theorem State.EngineInv.decHdr (h : s.EngineInv) (hm : s.mode = .decHdr) :
    s.cnt = 0 ∧ s.outLen = 0 ∧ s.nsym = 0 ∧ s.pad = 0 := h.released.decHdr hm

theorem State.EngineInv.decPay (h : s.EngineInv) (hm : s.mode = .decPay) :
    1 ≤ s.nsym.toNat ∧ s.cnt.toNat ≤ 7 ∧
      8 * s.outLen.toNat + s.cnt.toNat = 18 * (s.nsym.toNat - 1) := h.released.decPay hm

theorem State.EngineInv.accOk (h : s.EngineInv) : s.AccOk where
  lt := h.acc
  le := le_trans h.cnt h.wf.accCap_le

theorem State.EngineInv.pad_le (h : s.EngineInv) : s.pad.toNat ≤ 17 := h.released.pad

theorem State.EngineInv.fcode_eq_none (h : s.EngineInv) (hm : s.mode ≠ .fault) :
    s.fcode = none := h.released.fcode.mpr hm

theorem State.EngineInv.ecode_eq_none (h : s.EngineInv) (hm : s.mode ≠ .fault)
    (hd : s.mode ≠ .derr) : s.ecode = none := (h.released.ecode hm).mpr hd

/-! In each proof below the clauses that the command touches are named; the others speak of another
MODE than the one it leads to, or of registers it cleared. -/

/-- A failed command: OUT is as the fault found it (60_exceptions.md R136). -/
theorem State.EngineInv.raiseFault (h : s.EngineInv) (hm : s.mode ≠ .fault) (f : ProtocolFault) :
    (s.raiseFault f).EngineInv := by
  unfold State.EngineInv
  constructor
  case config => exact h.wf
  case acc => exact h.accOk.lt
  case cnt => exact h.released.cnt
  case pad => exact h.pad_le
  case outLen => exact h.released.outLen
  case definedFault =>
    intro _
    by_cases he : s.mode = .enc
    · exact .inr (h.definedEnc he)
    · exact .inl (h.defined he hm)
  case entries => exact h.released.entries
  all_goals simp

/-- A failed decode: nothing is left in OUT (60_exceptions.md R132). -/
theorem State.EngineInv.raiseError (h : s.EngineInv) (hm : s.mode ≠ .fault) (e : ResultError) :
    (s.raiseError e).EngineInv := by
  unfold State.EngineInv
  constructor
  case config => exact h.wf
  case pad => exact h.pad_le
  all_goals simp [State.definedFrom, State.entriesAreBytes, h.fcode_eq_none hm]

/-- The raw commands write ACC, CNT and RES alone, outside a transaction (41_accumulator.md R94). -/
theorem State.EngineInv.withAccumulator (h : s.EngineInv) (hm : s.outsideTransaction)
    {a : BitVec 32} {c : BitVec 6} (r : Value) (ha : a.toNat < 2 ^ c.toNat)
    (hc : c.toNat ≤ s.config.accCap) :
    ({ s with acc := a, cnt := c, res := r } : State).EngineInv :=
  { h with
    reset := nofun
    acc := ha
    cnt := hc
    enc := by rcases hm with e | e | e <;> simp [e]
    decHdr := by rcases hm with e | e | e <;> simp [e]
    decPay := by rcases hm with e | e | e <;> simp [e] }

theorem State.EngineInv.encStart (h : s.EngineInv) (hm : s.mode ≠ .fault) :
    ({ s.openTransaction with outLen := 1, mode := .enc } : State).EngineInv := by
  unfold State.EngineInv
  constructor
  case config => exact h.wf
  case outLen => exact h.wf.outCap_pos
  all_goals simp [State.definedFrom, State.entriesAreSymbols, h.fcode_eq_none hm]

theorem State.EngineInv.decStart (h : s.EngineInv) (hm : s.mode ≠ .fault) :
    ({ s.openTransaction with mode := .decHdr } : State).EngineInv := by
  unfold State.EngineInv
  constructor
  case config => exact h.wf
  all_goals simp [State.definedFrom, State.entriesAreBytes, h.fcode_eq_none hm]

end

/-! ## The commands inside a transaction keep the invariant -/

section
variable {s : State}

/-- ENC_BYTE emits (CNT + 8) div 18 symbols. -/
theorem State.encByteEmits_eq (hcnt : s.cnt.toNat ≤ 17) :
    s.encByteEmits = (s.cnt.toNat + 8) / 18 := by
  unfold State.encByteEmits
  split <;> omega

/-- ENC_BYTE where it fits: CNT and OUTLEN, what stays in ACC and what is added to OUT. -/
theorem State.EngineInv.feedByte_spec (h : s.EngineInv) (hm : s.mode = .enc) (b : Byte)
    (hfit : ¬ s.outOverflows s.encByteEmits) :
    (s.feedByte b).acc.toNat < 2 ^ ((s.cnt.toNat + 8) % 18) ∧
      (s.feedByte b).cnt.toNat = (s.cnt.toNat + 8) % 18 ∧
      (s.feedByte b).outLen.toNat = s.outLen.toNat + (s.cnt.toNat + 8) / 18 ∧
      s.Appends (s.feedByte b) (s.groups 18 8 (b.setWidth 18) (valueToSymbol s.config)) := by
  have hcap := h.wf.outCap_lt
  obtain ⟨-, hcnt, -⟩ := h.enc hm
  rw [State.outOverflows, State.encByteEmits_eq hcnt] at hfit
  have hb : (b.setWidth 18).toNat < 2 ^ 8 := by
    rw [BitVec.toNat_setWidth]; omega
  obtain ⟨hacc, hcnt', hlen, happ⟩ := State.drain_append_spec 18 8 (b.setWidth 18)
    (valueToSymbol s.config) s h.accOk (by omega) (by omega) (by omega) hb (by omega)
    (State.definedFrom_keys_lt (h.definedEnc hm))
  exact ⟨hacc, hcnt', by rw [← hlen]; exact happ.outLen, happ⟩

theorem State.EngineInv.feedByte (h : s.EngineInv) (hm : s.mode = .enc) (b : Byte)
    (hfit : ¬ s.outOverflows s.encByteEmits) : (s.feedByte b).EngineInv := by
  obtain ⟨hacc, hcnt, hlen, happ⟩ := h.feedByte_spec hm b hfit
  obtain ⟨hpos, hle, hmod, hnsym, hpad⟩ := h.enc hm
  rw [State.outOverflows, State.encByteEmits_eq hle] at hfit
  have hsymbols : (s.feedByte b).entriesAreSymbols := by
    rw [State.entriesAreSymbols, State.feedByte_config]
    refine happ.all (h.symbols hm) (State.groups_forall h.accOk (by omega) ?_ ?_)
    · rw [BitVec.toNat_setWidth]; omega
    · exact fun v _ => inRange_valueToSymbol h.wf _
  have hcap := h.wf.le_accCap
  unfold State.EngineInv
  constructor
  case config => simpa using h.wf
  case acc => simpa [hcnt] using hacc
  case cnt => simp only [State.feedByte_config, hcnt]; omega
  case outLen => simp only [State.feedByte_config, hlen]; omega
  case definedEnc => exact fun _ => happ.definedFrom (h.definedEnc hm) hpos
  case enc =>
    simp only [State.feedByte_nsym, State.feedByte_pad, hcnt, hlen]
    exact fun _ => ⟨by omega, by omega, by omega, hnsym, hpad⟩
  case symbols => exact fun _ => hsymbols
  case entries => exact .inl hsymbols
  all_goals simp [hm, hpad, h.ecode_eq_none, h.fcode_eq_none]

/-- The header of a decode: its pad count and the first accepted symbol (43_decoder.md R121). -/
theorem State.EngineInv.header (h : s.EngineInv) (hm : s.mode = .decHdr) {p : BitVec 5}
    (hp : p.toNat ≤ 17) :
    ({ s with pad := p, nsym := 1, mode := .decPay } : State).EngineInv := by
  obtain ⟨hcnt, hlen, -, -⟩ := h.decHdr hm
  have hout : s.out = [] := by
    simpa [State.definedFrom, hlen] using (h.defined (by simp [hm]) (by simp [hm]))
  unfold State.EngineInv
  constructor
  case config => exact h.wf
  case acc => exact h.accOk.lt
  case pad => exact hp
  case outLen => exact h.released.outLen
  case defined => exact fun _ _ => h.defined (by simp [hm]) (by simp [hm])
  case decPay => simp [hcnt, hlen]
  all_goals simp [State.entriesAreBytes, hm, hcnt, hout, h.ecode_eq_none, h.fcode_eq_none]

/-- DEC_SYM in DEC_PAY where it fits: CNT and OUTLEN, what stays in ACC, what is added to OUT. -/
theorem State.EngineInv.feedValue_spec (h : s.EngineInv) (hm : s.mode = .decPay) (v : Value)
    (hfit : ¬ s.outOverflows s.decSymEmits) :
    (s.feedValue v).acc.toNat < 2 ^ ((s.cnt.toNat + 18) % 8) ∧
      (s.feedValue v).cnt.toNat = (s.cnt.toNat + 18) % 8 ∧
      (s.feedValue v).outLen.toNat = s.outLen.toNat + (s.cnt.toNat + 18) / 8 ∧
      s.Appends (s.feedValue v) (s.groups 8 18 v (fun byte => byte.setWidth 21)) := by
  have hcap := h.wf.outCap_lt
  obtain ⟨-, hcnt, -⟩ := h.decPay hm
  rw [State.outOverflows, State.decSymEmits] at hfit
  obtain ⟨hacc, hcnt', hlen, happ⟩ := State.drain_append_spec 8 18 v
    (fun byte => byte.setWidth 21) s h.accOk (by omega) (by omega) (by omega) v.isLt (by omega)
    (State.definedFrom_keys_lt (h.defined (by simp [hm]) (by simp [hm])))
  exact ⟨hacc, hcnt', by rw [← hlen]; exact happ.outLen, happ.outLen, happ.out⟩

/-- In DEC_PAY one more symbol does not overflow NSYM: OUT_CAP bounds it (10_state.md R34). -/
theorem State.EngineInv.nsym_succ (h : s.EngineInv) (hm : s.mode = .decPay) :
    (s.nsym + 1).toNat = s.nsym.toNat + 1 := by
  obtain ⟨-, hcnt, hbits⟩ := h.decPay hm
  rw [BitVec.toNat_add, show (1 : BitVec 32).toNat = 1 from rfl]
  omega

theorem State.EngineInv.feedValue (h : s.EngineInv) (hm : s.mode = .decPay) (v : Value)
    (hfit : ¬ s.outOverflows s.decSymEmits) : (s.feedValue v).EngineInv := by
  obtain ⟨hacc, hcnt, hlen, happ⟩ := h.feedValue_spec hm v hfit
  obtain ⟨hpos, hle, hbits⟩ := h.decPay hm
  have hsucc := h.nsym_succ hm
  rw [State.outOverflows, State.decSymEmits] at hfit
  have hbytes : (s.feedValue v).entriesAreBytes := by
    refine happ.all (p := fun e => decide (e.toNat < 256)) (h.bytes hm)
      (State.groups_forall h.accOk (by omega) v.isLt fun x hx => ?_)
    simp only [BitVec.toNat_setWidth, BitVec.toNat_ofNat, decide_eq_true_eq]
    omega
  have hcap := h.wf.le_accCap
  unfold State.EngineInv
  constructor
  case config => simpa using h.wf
  case acc => simpa [hcnt] using hacc
  case cnt => simp only [State.feedValue_config, hcnt]; omega
  case pad => simpa using h.pad_le
  case outLen => simp only [State.feedValue_config, hlen]; omega
  case defined =>
    exact fun _ _ => happ.definedFrom (h.defined (by simp [hm]) (by simp [hm])) (Nat.zero_le _)
  case decPay =>
    simp only [State.feedValue_nsym, hcnt, hlen, hsucc]
    omega
  case bytes => exact fun _ => hbytes
  case entries => exact .inr hbytes
  all_goals simp [hm, h.ecode_eq_none, h.fcode_eq_none]

end

/-! ## Closing a transaction keeps the invariant -/

section
variable {s : State}

@[simp] theorem State.writeHeader_pad_toNat (s : State) :
    s.writeHeader.pad.toNat = (18 - s.cnt.toNat) % 18 := by
  simp only [State.writeHeader, State.memWrite_pad, State.encPad, BitVec.toNat_ofNat]
  omega

@[simp] theorem State.writeHeader_encFinishEmits (s : State) :
    s.writeHeader.encFinishEmits = s.encFinishEmits := rfl

/-- The header fills the place ENC_START left at entry 0. -/
theorem State.definedFrom_writeHeader (hd : s.definedFrom 1) (hpos : 1 ≤ s.outLen.toNat) :
    s.writeHeader.definedFrom 0 := by
  have hd : s.out.map Prod.fst = _ := hd
  have hout : s.writeHeader.out =
      (0, valueToSymbol s.config (BitVec.ofNat 18 s.encPad)) :: s.out := by
    refine Memory.write_at_front 0 _ _ fun a ha => ?_
    have hmem : a ∈ s.out.map Prod.fst := ha
    rw [hd, List.mem_range'_1] at hmem
    omega
  rw [State.definedFrom, hout, List.map_cons, hd, State.writeHeader_outLen, Nat.sub_zero,
    ← Nat.sub_add_cancel hpos, List.range'_succ, Nat.add_sub_cancel]

theorem State.entriesAreSymbols_writeHeader (hc : s.config.wf) (hs : s.entriesAreSymbols) :
    s.writeHeader.entriesAreSymbols := by
  rw [State.entriesAreSymbols, State.writeHeader_config]
  exact Memory.all_write 0 _ (inRange_valueToSymbol hc _) hs

/-- ENC_FINISH adds the partial group, if there is one, at the end of OUT. -/
theorem State.flushPartial_appends (hd : s.definedFrom 0)
    (hout : s.outLen.toNat + s.encFinishEmits < 2 ^ 32) :
    ∃ vs, vs.length = s.encFinishEmits ∧
      (∀ v ∈ vs, ∃ x, v = valueToSymbol s.config x) ∧ s.Appends s.flushPartial vs := by
  unfold State.flushPartial
  unfold State.encFinishEmits at hout ⊢
  split
  · next hpad =>
    rw [if_pos hpad] at hout
    refine ⟨[valueToSymbol s.config (s.flushValue 18)], rfl, by simp, ?_⟩
    obtain ⟨hlen, hmem⟩ := State.emit_appends (s := s.clear)
      (valueToSymbol s.config (s.flushValue 18)) hout (State.definedFrom_keys_lt hd)
    exact ⟨hlen, hmem⟩
  · exact ⟨[], rfl, by simp, by simp, by simp⟩

/-- A transaction closed with the accumulator empty. -/
theorem State.EngineInv.close (h : s.EngineInv) (hm : s.mode ≠ .fault) (hd : s.mode ≠ .derr)
    {p : BitVec 5} {l : BitVec 32} {m : Memory} (hpad : p.toNat ≤ 17)
    (hlen : l.toNat ≤ s.config.outCap)
    (hdef : ({ s with outLen := l, out := m } : State).definedFrom 0)
    (hentries : ({ s with out := m } : State).entriesAreSymbols ∨
      ({ s with out := m } : State).entriesAreBytes) :
    ({ s with mode := .done, acc := 0, cnt := 0, pad := p, outLen := l, out := m } :
      State).EngineInv := by
  unfold State.EngineInv
  constructor
  case config => exact h.wf
  case pad => exact hpad
  case outLen => exact hlen
  case defined => exact fun _ _ => hdef
  case entries => exact hentries
  all_goals simp [h.ecode_eq_none hm hd, h.fcode_eq_none hm]

theorem State.finishEncode_eq (s : State) :
    s.finishEncode = { s with
      mode := .done, acc := 0, cnt := 0, pad := s.writeHeader.pad,
      outLen := s.writeHeader.flushPartial.outLen, out := s.writeHeader.flushPartial.out } := by
  unfold State.finishEncode State.flushPartial
  split <;> rfl

theorem State.EngineInv.finishEncode (h : s.EngineInv) (hm : s.mode = .enc)
    (hfit : ¬ s.outOverflows s.encFinishEmits) : s.finishEncode.EngineInv := by
  obtain ⟨hpos, -⟩ := h.enc hm
  have hcap := h.wf.outCap_lt
  rw [State.outOverflows, ← State.writeHeader_outLen s, ← State.writeHeader_encFinishEmits s] at hfit
  have hdef := State.definedFrom_writeHeader (h.definedEnc hm) hpos
  obtain ⟨vs, hlen, hvs, happ⟩ := State.flushPartial_appends hdef (by omega)
  have hsymbols : s.writeHeader.flushPartial.entriesAreSymbols := by
    rw [State.entriesAreSymbols, State.flushPartial_config]
    refine happ.all (State.entriesAreSymbols_writeHeader h.wf (h.symbols hm)) fun v hv => ?_
    obtain ⟨x, rfl⟩ := hvs v hv
    exact inRange_valueToSymbol h.wf x
  rw [State.entriesAreSymbols, State.flushPartial_config, State.writeHeader_config] at hsymbols
  rw [State.finishEncode_eq]
  refine h.close (by simp [hm]) (by simp [hm]) ?_ ?_ (happ.definedFrom hdef (Nat.zero_le _))
    (.inl hsymbols)
  · rw [State.writeHeader_pad_toNat]; omega
  · rw [happ.outLen, hlen]; omega

/-- The padding stripped: OUTLEN never grows and the entries are some of those before. -/
theorem State.EngineInv.stripPadding_spec (h : s.EngineInv) (hm : s.mode = .decPay) :
    s.stripPadding.outLen.toNat ≤ s.outLen.toNat ∧ s.stripPadding.definedFrom 0 ∧
      s.stripPadding.entriesAreBytes := by
  have hdef : s.definedFrom 0 := h.defined (by simp [hm]) (by simp [hm])
  have hbytes : s.entriesAreBytes := h.bytes hm
  unfold State.stripPadding
  split
  · refine ⟨?_, State.definedFrom_setOutLen hdef (min_le_left _ _), Memory.all_truncate _ hbytes⟩
    simp only [State.setOutLen_outLen, BitVec.toNat_ofNat]
    omega
  · exact ⟨le_rfl, hdef, hbytes⟩

theorem State.finishDecode_eq (s : State) :
    s.finishDecode = { s with
      mode := .done, acc := 0, cnt := 0, pad := s.pad,
      outLen := s.stripPadding.outLen, out := s.stripPadding.out } := by
  unfold State.finishDecode State.stripPadding
  split <;> rfl

theorem State.EngineInv.finishDecode (h : s.EngineInv) (hm : s.mode = .decPay) :
    s.finishDecode.EngineInv := by
  obtain ⟨hlen, hdef, hbytes⟩ := h.stripPadding_spec hm
  rw [State.finishDecode_eq]
  exact h.close (by simp [hm]) (by simp [hm]) h.pad_le (le_trans hlen h.outLen) hdef (.inr hbytes)

theorem State.EngineInv.finishEmpty (h : s.EngineInv) (hm : s.mode = .decHdr) :
    ({ s with mode := .done } : State).EngineInv := by
  obtain ⟨hcnt, -⟩ := h.decHdr hm
  have hacc : s.acc = 0 := BitVec.eq_of_toNat_eq (by simpa [hcnt] using h.accOk.lt)
  have hs : ({ s with mode := .done } : State) = { s with mode := .done, acc := 0, cnt := 0 } := by
    simp [hacc, hcnt]
  rw [hs]
  exact h.close (by simp [hm]) (by simp [hm]) h.pad_le h.outLen
    (h.defined (by simp [hm]) (by simp [hm])) h.entries

/-! ## Every command and every step keeps the invariant -/

theorem State.EngineInv.effect {i : Instr} {t : State} (h : s.EngineInv) (hs : s.mode ≠ .fault)
    (hi : i.WellFormed) (he : Effect s i t) : t.EngineInv := by
  cases he with
  | fault _ f => exact h.raiseFault hs f
  | error _ e => exact h.raiseError hs e
  | decSymIgnored => exact h
  | decFinishIgnored => exact h
  | accClr hm => exact h.withAccumulator hm s.res (by simp) (by simp)
  | accApp n chunk hm hfit =>
    simp only [Instr.WellFormed, Instr.wellFormed, decide_eq_true_eq] at hi
    obtain ⟨-, hchunk⟩ := hi
    have hn : s.cnt.toNat + n.toNat ≤ 32 := le_trans hfit h.wf.accCap_le
    refine h.withAccumulator hm s.res (h.accOk.append n.toNat chunk hn hchunk).lt ?_
    rwa [← State.append_cnt, State.append_cnt_toNat _ chunk _ hn]
  | accExt m hm hfit =>
    refine h.withAccumulator hm _ (h.accOk.extractRest m.toNat hfit).lt ?_
    rw [State.extractRest_cnt_toNat _ _ hfit]
    exact le_trans (Nat.sub_le _ _) h.cnt
  | encStart => exact h.encStart hs
  | encByte b hm hfit => exact h.feedByte hm b hfit
  | encFinish hm hfit => exact h.finishEncode hm hfit
  | decStart => exact h.decStart hs
  | header cp hm hcp hv =>
    refine h.header hm ?_
    rw [BitVec.toNat_setWidth, symbolValue_toNat _ _ hcp]
    omega
  | payload cp hm _ hfit => exact h.feedValue hm _ hfit
  | decFinishEmpty hm => exact h.finishEmpty hm
  | decFinish hm => exact h.finishDecode hm

end

/-- The reset state meets the invariant, whatever the reset input and the host's own data are. -/
theorem State.inv_resetEngine {s : State} (hc : s.config.wf) (b : Bool) :
    ({ s.resetEngine with resetAsserted := b } : State).Inv := by
  constructor
  case config => exact hc
  case reset => exact fun _ => rfl
  all_goals simp [State.definedFrom, State.entriesAreBytes]

/-- The host's own data are no part of the invariant. -/
theorem State.Inv.withHost {s : State} (h : s.Inv) (inputs : List HostInput)
    (hostData : Option Word) :
    ({ s with inputs := inputs, hostData := hostData } : State).Inv :=
  { h with
    reset := fun hr =>
      congrArg (fun u : State => { u with inputs := inputs, hostData := hostData }) (h.reset hr) }

theorem State.Inv.executeWord {w : Word} {s t : State} (h : s.Inv) (hr : s.resetAsserted = false)
    (he : executeWord w s = .next t) : t.Inv := by
  have ht : t.resetAsserted = false := by rw [executeWord_resetAsserted_eq he, hr]
  suffices t.EngineInv from this.inv (by simp [ht])
  rcases executeWord_cases he with ⟨-, rfl⟩ | ⟨hs, -, rfl⟩ | ⟨hs, i, hd, he⟩
  · exact h.engineInv
  · exact h.engineInv.raiseFault hs _
  · exact h.engineInv.effect hs (wellFormed_of_decode hd) he

theorem State.Inv.acceptInput {x : HostInput} {s t : State} (h : s.Inv)
    (ht : acceptInput x s = .next t) : t.Inv := by
  obtain ⟨w, -, hr, he⟩ | ⟨-, b, rfl⟩ | ⟨d, rfl⟩ := acceptInput_cases ht
  · exact h.executeWord hr he
  · exact State.inv_resetEngine h.config b
  · exact h.withHost s.inputs d

theorem State.Inv.step {s t : State} (h : s.Inv) (ht : step s = .next t) : t.Inv := by
  obtain rfl | ⟨x, rest, -, hx⟩ := step_cases ht
  · exact h
  · exact (h.withHost rest s.hostData).acceptInput hx

/-! ## STATUS -/

/-- Which field each bit of STATUS belongs to (10_state.md R38). -/
theorem State.getLsbD_statusWord (s : State) (k : Nat) :
    s.statusWord.getLsbD k =
      if k < 4 then s.mode.code.getLsbD k
      else if k < 8 then (ecodeCode s.ecode).getLsbD (k - 4)
      else (fcodeCode s.fcode).getLsbD (k - 8) := by
  have hm : 3 ≤ k → s.mode.code.getLsbD k = false := BitVec.getLsbD_of_ge _ k
  have he : 8 ≤ k → (ecodeCode s.ecode).getLsbD (k - 4) = false :=
    fun h => BitVec.getLsbD_of_ge _ _ (by omega)
  have hf : 32 ≤ k → (fcodeCode s.fcode).getLsbD (k - 8) = false :=
    fun h => BitVec.getLsbD_of_ge _ _ (by omega)
  simp only [State.statusWord, BitVec.getLsbD_or, BitVec.getLsbD_setWidth, BitVec.getLsbD_shiftLeft]
  rcases (by omega : k < 4 ∨ (4 ≤ k ∧ k < 8) ∨ (8 ≤ k ∧ k < 32) ∨ 32 ≤ k) with h | h | h | h
  · simp [h, show k < 8 by omega, show k < 32 by omega]
  · simp [show ¬ k < 4 by omega, h.2, show k < 32 by omega, show k - 4 < 32 by omega, hm (by omega)]
  · simp [show ¬ k < 4 by omega, show ¬ k < 8 by omega, h.2, show k - 4 < 32 by omega,
      show k - 8 < 32 by omega, hm (by omega), he h.1]
  · simp [show ¬ k < 4 by omega, show ¬ k < 8 by omega, show ¬ k < 32 by omega, hf h]

theorem State.statusWord_toNat (s : State) :
    s.statusWord.toNat =
      (s.mode.code.toNat ||| (ecodeCode s.ecode).toNat <<< 4) |||
        (fcodeCode s.fcode).toNat <<< 8 := by
  have hshift (c : BitVec 4) (k : Nat) (hk : k ≤ 8) :
      (c.setWidth 32 <<< k).toNat = c.toNat <<< k := by
    have hle : c.toNat <<< k ≤ 2 ^ 4 * 2 ^ 8 := by
      rw [Nat.shiftLeft_eq]
      exact Nat.mul_le_mul c.isLt.le (Nat.pow_le_pow_right (by omega) hk)
    rw [BitVec.toNat_shiftLeft, BitVec.toNat_setWidth_of_le (by omega), Nat.mod_eq_of_lt (by omega)]
  rw [State.statusWord, BitVec.toNat_or, BitVec.toNat_or, hshift _ 4 (by omega),
    hshift _ 8 (by omega), BitVec.toNat_setWidth_of_le (by omega)]

/-! ## The codes and the registers after a command -/

section
variable {s t : State} {i : Instr}

theorem Effect.ecode_cases (h : Effect s i t) :
    t.ecode = s.ecode ∨ (∃ e, t = s.raiseError e) ∨ i = .encStart ∨ i = .decStart := by
  cases h with
  | error _ e => exact .inr (.inl ⟨e, rfl⟩)
  | encStart => exact .inr (.inr (.inl rfl))
  | decStart => exact .inr (.inr (.inr rfl))
  | _ => left; simp

theorem Effect.fcode_cases (h : Effect s i t) :
    t.fcode = s.fcode ∨ ∃ f, t = s.raiseFault f := by
  cases h with
  | fault _ f => exact .inr ⟨f, rfl⟩
  | _ => left; simp

theorem Effect.res_eq (h : Effect s i t) (hi : ∀ m, i ≠ .accExt m) : t.res = s.res := by
  cases h with
  | accExt m => exact absurd rfl (hi m)
  | _ => simp

theorem executeWord_fcode_cases {w : Word} (h : executeWord w s = .next t) :
    t.fcode = s.fcode ∨ (s.mode ≠ .fault ∧ ∃ f, t = s.raiseFault f) := by
  rcases executeWord_cases h with ⟨-, rfl⟩ | ⟨hs, -, rfl⟩ | ⟨hs, i, -, he⟩
  · exact .inl rfl
  · exact .inr ⟨hs, _, rfl⟩
  · exact he.fcode_cases.imp_right fun hf => ⟨hs, hf⟩

/-- Of the host's inputs only a command word and reset can change FCODE. -/
theorem acceptInput_fcode_cases {x : HostInput} (h : acceptInput x s = .next t)
    (hne : t.fcode ≠ s.fcode) :
    (∃ w, x = .command w) ∨ ((x = .assertReset ∨ x = .releaseReset) ∧ t.fcode = none) := by
  obtain ⟨w, hx, -⟩ | ⟨hx, b, rfl⟩ | ⟨d, rfl⟩ := acceptInput_cases h
  · exact .inl ⟨w, hx⟩
  · exact .inr ⟨hx, rfl⟩
  · exact absurd rfl hne

end

/-! ## The bytes of an encode -/

theorem execAll_cons {i : Instr} {is : List Instr} {s t : State} (h : exec i s = .next t) :
    execAll (i :: is) s = execAll is t := by rw [execAll, h]

theorem exec_encStart {s : State} (hs : s.mode ≠ .fault) :
    exec .encStart s = .next { s.openTransaction with outLen := 1, mode := .enc } :=
  unlessFaulted_of_running _ _ hs

theorem exec_encByte {s : State} (b : Byte) (hm : s.mode = .enc)
    (hfit : ¬ s.outOverflows s.encByteEmits) : exec (.encByte b) s = .next (s.feedByte b) := by
  simp only [exec, execEncByte]
  rw [unlessFaulted_of_running _ _ (by simp [hm]), faultIf_of_not _ _ _ _ (not_not.mpr hm),
    faultIf_of_not _ _ _ _ hfit]

/-- Behind k bytes of an open encode, j more that fit leave the counts of k + j bytes. -/
theorem State.EngineInv.execAll_encBytes {bytes : List Byte} {s : State} {k : Nat}
    (h : s.EngineInv) (hm : s.mode = .enc) (hcnt : s.cnt.toNat = 8 * k % 18)
    (hlen : s.outLen.toNat = 1 + 8 * k / 18)
    (hfit : 1 + 8 * (k + bytes.length) / 18 ≤ s.config.outCap) :
    ∃ t, execAll (bytes.map .encByte) s = .next t ∧ t.mode = .enc ∧
      t.cnt.toNat = 8 * (k + bytes.length) % 18 ∧
      t.outLen.toNat = 1 + 8 * (k + bytes.length) / 18 := by
  induction bytes generalizing s k with
  | nil => exact ⟨s, rfl, hm, hcnt, hlen⟩
  | cons b rest ih =>
    have hcount : k + (b :: rest).length = (k + 1) + rest.length := by
      rw [List.length_cons]; omega
    rw [hcount] at hfit ⊢
    have hroom : ¬ s.outOverflows s.encByteEmits := by
      rw [State.outOverflows, State.encByteEmits_eq (by omega)]
      omega
    obtain ⟨-, hcnt', hlen', -⟩ := h.feedByte_spec hm b hroom
    rw [List.map_cons, execAll_cons (exec_encByte b hm hroom)]
    exact ih (h.feedByte hm b hroom) (by simpa using hm) (by omega) (by omega) (by simpa using hfit)

end Sys2Proof.Machine

namespace Sys2Proof.Proofs
open Sys2Proof Sys2Proof.Machine

/-! ## The statements -/

/-- Settles O13: each effect a command can have keeps the invariant, and so does every other input. -/
theorem everyStepKeepsInv : Obligations.EveryStepKeepsInv := fun _ _ h ht => h.step ht

/-- Settles O19, field by field from the bits of STATUS. -/
theorem statusWordLayout : Obligations.StatusWordLayout := by
  refine ⟨⟨rfl, rfl, rfl, rfl, rfl, rfl, rfl, fun m => by cases m <;> decide⟩, fun s => ?_⟩
  refine ⟨?_, ?_, ?_, ?_, ?_, s.statusWord_toNat⟩
  · refine BitVec.eq_of_getLsbD_eq fun k hk => ?_
    simp [s.getLsbD_statusWord, hk, show k < 4 by omega]
  · rw [s.getLsbD_statusWord]
    exact BitVec.getLsbD_of_ge _ _ le_rfl
  · refine BitVec.eq_of_getLsbD_eq fun k hk => ?_
    simp [s.getLsbD_statusWord, hk, show 4 + k < 8 by omega]
  · refine BitVec.eq_of_getLsbD_eq fun k hk => ?_
    simp [s.getLsbD_statusWord, hk, show ¬ 8 + k < 4 by omega]
  · refine BitVec.eq_of_getLsbD_eq fun k hk => ?_
    rw [BitVec.getLsbD_extractLsb', s.getLsbD_statusWord, if_neg (by omega), if_neg (by omega),
      BitVec.getLsbD_of_ge (fcodeCode s.fcode) _ (by omega)]
    simp

/-- Settles O20, from the effects a command word can have. -/
theorem ecodeWrittenOnlyByErrorsAndStarts : Obligations.EcodeWrittenOnlyByErrorsAndStarts := by
  refine ⟨⟨rfl, rfl, rfl, ?_⟩, fun e s => rfl, fun s t hs h => ?_, fun s t hs h => ?_,
    fun w s t h => ?_⟩
  · rintro (_ | _ | _) <;> decide
  · rw [execEncStart_cases s t hs h, State.openTransaction_ecode]
  · rw [execDecStart_cases s t hs h, State.openTransaction_ecode]
  · rcases executeWord_cases h with ⟨-, rfl⟩ | ⟨-, -, rfl⟩ | ⟨-, i, hd, he⟩
    · exact .inl rfl
    · exact .inl rfl
    · rw [hd]
      simpa using he.ecode_cases

/-- Settles O21: each command word keeps FCODE or raises a fault, and no port but reset writes it. -/
theorem fcodeWrittenOnlyByFaultsAndReset : Obligations.FcodeWrittenOnlyByFaultsAndReset := by
  refine ⟨⟨rfl, rfl, rfl, rfl, rfl, rfl, ?_⟩, fun f s => rfl, fun _ _ _ => executeWord_fcode_cases,
    fun _ _ _ => acceptInput_fcode_cases⟩
  rintro (_ | _ | _ | _ | _ | _) <;> decide

/-- Settles O22: of all effects only the starts, ENC_FINISH and the header write PAD. -/
theorem padWrittenByFinishHeaderAndStarts : Obligations.PadWrittenByFinishHeaderAndStarts := by
  intro i s t h hs he
  have hpad := h.pad
  cases effect_of_exec hs he with
  | encFinish hm =>
    have hfin : s.finishEncode.pad.toNat = (18 - s.cnt.toNat) % 18 := by simp [State.finishEncode]
    refine ⟨by omega, by simp, by simp, fun _ _ => hfin, by simp, ?_⟩
    exact fun _ _ hne => absurd ⟨rfl, rfl⟩ hne
  | header cp hm hcp hv =>
    have hval : (((cp - s.config.cpStart).setWidth 18 : Value).setWidth 5).toNat =
        cp.toNat - s.config.cpStart.toNat := by
      rw [BitVec.toNat_setWidth, symbolValue_toNat _ _ hcp]
      omega
    refine ⟨by rw [hval]; exact hv, by simp, by simp, by simp, ?_, by simp [hm]⟩
    rintro _ ⟨⟩ - -
    exact hval
  | _ => simp_all

/-- Settles O23: of all effects only the starts, the header and a payload symbol write NSYM, and the
bits of OUT bound it. -/
theorem nsymCountsAcceptedSymbols : Obligations.NsymCountsAcceptedSymbols := by
  intro i s t h hs he
  cases effect_of_exec hs he with
  | header cp hm =>
    obtain ⟨-, -, hzero, -⟩ := h.decHdr hm
    simp [hzero]
  | payload cp hm =>
    exact ⟨by simp, by simp, fun _ _ _ => h.engineInv.nsym_succ hm, by simp [hm]⟩
  | _ => simp_all

/-- Settles O24, from the effects a command can have. -/
theorem resWrittenOnlyByAccExt : Obligations.ResWrittenOnlyByAccExt := by
  refine ⟨fun i s t h hi => ?_, fun m s hm hfit => ?_, fun c => rfl, fun w s t hw h => ?_⟩
  · by_cases hs : s.mode = .fault
    · rw [exec_of_fault i s hs] at h
      cases h; rfl
    · exact (effect_of_exec hs h).res_eq hi
  · have hs : s.mode ≠ .fault := by rcases hm with e | e | e <;> simp [e]
    refine ⟨{ s.extractRest m.toNat with res := s.extractValue m.toNat }, ?_, rfl⟩
    simp only [exec, execAccExt]
    rw [unlessFaulted_of_running _ _ hs, faultIf_of_not _ _ _ _ (not_not.mpr hm),
      faultIf_of_not _ _ _ _ (not_lt.mpr hfit)]
  · rcases executeWord_cases h with ⟨-, rfl⟩ | ⟨-, -, rfl⟩ | ⟨-, i, hd, -⟩
    · rfl
    · rfl
    · exact absurd hd (hw i)

/-- Settles O25: no input of the host changes the parameters. -/
theorem cpstartNeverChanges : Obligations.CpstartNeverChanges := by
  refine ⟨fun s => rfl, fun s t h => ⟨step_config_eq h, ?_⟩⟩
  change t.config.cpStart.setWidth 32 = s.config.cpStart.setWidth 32
  rw [step_config_eq h]

/-- Settles O26, from what each meaning can answer. -/
theorem modeTransitionsFollowTheTable : Obligations.ModeTransitionsFollowTheTable := by
  intro i s t h
  refine ⟨fun hf => ?_, fun hs => ?_⟩
  · rw [exec_of_fault i s hf] at h
    cases h; rfl
  cases i with
  | accClr =>
    rcases execAccClr_cases s t hs h with ⟨hm, rfl⟩ | ⟨hm, rfl⟩ <;> simp [hm]
  | accApp n chunk =>
    rcases execAccApp_cases n chunk s t hs h with ⟨hm, rfl⟩ | ⟨hm, -, rfl⟩ | ⟨hm, -, rfl⟩ <;>
      simp [hm]
  | accExt m =>
    rcases execAccExt_cases m s t hs h with ⟨hm, rfl⟩ | ⟨hm, -, rfl⟩ | ⟨hm, -, rfl⟩ <;> simp [hm]
  | encStart => rw [execEncStart_cases s t hs h]
  | encByte b =>
    rcases execEncByte_cases b s t hs h with ⟨hm, rfl⟩ | ⟨hm, -, rfl⟩ | ⟨hm, -, rfl⟩ <;> simp [hm]
  | encFinish =>
    rcases execEncFinish_cases s t hs h with ⟨hm, rfl⟩ | ⟨hm, -, rfl⟩ | ⟨hm, -, rfl⟩ <;>
      simp [hm, State.finishEncode]
  | decStart => rw [execDecStart_cases s t hs h]
  | decSym cp =>
    rcases execDecSym_cases cp s t hs h with ⟨hm, rfl⟩ | ⟨hm, rfl⟩ | ⟨hm, rfl⟩ | ⟨hm, rfl⟩
    · rcases hm with e | e | e <;> simp [e]
    · simp [hm]
    · rcases acceptHeader_cases cp s with ⟨-, e⟩ | ⟨-, -, e⟩ | ⟨-, -, e⟩ <;> simp [hm, e]
    · rcases acceptPayload_cases cp s with ⟨-, e⟩ | ⟨-, -, e⟩ | ⟨-, -, e⟩ <;> simp [hm, e]
  | decFinish =>
    rcases execDecFinish_cases s t hs h with ⟨hm, rfl⟩ | ⟨hm, rfl⟩ | ⟨hm, rfl⟩ | ⟨hm, rfl⟩
    · rcases hm with e | e | e <;> simp [e]
    · simp [hm]
    · simp [hm]
    · simp [hm, State.finishDecode]

/-- Settles O44, by induction on the bytes from the state ENC_START leaves. -/
theorem encCntCountsTheBytes : Obligations.EncCntCountsTheBytes := by
  intro bytes s h hs hfit
  rw [execAll_cons (exec_encStart hs)]
  simpa using (h.engineInv.encStart hs).execAll_encBytes (k := 0) (bytes := bytes) rfl
    (by simp) (by simp) (by simpa using hfit)

/-- Settles O10: each register of the reset state is the literal 0, and OUT lists no entry. -/
theorem resetLeavesEveryRegisterZero : Obligations.ResetLeavesEveryRegisterZero := fun _ =>
  ⟨rfl, rfl, rfl, rfl, rfl, rfl, rfl, rfl, rfl, rfl, Memory.read_nil, rfl⟩

/-- Settles O14: zero-extension keeps each register's number. -/
theorem registerReadPortReturnsRegisters : Obligations.RegisterReadPortReturnsRegisters := fun _ =>
  ⟨rfl, rfl, BitVec.toNat_setWidth_of_le (by omega), BitVec.toNat_setWidth_of_le (by omega), rfl,
    BitVec.toNat_setWidth_of_le (by omega), rfl, BitVec.toNat_setWidth_of_le (by omega), fun _ => rfl⟩

end Sys2Proof.Proofs
end

section
/-! PROOFS. The memory OUT and the host's side of the engine (20_memory.md): which entries are
defined (R48), what an OUT read gives (R51), and that the issued commands run one by one in issue
order (R57). -/

namespace Sys2Proof

/-! ## The word of a well-formed command decodes to it (30_encoding.md R64, R70) -/

/-- A zero-extended operand leaves the bits above it 0. -/
theorem setWidth_ushiftRight_eq_zero {k n : Nat} (v : BitVec k) : v.setWidth n >>> k = 0 := by
  ext j
  simp

theorem decode_encode {i : Instr} (h : i.WellFormed) : decode (encode i) = .ok i := by
  cases i with
  | accApp n chunk =>
    simp only [Instr.WellFormed, Instr.wellFormed, decide_eq_true_eq] at h
    obtain ⟨hn, hchunk⟩ := h
    simp [decode, encode, Instr.opcode, decodeAccApp, unusedZero, setWidth_ushiftRight_eq_zero, hn,
      hchunk]
  | accExt m =>
    simp only [Instr.WellFormed, Instr.wellFormed, decide_eq_true_eq] at h
    simp [decode, encode, Instr.opcode, decodeAccExt, unusedZero, h]
  | encByte b =>
    simp [decode, encode, Instr.opcode, decodeEncByte, unusedZero, setWidth_ushiftRight_eq_zero]
  | decSym cp =>
    simp [decode, encode, Instr.opcode, decodeDecSym, unusedZero, BitVec.ushiftRight_eq_zero]
  | accClr | encStart | encFinish | decStart | decFinish =>
    simp [decode, encode, Instr.opcode, decodePlain, unusedZero]

end Sys2Proof

namespace Sys2Proof.Machine

/-! ## A step takes the oldest input -/

theorem step_of_inputs_cons {s : State} {x : HostInput} {rest : List HostInput}
    (h : s.inputs = x :: rest) : step s = acceptInput x { s with inputs := rest } := by
  simp only [step, h]

theorem acceptInput_command_of_decode {s : State} {w : Word} {i : Instr}
    (hr : s.resetAsserted = false) (hd : decode w = .ok i) :
    acceptInput (.command w) s = exec i s := by
  simp [acceptInput, acceptCommand, executeWord, hr, hd]

theorem run_succ_of_step (M : Host.Core) {s t : M.State} (k : Nat) (h : M.step s = .next t) :
    M.run (k + 1) s = M.run k t := by
  simp only [Host.Core.run, h]

/-! ## No command reads what the host has issued -/

/-- The engine as it is, with other inputs issued and not yet taken. -/
def State.withInputs (xs : List HostInput) (s : State) : State := { s with inputs := xs }

@[simp] theorem State.withInputs_config (xs : List HostInput) (s : State) :
    (s.withInputs xs).config = s.config := rfl
@[simp] theorem State.withInputs_mode (xs : List HostInput) (s : State) :
    (s.withInputs xs).mode = s.mode := rfl

section
variable {xs : List HostInput} {s e e' : State}

theorem faultIf_withInputs {bad : Prop} [Decidable bad] {f : ProtocolFault}
    (he : e' = e.withInputs xs) :
    faultIf bad f (s.withInputs xs) e' = (faultIf bad f s e).withInputs xs :=
  he ▸ (apply_ite (State.withInputs xs) bad (s.raiseFault f) e).symm

/-- A command whose effect does not read the inputs answers the same whatever they are. -/
theorem unlessFaulted_withInputs (he : e' = e.withInputs xs) :
    unlessFaulted (s.withInputs xs) e' =
      .next ((if s.mode = .fault then s else e).withInputs xs) :=
  congrArg Host.Outcome.next (he ▸ (apply_ite (State.withInputs xs) (s.mode = .fault) s e).symm)

theorem State.drain_withInputs (g : Nat) (entry : Value → CodePoint) (fuel : Nat) (s : State) :
    (s.withInputs xs).drain g entry fuel = (s.drain g entry fuel).withInputs xs := by
  induction fuel generalizing s with
  | zero => rfl
  | succ k ih =>
    by_cases h : g ≤ s.cnt.toNat
    · rw [State.drain_of_le g entry k s h, State.drain_of_le g entry k (s.withInputs xs) h]
      exact ih ((s.extractRest g).emit (entry (s.extractValue g)))
    · rw [State.drain_of_lt g entry (k + 1) s (not_le.mp h),
        State.drain_of_lt g entry (k + 1) (s.withInputs xs) (not_le.mp h)]

theorem State.feedByte_withInputs (b : Byte) :
    (s.withInputs xs).feedByte b = (s.feedByte b).withInputs xs :=
  State.drain_withInputs _ _ _ (s.append 8 (b.setWidth 18))

theorem State.feedValue_withInputs (v : Value) :
    (s.withInputs xs).feedValue v = (s.feedValue v).withInputs xs :=
  congrArg (fun u : State => { u with nsym := s.nsym + 1 })
    (State.drain_withInputs _ _ _ (s.append 18 v))

theorem State.flushPartial_withInputs (s : State) :
    (s.withInputs xs).flushPartial = s.flushPartial.withInputs xs := by
  unfold State.flushPartial
  rw [apply_ite (State.withInputs xs)]
  rfl

theorem State.finishEncode_withInputs :
    (s.withInputs xs).finishEncode = s.finishEncode.withInputs xs :=
  congrArg (fun u : State => { u.clear with mode := .done }) s.writeHeader.flushPartial_withInputs

theorem State.stripPadding_withInputs (s : State) :
    (s.withInputs xs).stripPadding = s.stripPadding.withInputs xs := by
  unfold State.stripPadding
  rw [apply_ite (State.withInputs xs)]
  rfl

theorem State.finishDecode_withInputs :
    (s.withInputs xs).finishDecode = s.finishDecode.withInputs xs :=
  congrArg (fun u : State => { u.clear with mode := .done }) s.stripPadding_withInputs

theorem State.acceptHeader_withInputs (cp : CodePoint) :
    (s.withInputs xs).acceptHeader cp = (s.acceptHeader cp).withInputs xs := by
  simp only [State.acceptHeader, State.withInputs_config]
  cases symbolToValue s.config cp with
  | error e => rfl
  | ok v => dsimp only; split <;> rfl

theorem State.acceptPayload_withInputs (cp : CodePoint) :
    (s.withInputs xs).acceptPayload cp = (s.acceptPayload cp).withInputs xs := by
  simp only [State.acceptPayload, State.withInputs_config]
  cases symbolToValue s.config cp with
  | error e => rfl
  | ok v => exact faultIf_withInputs (State.feedValue_withInputs v)

end

/-- Every command answers a next state, and the same one whatever the host has issued behind it. -/
theorem exec_withInputs (i : Instr) (s : State) :
    ∃ t, exec i s = .next t ∧ ∀ xs, exec i (s.withInputs xs) = .next (t.withInputs xs) := by
  cases i with
  | accClr => exact ⟨_, rfl, fun xs => unlessFaulted_withInputs (faultIf_withInputs rfl)⟩
  | accApp n chunk =>
    exact ⟨_, rfl, fun xs => unlessFaulted_withInputs (faultIf_withInputs (faultIf_withInputs rfl))⟩
  | accExt m =>
    exact ⟨_, rfl, fun xs => unlessFaulted_withInputs (faultIf_withInputs (faultIf_withInputs rfl))⟩
  | encStart => exact ⟨_, rfl, fun xs => unlessFaulted_withInputs rfl⟩
  | encByte b =>
    exact ⟨_, rfl, fun xs => unlessFaulted_withInputs
      (faultIf_withInputs (faultIf_withInputs (State.feedByte_withInputs b)))⟩
  | encFinish =>
    exact ⟨_, rfl, fun xs => unlessFaulted_withInputs
      (faultIf_withInputs (faultIf_withInputs State.finishEncode_withInputs))⟩
  | decStart => exact ⟨_, rfl, fun xs => unlessFaulted_withInputs rfl⟩
  | decSym cp =>
    refine ⟨_, rfl, fun xs => unlessFaulted_withInputs ?_⟩
    rw [State.withInputs_mode]
    cases s.mode with
    | decHdr => exact State.acceptHeader_withInputs cp
    | decPay => exact State.acceptPayload_withInputs cp
    | idle | enc | done | derr | fault => rfl
  | decFinish =>
    refine ⟨_, rfl, fun xs => unlessFaulted_withInputs ?_⟩
    rw [State.withInputs_mode]
    cases s.mode with
    | decPay => exact State.finishDecode_withInputs
    | idle | enc | decHdr | done | derr | fault => rfl

theorem exec_resetAsserted_eq {i : Instr} {s t : State} (h : exec i s = .next t) :
    t.resetAsserted = s.resetAsserted := by
  by_cases hs : s.mode = .fault
  · rw [exec_of_fault i s hs] at h
    cases h; rfl
  · exact (effect_of_exec hs h).resetAsserted_eq

/-- A step that takes the word of a well-formed command runs that command. -/
theorem step_of_issued_command {s : State} {i : Instr} {rest : List HostInput} (hi : i.WellFormed)
    (hr : s.resetAsserted = false) (h : s.inputs = .command (encode i) :: rest) :
    step s = exec i (s.withInputs rest) :=
  (step_of_inputs_cons h).trans
    (acceptInput_command_of_decode (s := s.withInputs rest) hr (decode_encode hi))

/-! ## Which entries are defined -/

theorem State.definedFrom.read_isSome_iff {s : State} {first : Nat} (hd : s.definedFrom first)
    (i : Nat) : (s.out.read i).isSome = true ↔ first ≤ i ∧ i < s.outLen.toNat := by
  rw [Memory.read_isSome_iff, show s.out.map Prod.fst = _ from hd, List.mem_range'_1]
  omega

/-- In every MODE the defined entries begin at index 0 or at index 1. -/
theorem State.Inv.definedFrom_zero_or_one {s : State} (h : s.Inv) :
    s.definedFrom 0 ∨ s.definedFrom 1 := by
  by_cases he : s.mode = .enc
  · exact .inr (h.definedEnc he)
  · by_cases hf : s.mode = .fault
    · exact h.definedFault hf
    · exact .inl (h.defined he hf)

/-! ## The OUT read port -/

theorem acceptInput_readOut_of_read {s : State} {index : Word} {v : CodePoint}
    (hm : s.mode = .done) (hi : index.toNat < s.outLen.toNat)
    (hv : s.out.read index.toNat = some v) :
    acceptInput (.readOut index) s = .next { s with hostData := some (v.setWidth 32) } := by
  simp [acceptInput, acceptReadOut, State.readOutPort, hm, hi, hv]

theorem acceptInput_readOut_of_undefined {s : State} {index : Word}
    (h : ¬ (s.mode = .done ∧ index.toNat < s.outLen.toNat)) :
    acceptInput (.readOut index) s = .refused (.undefinedOutRead index) := by
  simp only [acceptInput, acceptReadOut, State.readOutPort, if_neg h]

end Sys2Proof.Machine

namespace Sys2Proof.Proofs
open Sys2Proof Sys2Proof.Machine

/-! ## The statements -/

/-- Settles O7: a step takes the oldest input, and a command word runs what it decodes to. -/
theorem stepRunsTheDecodedCommand : Obligations.StepRunsTheDecodedCommand := by
  refine ⟨fun s w rest i h hr hd => ?_, fun s x rest h => step_of_inputs_cons h⟩
  rw [step_of_inputs_cons h]
  exact acceptInput_command_of_decode hr hd

/-- Settles O15: in DONE the invariant gives every index below OUTLEN an entry. -/
theorem outReadPortReturnsDefinedEntries : Obligations.OutReadPortReturnsDefinedEntries := by
  refine fun s index h => ⟨fun hm hi => ?_, acceptInput_readOut_of_undefined⟩
  have hd : s.definedFrom 0 := h.defined (by simp [hm]) (by simp [hm])
  obtain ⟨v, hv⟩ := Option.isSome_iff_exists.mp
    ((hd.read_isSome_iff index.toNat).mpr ⟨Nat.zero_le _, hi⟩)
  exact ⟨v, hv, acceptInput_readOut_of_read hm hi hv⟩

/-- Settles O17, by induction on the commands: each step takes one word, and the words behind it
change nothing of what its command does. -/
theorem issuedCommandsRunInOrder : Obligations.IssuedCommandsRunInOrder := by
  intro is rest s hwf hr hin
  induction is generalizing s with
  | nil =>
    obtain rfl : s.inputs = rest := hin
    rfl
  | cons i is ih =>
    rw [List.forall_mem_cons] at hwf
    obtain ⟨hi, his⟩ := hwf
    obtain ⟨t, ht, hbehind⟩ := exec_withInputs i s
    have hstep := (step_of_issued_command hi hr hin).trans (hbehind _)
    have hreset : t.resetAsserted = false := (exec_resetAsserted_eq ht).trans hr
    have hrun := ih (t.withInputs (is.map (fun j => .command (encode j)) ++ rest)) his hreset rfl
    exact (run_succ_of_step core is.length hstep).trans
      (hrun.trans (execAll_cons (hbehind rest)).symm)

/-- Settles O27: the invariant says from which index the entries of OUT are defined in each MODE. -/
theorem outEntriesDefinedBelowOutlen : Obligations.OutEntriesDefinedBelowOutlen := by
  intro s i h
  obtain ⟨first, hfirst, hd⟩ : ∃ first, first ≤ 1 ∧ s.definedFrom first :=
    h.definedFrom_zero_or_one.elim (fun hd => ⟨0, by omega, hd⟩) (fun hd => ⟨1, le_rfl, hd⟩)
  refine ⟨fun hi => ?_, fun hm => ?_, fun hi hne => ?_, fun hpos he hf => ?_⟩
  · rw [← Option.not_isSome_iff_eq_none, hd.read_isSome_iff]
    omega
  · rw [← Option.not_isSome_iff_eq_none, (h.definedEnc hm).read_isSome_iff]
    omega
  · exact (hd.read_isSome_iff i).mpr ⟨by omega, hi⟩
  · exact ((h.defined he hf).read_isSome_iff 0).mpr ⟨le_rfl, hpos⟩

end Sys2Proof.Proofs
end

section
/-! PROOFS. The encoding (30_encoding.md): decoding and encoding are inverse to each other (R64 to
R66), the decoder accepts exactly the words of the match and mask table (R67, R68), and what the
engine does with a word follows its opcode (R69). -/

namespace Sys2Proof

/-! ## A word is assembled from the fields its command uses -/

theorem unusedZero_iff (usesNm : Bool) (used : Nat) (w : Word) :
    unusedZero usesNm used w = true ↔
      rsvField w = 0 ∧ (usesNm = true ∨ nmField w = 0) ∧ dataField w >>> used = 0 := by
  simp [unusedZero, and_assoc]

/-- No bit at position `k` or above is set exactly when the low `k` bits are the whole value. -/
theorem setWidth_setWidth_of_ushiftRight_eq_zero {n : Nat} (k : Nat) (v : BitVec n)
    (h : v >>> k = 0) : (v.setWidth k).setWidth n = v := by
  refine BitVec.eq_of_getLsbD_eq fun i hi => ?_
  by_cases hk : i < k
  · simp [hi, hk]
  · have hbit : v.getLsbD i = false := by
      simpa [show k + (i - k) = i by omega] using congrArg (fun u => u.getLsbD (i - k)) h
    simp [hk, hbit]

theorem setWidth_setWidth_zero {m n : Nat} (v : BitVec m) : (v.setWidth 0).setWidth n = 0 := by
  ext
  simp

/-- A word that has only the bits its command uses is its opcode and the used part of each field. -/
theorem cmd32_of_unusedZero {usesNm : Bool} {used : Nat} {w : Word}
    (h : unusedZero usesNm used w = true) :
    cmd32 (opcField w) (if usesNm then nmField w else 0)
      (((dataField w).setWidth used).setWidth 21) = w := by
  obtain ⟨hrsv, hnm, hdata⟩ := (unusedZero_iff usesNm used w).mp h
  have hnm' : (if usesNm then nmField w else 0) = nmField w := by
    rcases hnm with rfl | hnm
    · rfl
    · simp [hnm]
  rw [hnm', setWidth_setWidth_of_ushiftRight_eq_zero used _ hdata, cmd32_of_fields w hrsv]

theorem setWidth_dataField_chunk (w : Word) : (dataField w).setWidth 18 = chunkField w := by
  refine BitVec.eq_of_getLsbD_eq fun i hi => ?_
  simp [dataField, chunkField, hi, show i < 21 by omega]

theorem setWidth_dataField_byte (w : Word) : (dataField w).setWidth 8 = byteField w := by
  refine BitVec.eq_of_getLsbD_eq fun i hi => ?_
  simp [dataField, byteField, hi, show i < 21 by omega]

/-! ## The opcodes (30_encoding.md R65, R68) -/

/-- The opcodes no command has (30_encoding.md R68). -/
abbrev illegalOpcodes : List (BitVec 4) := [0x0, 0x7, 0xB, 0xC, 0xD, 0xE, 0xF]

/-- The opcodes of the commands without an operand (30_encoding.md R65). -/
abbrev plainOpcodes : List (BitVec 4) := [0x1, 0x4, 0x6, 0x8, 0xA]

theorem plainOpcodes_distinct : ∀ opc ∈ plainOpcodes,
    opc ∉ illegalOpcodes ∧ opc ≠ 0x2 ∧ opc ≠ 0x3 ∧ opc ≠ 0x5 ∧ opc ≠ 0x9 := by
  decide

/-- Every opcode is one of the seven illegal ones, one of the five without an operand, or one of the
four with operands (30_encoding.md R65, R68). -/
theorem opcode_cases : ∀ opc : BitVec 4,
    opc ∈ illegalOpcodes ∨ opc ∈ plainOpcodes ∨ opc = 0x2 ∨ opc = 0x3 ∨ opc = 0x5 ∨ opc = 0x9 := by
  decide

/-! ## What the decoder accepts, opcode by opcode -/

section
variable {w : Word} {i : Instr}

theorem decode_of_illegalOpcode (h : opcField w ∈ illegalOpcodes) : decode w = .error .opcode := by
  simp only [List.mem_cons, List.not_mem_nil, or_false] at h
  rcases h with h | h | h | h | h | h | h <;> simp [decode, h]

/-- A command without an operand has one word, whose fields behind the opcode are 0. -/
theorem decode_of_plainOpcode (h : opcField w ∈ plainOpcodes) :
    ∃ p : Instr, p.WellFormed ∧ opcField w = p.opcode ∧ encode p = cmd32 p.opcode 0 0 ∧
      decode w = decodePlain p w := by
  simp only [List.mem_cons, List.not_mem_nil, or_false] at h
  rcases h with h | h | h | h | h
  · exact ⟨.accClr, rfl, h, rfl, by simp [decode, h]⟩
  · exact ⟨.encStart, rfl, h, rfl, by simp [decode, h]⟩
  · exact ⟨.encFinish, rfl, h, rfl, by simp [decode, h]⟩
  · exact ⟨.decStart, rfl, h, rfl, by simp [decode, h]⟩
  · exact ⟨.decFinish, rfl, h, rfl, by simp [decode, h]⟩

theorem decodePlain_eq_ok_iff {p : Instr} :
    decodePlain p w = .ok i ↔ unusedZero false 0 w = true ∧ p = i := by
  unfold decodePlain
  split <;> simp_all

theorem decode_eq_ok_iff_of_accApp (h : opcField w = 0x2) :
    decode w = .ok i ↔ unusedZero true 18 w = true ∧ (nmField w).wf ∧
      (chunkField w).toNat < 2 ^ (nmField w).toNat ∧ .accApp (nmField w) (chunkField w) = i := by
  have hd : decode w = decodeAccApp w := by simp [decode, h]
  rw [hd, decodeAccApp]
  split
  · simp_all
  · split
    · simp_all
    · split <;> simp_all [GroupSize.wf]

theorem decode_eq_ok_iff_of_accExt (h : opcField w = 0x3) :
    decode w = .ok i ↔ unusedZero true 0 w = true ∧ (nmField w).wf ∧
      .accExt (nmField w) = i := by
  have hd : decode w = decodeAccExt w := by simp [decode, h]
  rw [hd, decodeAccExt]
  split
  · simp_all
  · split <;> simp_all [GroupSize.wf]

theorem decode_eq_ok_iff_of_encByte (h : opcField w = 0x5) :
    decode w = .ok i ↔ unusedZero false 8 w = true ∧ .encByte (byteField w) = i := by
  have hd : decode w = decodeEncByte w := by simp [decode, h]
  rw [hd, decodeEncByte]
  split <;> simp_all

theorem decode_eq_ok_iff_of_decSym (h : opcField w = 0x9) :
    decode w = .ok i ↔ unusedZero false 21 w = true ∧ .decSym (dataField w) = i := by
  have hd : decode w = decodeDecSym w := by simp [decode, h]
  rw [hd, decodeDecSym]
  split <;> simp_all

/-! ## The word of what was decoded -/

/-- A word with a command's opcode and only the bits it uses is the command's word, when the
operands are those bits. -/
theorem encode_eq_of_unusedZero {usesNm : Bool} {used : Nat} (hu : unusedZero usesNm used w = true)
    (hopc : opcField w = i.opcode)
    (henc : encode i = cmd32 i.opcode (if usesNm then nmField w else 0)
      (((dataField w).setWidth used).setWidth 21)) : encode i = w := by
  rw [henc, ← hopc, cmd32_of_unusedZero hu]

/-- What a word decodes to is well formed and encodes to the word. -/
theorem wellFormed_and_encode_eq_of_decode (h : decode w = .ok i) :
    i.WellFormed ∧ encode i = w := by
  rcases opcode_cases (opcField w) with hopc | hopc | hopc | hopc | hopc | hopc
  · simp [decode_of_illegalOpcode hopc] at h
  · obtain ⟨p, hp, hopc, henc, hd⟩ := decode_of_plainOpcode hopc
    obtain ⟨hu, rfl⟩ := decodePlain_eq_ok_iff.mp (hd.symm.trans h)
    exact ⟨hp, encode_eq_of_unusedZero hu hopc (by rw [setWidth_setWidth_zero]; exact henc)⟩
  · obtain ⟨hu, hn, hc, rfl⟩ := (decode_eq_ok_iff_of_accApp hopc).mp h
    exact ⟨decide_eq_true ⟨hn, hc⟩, encode_eq_of_unusedZero hu hopc
      (by rw [setWidth_dataField_chunk]; rfl)⟩
  · obtain ⟨hu, hn, rfl⟩ := (decode_eq_ok_iff_of_accExt hopc).mp h
    exact ⟨decide_eq_true hn, encode_eq_of_unusedZero hu hopc
      (by rw [setWidth_setWidth_zero]; rfl)⟩
  · obtain ⟨hu, rfl⟩ := (decode_eq_ok_iff_of_encByte hopc).mp h
    exact ⟨rfl, encode_eq_of_unusedZero hu hopc (by rw [setWidth_dataField_byte]; rfl)⟩
  · obtain ⟨hu, rfl⟩ := (decode_eq_ok_iff_of_decSym hopc).mp h
    exact ⟨rfl, encode_eq_of_unusedZero hu hopc (by simp [encode])⟩

theorem decode_eq_ok_iff : decode w = .ok i ↔ i.WellFormed ∧ encode i = w :=
  ⟨wellFormed_and_encode_eq_of_decode, fun ⟨hi, he⟩ => he ▸ decode_encode hi⟩

end

/-! ## The match and mask table (30_encoding.md R66) -/

/-- A mask of the positions from `k` up finds no bit exactly when a shift past them leaves none. -/
theorem and_allOnes_shiftLeft_eq_zero_iff {n : Nat} (k : Nat) (v : BitVec n) :
    v &&& BitVec.allOnes n <<< k = 0 ↔ v >>> k = 0 := by
  constructor <;> intro h <;> refine BitVec.eq_of_getLsbD_eq fun i hi => ?_
  · by_cases hki : k + i < n
    · simpa [hki] using congrArg (fun u => u.getLsbD (k + i)) h
    · simp [BitVec.getLsbD_of_ge v (k + i) (by omega)]
  · by_cases hik : i < k
    · simp [hik]
    · have hbit : v.getLsbD i = false := by
        simpa [show k + (i - k) = i by omega] using congrArg (fun u => u.getLsbD (i - k)) h
      simp [hbit]

theorem opcField_and (v w : Word) : opcField (v &&& w) = opcField v &&& opcField w :=
  BitVec.extractLsb'_and
theorem nmField_and (v w : Word) : nmField (v &&& w) = nmField v &&& nmField w :=
  BitVec.extractLsb'_and
theorem rsvField_and (v w : Word) : rsvField (v &&& w) = rsvField v &&& rsvField w :=
  BitVec.extractLsb'_and
theorem dataField_and (v w : Word) : dataField (v &&& w) = dataField v &&& dataField w :=
  BitVec.extractLsb'_and

/-- A word is an assembled word exactly when its fields are the ones that were assembled. -/
theorem eq_cmd32_iff (opc : BitVec 4) (nm : GroupSize) (data : BitVec 21) (w : Word) :
    w = cmd32 opc nm data ↔
      opcField w = opc ∧ nmField w = nm ∧ rsvField w = 0 ∧ dataField w = data := by
  constructor
  · rintro rfl
    simp
  · rintro ⟨rfl, rfl, hrsv, rfl⟩
    exact (cmd32_of_fields w hrsv).symm

/-- The row of the opcode `opc` that fixes to 0 the bits of RSV, of NM unless the command uses it,
and of DATA from position `used` up. -/
def OpcodeRow.ofFields (opc : BitVec 4) (usesNm : Bool) (used : Nat) (c : ValueConstraint) :
    OpcodeRow :=
  { matchBits := cmd32 opc 0 0
    mask := cmd32 0xF (if usesNm then 0 else 0x1F) (BitVec.allOnes 21 <<< used) ||| 0x600000
    constraint := c }

section
variable (opc : BitVec 4) (usesNm : Bool) (used : Nat) (c : ValueConstraint)

/-- The bits a row fixes, field by field. -/
theorem fields_mask_ofFields :
    let mask := (OpcodeRow.ofFields opc usesNm used c).mask
    opcField mask = 0xF ∧ nmField mask = (if usesNm then 0 else 0x1F) ∧ rsvField mask = 0x3 ∧
      dataField mask = BitVec.allOnes 21 <<< used :=
  ⟨BitVec.extractLsb'_or.trans (congrArg (· ||| _) (opcField_cmd32 _ _ _)),
    BitVec.extractLsb'_or.trans ((congrArg (· ||| _) (nmField_cmd32 _ _ _)).trans BitVec.or_zero),
    BitVec.extractLsb'_or.trans (congrArg (· ||| _) (rsvField_cmd32 _ _ _)),
    BitVec.extractLsb'_or.trans ((congrArg (· ||| _) (dataField_cmd32 _ _ _)).trans BitVec.or_zero)⟩

/-- A word fits a row exactly when it has the row's opcode and only the bits its command uses. -/
theorem fits_ofFields_iff (w : Word) :
    (OpcodeRow.ofFields opc usesNm used c).fits w = true ↔
      opcField w = opc ∧ unusedZero usesNm used w = true := by
  obtain ⟨hopc, hnm, hrsv, hdata⟩ := fields_mask_ofFields opc usesNm used c
  have hnmBits : nmField w &&& (if usesNm then 0 else 0x1F) = 0 ↔
      usesNm = true ∨ nmField w = 0 := by
    cases usesNm
    · simpa using Iff.of_eq (congrArg (· = 0) (BitVec.and_allOnes (x := nmField w)))
    · simp
  have hrsvBits : rsvField w &&& 0x3 = rsvField w := BitVec.and_allOnes
  have hopcBits : opcField w &&& 0xF = opcField w := BitVec.and_allOnes
  calc (OpcodeRow.ofFields opc usesNm used c).fits w = true
      ↔ w &&& (OpcodeRow.ofFields opc usesNm used c).mask = cmd32 opc 0 0 := beq_iff_eq
    _ ↔ opcField w = opc ∧ (usesNm = true ∨ nmField w = 0) ∧ rsvField w = 0 ∧
          dataField w >>> used = 0 := by
        rw [eq_cmd32_iff, opcField_and, nmField_and, rsvField_and, dataField_and, hopc, hnm, hrsv,
          hdata, hopcBits, hnmBits, hrsvBits, and_allOnes_shiftLeft_eq_zero_iff]
    _ ↔ opcField w = opc ∧ unusedZero usesNm used w = true := by
        rw [unusedZero_iff]
        tauto

end

/-! ## Legal words (30_encoding.md R67) -/

/-- Every mask covers OPC, so a word that fits a row has the row's opcode. -/
theorem opcField_of_fits {r : OpcodeRow} (hr : r ∈ opcodeRows) {w : Word}
    (hrw : w &&& r.mask = r.matchBits) : opcField w = opcField r.matchBits := by
  have hmask : ∀ p ∈ opcodeRows, opcField p.mask = BitVec.allOnes 4 := by decide
  rw [← hrw, opcField_and, hmask r hr, BitVec.and_allOnes]

theorem opcodeRow_eq_of_opcField_eq : ∀ r ∈ opcodeRows, ∀ q ∈ opcodeRows,
    opcField r.matchBits = opcField q.matchBits → r = q := by
  decide

theorem opcodeRow_unique {r q : OpcodeRow} (hr : r ∈ opcodeRows) (hq : q ∈ opcodeRows) {w : Word}
    (hrw : w &&& r.mask = r.matchBits) (hqw : w &&& q.mask = q.matchBits) : r = q :=
  opcodeRow_eq_of_opcField_eq r hr q hq
    ((opcField_of_fits hr hrw).symm.trans (opcField_of_fits hq hqw))

theorem legal_eq_holds_of_fits {r : OpcodeRow} (hr : r ∈ opcodeRows) {w : Word}
    (hrw : w &&& r.mask = r.matchBits) : legal w = r.constraint.holds w := by
  unfold legal
  cases hfind : opcodeRows.find? (fun row => row.fits w) with
  | none => exact absurd (beq_iff_eq.mpr hrw) (List.find?_eq_none.mp hfind r hr)
  | some q =>
    have hqw : q.fits w = true := List.find?_some (p := fun p : OpcodeRow => p.fits w) hfind
    rw [opcodeRow_unique (List.mem_of_find?_eq_some hfind) hr (beq_iff_eq.mp hqw) hrw]

theorem legal_eq_false_of_no_fit {w : Word}
    (h : ∀ r ∈ opcodeRows, w &&& r.mask ≠ r.matchBits) : legal w = false := by
  have hfind : opcodeRows.find? (fun row => row.fits w) = none :=
    List.find?_eq_none.mpr fun r hr hfit => h r hr (beq_iff_eq.mp hfit)
  simp [legal, hfind]

/-- A word is legal exactly when it has only the bits that the row of its opcode leaves free, and
meets the row's constraint. -/
theorem legal_iff_of_opcField {opc : BitVec 4} {usesNm : Bool} {used : Nat} {c : ValueConstraint}
    (hr : OpcodeRow.ofFields opc usesNm used c ∈ opcodeRows) {w : Word} (hopc : opcField w = opc) :
    legal w = true ↔ unusedZero usesNm used w = true ∧ c.holds w = true := by
  have hfits := fits_ofFields_iff opc usesNm used c w
  rw [OpcodeRow.fits, beq_iff_eq] at hfits
  by_cases hu : unusedZero usesNm used w = true
  · rw [legal_eq_holds_of_fits hr (hfits.mpr ⟨hopc, hu⟩)]
    exact (and_iff_right hu).symm
  · have hno : ∀ q ∈ opcodeRows, w &&& q.mask ≠ q.matchBits := fun q hq hqw => by
      have hsame : opcField (cmd32 opc 0 0) = opcField q.matchBits := by
        rw [opcField_cmd32, ← hopc, opcField_of_fits hq hqw]
      rw [← opcodeRow_eq_of_opcField_eq _ hr q hq hsame] at hqw
      exact hu (hfits.mp hqw).2
    simp [legal_eq_false_of_no_fit hno, hu]

/-! ### Opcode by opcode -/

section
variable {w : Word}

theorem legal_eq_false_of_illegalOpcode (h : opcField w ∈ illegalOpcodes) : legal w = false := by
  have hrows : ∀ r ∈ opcodeRows, opcField r.matchBits ∉ illegalOpcodes := by decide
  exact legal_eq_false_of_no_fit fun r hr hrw => hrows r hr (opcField_of_fits hr hrw ▸ h)

theorem legal_iff_of_plainOpcode (h : opcField w ∈ plainOpcodes) :
    legal w = true ↔ unusedZero false 0 w = true := by
  have hrow : ∀ opc ∈ plainOpcodes, OpcodeRow.ofFields opc false 0 .any ∈ opcodeRows := by decide
  rw [legal_iff_of_opcField (hrow _ h) rfl]
  exact and_iff_left rfl

theorem legal_iff_of_accApp (h : opcField w = 0x2) :
    legal w = true ↔ unusedZero true 18 w = true ∧ (nmField w).wf ∧
      (chunkField w).toNat < 2 ^ (nmField w).toNat := by
  rw [legal_iff_of_opcField (usesNm := true) (used := 18) (c := .sizeAndChunk) (by decide) h]
  simp [ValueConstraint.holds, GroupSize.wf, and_assoc]

theorem legal_iff_of_accExt (h : opcField w = 0x3) :
    legal w = true ↔ unusedZero true 0 w = true ∧ (nmField w).wf := by
  rw [legal_iff_of_opcField (usesNm := true) (used := 0) (c := .size) (by decide) h]
  simp [ValueConstraint.holds, GroupSize.wf]

theorem legal_iff_of_encByte (h : opcField w = 0x5) :
    legal w = true ↔ unusedZero false 8 w = true := by
  rw [legal_iff_of_opcField (usesNm := false) (used := 8) (c := .any) (by decide) h]
  exact and_iff_left rfl

theorem legal_iff_of_decSym (h : opcField w = 0x9) :
    legal w = true ↔ unusedZero false 21 w = true := by
  rw [legal_iff_of_opcField (usesNm := false) (used := 21) (c := .any) (by decide) h]
  exact and_iff_left rfl

/-- The table and the decoder accept the same words (30_encoding.md R67). -/
theorem legal_iff_decodes : legal w = true ↔ ∃ i, decode w = .ok i := by
  rcases opcode_cases (opcField w) with h | h | h | h | h | h
  · simp [legal_eq_false_of_illegalOpcode h, decode_of_illegalOpcode h]
  · obtain ⟨p, -, -, -, hd⟩ := decode_of_plainOpcode h
    simp [legal_iff_of_plainOpcode h, hd, decodePlain_eq_ok_iff]
  · simp [legal_iff_of_accApp h, decode_eq_ok_iff_of_accApp h]
  · simp [legal_iff_of_accExt h, decode_eq_ok_iff_of_accExt h]
  · simp [legal_iff_of_encByte h, decode_eq_ok_iff_of_encByte h]
  · simp [legal_iff_of_decSym h, decode_eq_ok_iff_of_decSym h]

/-- The word of a well-formed command is legal, and no other word is. -/
theorem legal_iff_encodes : legal w = true ↔ ∃ i : Instr, i.WellFormed ∧ encode i = w := by
  simp only [legal_iff_decodes, decode_eq_ok_iff]

theorem not_decodes_of_illegal (h : legal w = false) (i : Instr) : decode w ≠ .ok i := fun hd =>
  Bool.false_ne_true (h.symm.trans (legal_iff_decodes.mpr ⟨i, hd⟩))

/-! ## Illegal words (30_encoding.md R68) -/

theorem ushiftRight_eq_zero_iff_lt {n : Nat} (k : Nat) (v : BitVec n) :
    v >>> k = 0 ↔ v.toNat < 2 ^ k := by
  rw [← BitVec.toNat_inj, BitVec.toNat_ushiftRight, Nat.shiftRight_eq_div_pow]
  exact Nat.div_eq_zero_iff_lt (Nat.two_pow_pos k)

/-- A value is 2^k or more exactly when it has a bit at position `k` or above. -/
theorem two_pow_le_iff_exists_getLsbD {n : Nat} (k : Nat) (v : BitVec n) :
    2 ^ k ≤ v.toNat ↔ ∃ j, k ≤ j ∧ j < n ∧ v.getLsbD j = true := by
  constructor
  · intro h
    obtain ⟨j, hj, hbit⟩ := Nat.exists_ge_and_testBit_of_ge_two_pow h
    exact ⟨j, hj, BitVec.lt_of_getLsbD hbit, hbit⟩
  · rintro ⟨j, hj, -, hbit⟩
    exact (Nat.pow_le_pow_right (by omega) hj).trans (Nat.ge_two_pow_of_testBit hbit)

/-- The illegal words by their opcode: each breaks what the row of its opcode asks for. -/
theorem legal_eq_false_iff : legal w = false ↔
    opcField w ∈ illegalOpcodes ∨
    (rsvField w ≠ 0 ∨
      (opcField w ∉ [0x2, 0x3] ∧ nmField w ≠ 0) ∨
      (opcField w = 0x2 ∧ 2 ^ 18 ≤ (dataField w).toNat) ∨
      (opcField w = 0x5 ∧ 2 ^ 8 ≤ (dataField w).toNat) ∨
      (opcField w ∉ [0x2, 0x5, 0x9] ∧ dataField w ≠ 0)) ∨
    (opcField w ∈ [0x2, 0x3] ∧ ((nmField w).toNat = 0 ∨ 18 < (nmField w).toNat)) ∨
    (opcField w = 0x2 ∧
      ∃ k, (nmField w).toNat ≤ k ∧ k < 18 ∧ (chunkField w).getLsbD k = true) := by
  rw [← Bool.not_eq_true, ← two_pow_le_iff_exists_getLsbD]
  rcases opcode_cases (opcField w) with h | h | h | h | h | h
  · simp [legal_eq_false_of_illegalOpcode h, h]
  · obtain ⟨hill, happ, hext, hbyte, hsym⟩ := plainOpcodes_distinct _ h
    rw [legal_iff_of_plainOpcode h, unusedZero_iff]
    simp only [hill, happ, hext, hbyte, hsym, List.mem_cons]
    simp [imp_iff_not_or]
  · rw [legal_iff_of_accApp h, unusedZero_iff, ushiftRight_eq_zero_iff_lt]
    simp [h, GroupSize.wf, imp_iff_not_or, or_assoc]
  · rw [legal_iff_of_accExt h, unusedZero_iff]
    simp [h, GroupSize.wf, imp_iff_not_or, or_assoc]
  · rw [legal_iff_of_encByte h, unusedZero_iff, ushiftRight_eq_zero_iff_lt]
    simp [h, imp_iff_not_or]
  · rw [legal_iff_of_decSym h, unusedZero_iff, BitVec.ushiftRight_eq_zero le_rfl]
    simp [h, imp_iff_not_or]

end

end Sys2Proof

namespace Sys2Proof.Machine

/-! ## What a word does (30_encoding.md R69) -/

section
variable {w : Word} {s : State}

theorem executeWord_of_fault (w : Word) (hs : s.mode = .fault) : executeWord w s = .next s := by
  unfold executeWord
  split
  · exact unlessFaulted_of_fault _ _ hs
  · exact exec_of_fault _ s hs

theorem executeWord_of_illegal (h : legal w = false) (hs : s.mode ≠ .fault) :
    executeWord w s = .next (s.raiseFault .illegalCommand) := by
  unfold executeWord
  split
  · exact unlessFaulted_of_running _ _ hs
  · next i hd => exact absurd hd (not_decodes_of_illegal h i)

theorem executeWord_encode {i : Instr} (hi : i.WellFormed) (s : State) :
    executeWord (encode i) s = exec i s := by
  simp only [executeWord, decode_encode hi]

/-- The legal words by opcode, each with the command it runs on its operand fields. -/
theorem executeWord_of_legal (h : legal w = true) (s : State) :
    (opcField w = 0x1 → executeWord w s = exec .accClr s) ∧
    (opcField w = 0x2 → executeWord w s = exec (.accApp (nmField w) (chunkField w)) s) ∧
    (opcField w = 0x3 → executeWord w s = exec (.accExt (nmField w)) s) ∧
    (opcField w = 0x4 → executeWord w s = exec .encStart s) ∧
    (opcField w = 0x5 → executeWord w s = exec (.encByte (byteField w)) s) ∧
    (opcField w = 0x6 → executeWord w s = exec .encFinish s) ∧
    (opcField w = 0x8 → executeWord w s = exec .decStart s) ∧
    (opcField w = 0x9 → executeWord w s = exec (.decSym (dataField w)) s) ∧
    (opcField w = 0xA → executeWord w s = exec .decFinish s) := by
  obtain ⟨i, hi, rfl⟩ := legal_iff_encodes.mp h
  rw [executeWord_encode hi]
  cases i <;> simp [encode, Instr.opcode]

end

/-! ## The word of an assembly line (30_encoding.md R75) -/

theorem toNat_cmd32 (opc : BitVec 4) (nm : GroupSize) (data : BitVec 21) :
    (cmd32 opc nm data).toNat = (opc.toNat <<< 28 ||| nm.toNat <<< 23) ||| data.toNat := by
  simp only [cmd32, BitVec.toNat_or, BitVec.toNat_shiftLeft, BitVec.toNat_setWidth,
    Nat.shiftLeft_eq]
  congr 1
  · congr 1 <;> omega
  · omega

theorem toNat_valueToSymbol {c : Config} (hc : c.wf) (v : Value) :
    (valueToSymbol c v).toNat = c.cpStart.toNat + v.toNat := by
  obtain ⟨-, hle, -⟩ := hc
  simp only [valueToSymbol, BitVec.toNat_add, BitVec.toNat_setWidth]
  omega

/-- The line names the command: the mnemonic is the command's, and the numbers of the line are its
operands (30_encoding.md R70, R75). -/
inductive AsmLine.Names (c : Config) : AsmLine → Instr → Prop where
  | accClr : Names c .accClr .accClr
  | accApp {n' : GroupSize} {chunk' : Value} {n chunk : Nat} (hn : n'.toNat = n)
      (hchunk : chunk'.toNat = chunk) (hi : (Instr.accApp n' chunk').WellFormed) :
      Names c (.accApp n chunk) (.accApp n' chunk')
  | accExt {m' : GroupSize} {m : Nat} (hm : m'.toNat = m) (hi : (Instr.accExt m').WellFormed) :
      Names c (.accExt m) (.accExt m')
  | encStart : Names c .encStart .encStart
  | encByte {b' : Byte} {b : Nat} (hb : b'.toNat = b) : Names c (.encByte b) (.encByte b')
  | encFinish : Names c .encFinish .encFinish
  | decStart : Names c .decStart .decStart
  | decSym {cp' : CodePoint} {cp : Nat} (hcp : cp'.toNat = cp) : Names c (.decSym cp) (.decSym cp')
  | decSymOf {v' : Value} {v : Nat} (hv : v'.toNat = v) :
      Names c (.decSymOf v) (.decSym (valueToSymbol c v'))
  | decFinish : Names c .decFinish .decFinish

section
variable {c : Config} {l : AsmLine} {i : Instr} {w : Word}

theorem AsmLine.names_of_command (h : l.command c = some i) : AsmLine.Names c l i := by
  cases l with
  | accApp n chunk =>
    obtain ⟨⟨h1, h18, hchunk⟩, ⟨⟩⟩ := Option.ite_none_right_eq_some.mp h
    have hn : (BitVec.ofNat 5 n).toNat = n := Nat.mod_eq_of_lt (by omega)
    have hc : (BitVec.ofNat 18 chunk).toNat = chunk :=
      Nat.mod_eq_of_lt (hchunk.trans_le (Nat.pow_le_pow_right (by omega) h18))
    exact .accApp hn hc (decide_eq_true (by rw [GroupSize.wf, hn, hc]; exact ⟨⟨h1, h18⟩, hchunk⟩))
  | accExt m =>
    obtain ⟨hwf, ⟨⟩⟩ := Option.ite_none_right_eq_some.mp h
    have hm : (BitVec.ofNat 5 m).toNat = m := Nat.mod_eq_of_lt (by omega)
    exact .accExt hm (decide_eq_true (by rwa [GroupSize.wf, hm]))
  | encByte b =>
    obtain ⟨hb, ⟨⟩⟩ := Option.ite_none_right_eq_some.mp h
    exact .encByte (Nat.mod_eq_of_lt hb)
  | decSym cp =>
    obtain ⟨hcp, ⟨⟩⟩ := Option.ite_none_right_eq_some.mp h
    exact .decSym (Nat.mod_eq_of_lt hcp)
  | decSymOf v =>
    obtain ⟨hv, ⟨⟩⟩ := Option.ite_none_right_eq_some.mp h
    exact .decSymOf (Nat.mod_eq_of_lt (by omega))
  | accClr | encStart | encFinish | decStart | decFinish => cases h; constructor

theorem AsmLine.Names.wellFormed (h : AsmLine.Names c l i) : i.WellFormed := by
  cases h with
  | accApp hn hchunk hi => exact hi
  | accExt hm hi => exact hi
  | _ => rfl

theorem AsmLine.names_of_assemble (h : l.assemble c = some w) :
    ∃ i, l.command c = some i ∧ AsmLine.Names c l i ∧ encode i = w := by
  obtain ⟨i, hi, he⟩ := Option.map_eq_some_iff.mp h
  exact ⟨i, hi, names_of_command hi, he⟩

/-- The shorthand `DEC_SYM S(v)` is the line of the code point CP_START + v. -/
theorem AsmLine.assemble_decSymOf (hc : c.wf) {v : Nat} (hv : v ≤ 262143) :
    (AsmLine.decSymOf v).assemble c = (AsmLine.decSym (c.cpStart.toNat + v)).assemble c := by
  have hfit : c.cpStart.toNat + v < 2 ^ 21 := by
    obtain ⟨-, hle, -⟩ := hc
    omega
  have hvalue : (BitVec.ofNat 18 v).toNat = v := Nat.mod_eq_of_lt (by omega)
  have hcp : valueToSymbol c (BitVec.ofNat 18 v) = BitVec.ofNat 21 (c.cpStart.toNat + v) := by
    refine BitVec.eq_of_toNat_eq ?_
    rw [toNat_valueToSymbol hc, hvalue]
    exact (Nat.mod_eq_of_lt hfit).symm
  simp only [assemble, command, if_pos hv, if_pos hfit, hcp]

end

end Sys2Proof.Machine

namespace Sys2Proof.Proofs
open Sys2Proof Sys2Proof.Machine

/-! ## The statements -/

/-- Settles O1: the twelve legal words by computation; the others are in no row or break its
constraint. -/
theorem specExampleWordsDecode : Obligations.SpecExampleWordsDecode :=
  ⟨rfl, rfl, rfl, rfl, rfl, rfl, rfl, rfl, rfl, rfl, rfl, rfl, not_decodes_of_illegal (by decide),
    not_decodes_of_illegal (by decide), not_decodes_of_illegal (by decide)⟩

/-- Settles O2: encoding leaves 0 the fields that the decoder wants 0, and keeps the operands in the
fields it reads them from. -/
theorem decodeOfEncodeIsIdentity : Obligations.DecodeOfEncodeIsIdentity := fun _ => decode_encode

/-- Settles O3: a decoded word has its command's opcode and no bit outside the operands. -/
theorem encodeOfDecodeIsIdentity : Obligations.EncodeOfDecodeIsIdentity := fun _ _ =>
  wellFormed_and_encode_eq_of_decode

/-- Settles O4: each clause is a fact about the table, and the last compares it with the decoder. -/
theorem decodeAcceptsExactlyLegalWords : Obligations.DecodeAcceptsExactlyLegalWords := by
  refine ⟨fun _ _ _ hr hq => opcodeRow_unique hr hq, by decide, fun w hw => ?_, fun w hw => ?_,
    fun w hw => ?_, fun _ => legal_eq_false_of_no_fit, fun _ => legal_iff_decodes⟩
  · rw [legal_eq_holds_of_fits (r := ⟨0x20000000, 0xF07C0000, .sizeAndChunk⟩) (by decide) hw]
    exact decide_eq_true_iff
  · rw [legal_eq_holds_of_fits (r := ⟨0x30000000, 0xF07FFFFF, .size⟩) (by decide) hw]
    exact decide_eq_true_iff
  · rcases hw with hw | hw | hw
    · have hplain :
          [0x10000000, 0x40000000, 0x60000000, 0x80000000, 0xA0000000].all legal = true := by decide
      exact List.all_eq_true.mp hplain w hw
    · exact legal_eq_holds_of_fits (r := ⟨0x50000000, 0xFFFFFF00, .any⟩) (by decide) hw
    · exact legal_eq_holds_of_fits (r := ⟨0x90000000, 0xFFE00000, .any⟩) (by decide) hw

/-- Settles O5: the illegal words by opcode, each of which is no command. -/
theorem illegalWordsRaiseIllegalCommand : Obligations.IllegalWordsRaiseIllegalCommand :=
  ⟨fun _ => legal_eq_false_iff, fun _ _ => executeWord_of_illegal⟩

/-- Settles O6: a legal word is the word of its command, whose fields are the operands. -/
theorem executeDispatchesByOpcode : Obligations.ExecuteDispatchesByOpcode := fun w s =>
  ⟨executeWord_of_fault w, fun hs h => executeWord_of_illegal h hs,
    fun h => executeWord_of_legal h s⟩

/-- Settles O8: an accepted line names a well-formed command, whose word is assembled from the
line's numbers. -/
theorem assembledLinesDecode : Obligations.AssembledLinesDecode := by
  refine ⟨fun c l w hc h => ?_, fun c l w h => ?_, fun c l => ?_, fun c v hc hv => ?_⟩
  · obtain ⟨i, -, hnames, rfl⟩ := AsmLine.names_of_assemble h
    cases hnames with
    | @accApp _ chunk' _ _ hn hchunk =>
      have hdata : (chunk'.setWidth 21).toNat = chunk'.toNat :=
        BitVec.toNat_setWidth_of_le (by omega)
      simp only [encode, Instr.opcode, toNat_cmd32, hdata, hn, hchunk]
      rfl
    | accExt hm => simp [encode, Instr.opcode, toNat_cmd32, hm]
    | @encByte b' _ hb =>
      have hdata : (b'.setWidth 21).toNat = b'.toNat := BitVec.toNat_setWidth_of_le (by omega)
      simp only [encode, Instr.opcode, toNat_cmd32, hdata, hb]
      rfl
    | decSym hcp => simp [encode, Instr.opcode, toNat_cmd32, hcp]
    | decSymOf hv => simp [encode, Instr.opcode, toNat_cmd32, toNat_valueToSymbol hc, hv]
    | accClr | encStart | encFinish | decStart | decFinish =>
      simp [encode, Instr.opcode, toNat_cmd32]
  · obtain ⟨i, hi, hnames, rfl⟩ := AsmLine.names_of_assemble h
    refine ⟨i, hi, hnames.wellFormed, decode_encode hnames.wellFormed, ?_⟩
    cases hnames with
    | accApp hn hchunk => exact ⟨_, _, rfl, hn, hchunk⟩
    | accExt hn | encByte hn | decSym hn | decSymOf hn => exact ⟨_, rfl, hn⟩
    | accClr | encStart | encFinish | decStart | decFinish => rfl
  · rw [AsmLine.assemble, Option.map_eq_none_iff]
    cases l with
    | encByte b =>
      simp only [AsmLine.command, ite_eq_right_iff, reduceCtorEq, imp_false]
      omega
    | _ => simp [AsmLine.command]
  · exact AsmLine.assemble_decSymOf hc hv

end Sys2Proof.Proofs
end

section
/-! PROOFS. The alphabet (40_alphabet.md): `value_to_symbol` and `symbol_to_value` are inverse to each
other (R78 to R83), and `encode(B)` emits nothing but symbols of the alphabet (R83). -/

namespace Sys2Proof.Machine

/-! ## The two functions are inverse (40_alphabet.md R83) -/

theorem inRange_iff (c : Config) (cp : CodePoint) :
    inRange c cp = true ↔
      c.cpStart.toNat ≤ cp.toNat ∧ cp.toNat ≤ c.cpStart.toNat + 262143 :=
  decide_eq_true_iff

/-- `symbol_to_value` inverts `value_to_symbol`, in both directions (R83): it answers `v` for S(v), and
for no other code point. -/
theorem symbolToValue_eq_ok_iff {c : Config} (hc : c.wf) {cp : CodePoint} {v : Value} :
    symbolToValue c cp = .ok v ↔ valueToSymbol c v = cp := by
  rcases symbolToValue_cases c cp with ⟨hr, e⟩ | ⟨hr, e⟩
  · have hle : c.cpStart.toNat ≤ cp.toNat := ((inRange_iff c cp).mp hr).1
    rw [e, Except.ok.injEq, ← BitVec.toNat_inj, ← BitVec.toNat_inj, symbolValue_toNat c cp hr,
      toNat_valueToSymbol hc]
    omega
  · have hne : valueToSymbol c v ≠ cp := by
      rintro rfl
      exact Bool.eq_false_iff.mp hr (inRange_valueToSymbol hc v)
    simp only [e, hne, reduceCtorEq]

/-- The code points in range are the symbols of the values (R78). -/
theorem exists_value_of_inRange {c : Config} (hc : c.wf) {cp : CodePoint} (h : inRange c cp = true) :
    ∃ v, symbolToValue c cp = .ok v ∧ valueToSymbol c v = cp := by
  rcases symbolToValue_cases c cp with ⟨-, e⟩ | ⟨hr, -⟩
  · exact ⟨_, e, (symbolToValue_eq_ok_iff hc).mp e⟩
  · exact absurd h (Bool.eq_false_iff.mp hr)

theorem symbolToValue_of_not_inRange {c : Config} {cp : CodePoint} (h : inRange c cp = false) :
    symbolToValue c cp = .error .invalidSymbol :=
  if_neg (Bool.eq_false_iff.mp h)

/-! ## What encoding emits (40_alphabet.md R83) -/

/-- Every symbol of `encode(B)` comes from `value_to_symbol` (R83): the header, the groups and the
flushed rest. -/
theorem Codec.exists_value_of_mem_encode {c : Config} {bytes : List Byte} {cp : CodePoint}
    (h : cp ∈ Codec.encode c bytes) : ∃ v, cp = valueToSymbol c v := by
  unfold Codec.encode at h
  split at h
  · exact ⟨_, List.mem_singleton.mp h⟩
  · rcases List.mem_append.mp h with h | hrest
    · rcases List.mem_append.mp h with hheader | hgroup
      · exact ⟨_, List.mem_singleton.mp hheader⟩
      · obtain ⟨_, -, rfl⟩ := List.mem_map.mp hgroup
        exact ⟨_, rfl⟩
    · split at hrest
      · exact ⟨_, List.mem_singleton.mp hrest⟩
      · exact absurd hrest List.not_mem_nil

end Sys2Proof.Machine

namespace Sys2Proof.Proofs
open Sys2Proof Sys2Proof.Machine

/-! ## The statements -/

/-- Settles O9: S(v) is CP_START + v without wrapping, and `symbol_to_value` is its inverse. -/
theorem alphabetMappingIsBijection : Obligations.AlphabetMappingIsBijection := fun c hc =>
  ⟨BitVec.add_zero c.cpStart, toNat_valueToSymbol hc 262143, inRange_iff c,
    fun v => ⟨inRange_valueToSymbol hc v, toNat_valueToSymbol hc v⟩,
    fun _ => (symbolToValue_eq_ok_iff hc).mpr rfl, fun _ => exists_value_of_inRange hc,
    fun _ => symbolToValue_of_not_inRange⟩

/-- Settles O47: every symbol of `encode(B)` is an S(v), which is in range. -/
theorem encodeEmitsOnlyAlphabetSymbols : Obligations.EncodeEmitsOnlyAlphabetSymbols := by
  intro c bytes hc cp hcp
  obtain ⟨v, rfl⟩ := Codec.exists_value_of_mem_encode hcp
  exact inRange_valueToSymbol hc v

end Sys2Proof.Proofs

end

section
/-! PROOFS. The accumulator (41_accumulator.md): its primitives as operations on the bit sequence it
holds (R84, R89 to R91), the FIFO law (R93), and the raw commands (R94 to R98). -/

namespace Sys2Proof.Machine

/-! ## Bit sequences (20_memory.md R53) -/

@[simp] theorem bitsOf_length (v n : Nat) : (bitsOf v n).length = n := by
  induction n with
  | zero => rfl
  | succ n ih => rw [bitsOf, List.length_cons, ih]

/-- Only the low `n` bits of a number are in its `n`-bit expansion. -/
theorem bitsOf_congr {a b n : Nat} (h : ∀ i < n, a.testBit i = b.testBit i) :
    bitsOf a n = bitsOf b n := by
  induction n with
  | zero => rfl
  | succ n ih => rw [bitsOf, bitsOf, h n n.lt_succ_self, ih fun i hi => h i (Nat.lt_succ_of_lt hi)]

@[simp] theorem bitsOf_zero_left (n : Nat) : bitsOf 0 n = List.replicate n false := by
  induction n with
  | zero => rfl
  | succ n ih => rw [bitsOf, ih, Nat.zero_testBit, List.replicate_succ]

/-- Shifting in a `k`-bit number puts its bits behind those of the other. -/
theorem bitsOf_mul_add (a n : Nat) {c k : Nat} (hc : c < 2 ^ k) :
    bitsOf (a * 2 ^ k + c) (n + k) = bitsOf a n ++ bitsOf c k := by
  have hbit (i : Nat) : (a * 2 ^ k + c).testBit i =
      if i < k then c.testBit i else a.testBit (i - k) := by
    rw [mul_comm, Nat.testBit_two_pow_mul_add a hc]
  induction n with
  | zero =>
    rw [Nat.zero_add]
    exact bitsOf_congr fun i hi => by rw [hbit, if_pos hi]
  | succ n ih =>
    rw [Nat.succ_add, bitsOf, ih, hbit, if_neg (by omega), Nat.add_sub_cancel]
    rfl

/-! ## The primitives on the bit sequence (R89 to R91) -/

section
variable {s : State}

theorem State.Inv.accOk (h : s.Inv) : s.AccOk := h.engineInv.accOk

/-- Append puts the chunk's bits behind those buffered (R89). -/
theorem State.AccOk.bits_append (h : s.AccOk) {n : Nat} {c : Value} (hn : s.cnt.toNat + n ≤ 32)
    (hc : c.toNat < 2 ^ n) : (s.append n c).bits = s.bits ++ bitsOf c.toNat n := by
  rw [State.bits, State.append_acc_toNat n c s h hn hc, State.append_cnt_toNat n c s hn]
  exact bitsOf_mul_add _ _ hc

/-- Extract splits the buffered bits: the value's bits, then those it leaves (R90). -/
theorem State.AccOk.bits_eq_extract (h : s.AccOk) {m : Nat} (hm : m ≤ s.cnt.toNat) (h18 : m ≤ 18) :
    bitsOf (s.extractValue m).toNat m ++ (s.extractRest m).bits = s.bits := by
  rw [State.bits, State.extractValue_toNat m s h hm h18, State.extractRest_acc_toNat m s h,
    State.extractRest_cnt_toNat m s hm, ← bitsOf_mul_add _ _ (Nat.mod_lt _ (Nat.two_pow_pos _)),
    Nat.div_add_mod', Nat.add_sub_cancel' hm, State.bits]

/-- Flush fills the buffered bits up with zeros (R91). -/
theorem State.AccOk.bitsOf_flushValue (h : s.AccOk) {g : Nat} (hg : s.cnt.toNat ≤ g) (h18 : g ≤ 18) :
    bitsOf (s.flushValue g).toNat g = s.bits ++ List.replicate (g - s.cnt.toNat) false := by
  have happ := bitsOf_mul_add s.acc.toNat s.cnt.toNat (Nat.two_pow_pos (g - s.cnt.toNat))
  rw [Nat.add_zero, Nat.add_sub_cancel' hg, bitsOf_zero_left] at happ
  rw [State.flushValue_toNat g s h hg h18, happ, State.bits]

/-- Flush is a zero chunk that fills the group, extracted with it (R98). -/
theorem State.AccOk.extractValue_append_zero (h : s.AccOk) {g n : Nat} (hn : s.cnt.toNat + n = g)
    (h18 : g ≤ 18) : (s.append n 0).extractValue g = s.flushValue g := by
  have hpos : (0 : Value).toNat < 2 ^ n := Nat.two_pow_pos n
  have hcnt := State.append_cnt_toNat n 0 s (by omega)
  apply BitVec.eq_of_toNat_eq
  rw [State.extractValue_toNat g _ (h.append n 0 (by omega) hpos) (by omega) h18, hcnt, hn,
    State.append_acc_toNat n 0 s h (by omega) hpos, State.flushValue_toNat g s h (by omega) h18,
    show g - s.cnt.toNat = n by omega]
  simp

/-! ## The FIFO law (R93) -/

@[simp] theorem AccCall.next_config (x : AccCall) (s : State) : (x.next s).config = s.config := by
  cases x <;> rfl

theorem State.AccOk.next (h : s.AccOk) (hcap : s.config.accCap ≤ 32) {x : AccCall} (hx : x.pre s) :
    (x.next s).AccOk := by
  cases x with
  | append n chunk =>
    obtain ⟨-, -, hchunk, hfit⟩ := hx
    exact h.append n chunk (le_trans hfit hcap) hchunk
  | extract m =>
    obtain ⟨-, -, hle⟩ := hx
    exact h.extractRest m hle

/-- The FIFO law for one call. -/
theorem State.AccOk.bits_next (h : s.AccOk) (hcap : s.config.accCap ≤ 32) {x : AccCall}
    (hx : x.pre s) : x.bitsOut s ++ (x.next s).bits = s.bits ++ x.bitsIn := by
  cases x with
  | append n chunk =>
    obtain ⟨-, -, hchunk, hfit⟩ := hx
    exact h.bits_append (le_trans hfit hcap) hchunk
  | extract m =>
    obtain ⟨-, h18, hle⟩ := hx
    rw [AccCall.bitsIn, List.append_nil]
    exact h.bits_eq_extract hle h18

theorem State.AccOk.bits_nextAll {calls : List AccCall} {s : State} (h : s.AccOk)
    (hcap : s.config.accCap ≤ 32) (hpre : AccCall.allPre s calls) :
    AccCall.bitsOutAll s calls ++ (AccCall.nextAll s calls).bits =
      s.bits ++ (calls.map AccCall.bitsIn).flatten := by
  induction calls generalizing s with
  | nil => simp [AccCall.bitsOutAll, AccCall.nextAll]
  | cons x rest ih =>
    obtain ⟨hx, hrest⟩ := hpre
    calc x.bitsOut s ++ AccCall.bitsOutAll (x.next s) rest ++ (AccCall.nextAll (x.next s) rest).bits
        = x.bitsOut s ++ ((x.next s).bits ++ (rest.map AccCall.bitsIn).flatten) := by
          rw [List.append_assoc, ih (h.next hcap hx) (by simpa using hcap) hrest]
      _ = s.bits ++ ((x :: rest).map AccCall.bitsIn).flatten := by
          rw [← List.append_assoc, h.bits_next hcap hx, List.append_assoc, List.map_cons,
            List.flatten_cons]

/-! ## The raw commands (R94 to R97) -/

theorem State.outsideTransaction.ne_fault (hm : s.outsideTransaction) : s.mode ≠ .fault := by
  rcases hm with e | e | e <;> simp [e]

/-- Every meaning answers a next state. -/
theorem exists_exec_eq_next (i : Instr) (s : State) : ∃ t, exec i s = .next t := by
  cases i <;> exact ⟨_, rfl⟩

theorem execAll_pair {i j : Instr} {s t u : State} (hi : exec i s = .next t)
    (hj : exec j t = .next u) : execAll [i, j] s = .next u := by
  rw [execAll_cons hi, execAll_cons hj, execAll]

theorem exec_accClr (hm : s.outsideTransaction) : exec .accClr s = .next s.clear := by
  obtain ⟨t, ht⟩ := exists_exec_eq_next .accClr s
  rcases execAccClr_cases s t hm.ne_fault ht with ⟨hn, -⟩ | ⟨-, rfl⟩
  · exact absurd hm hn
  · exact ht

theorem exec_accApp {n : GroupSize} {chunk : Value} (hm : s.outsideTransaction)
    (hfit : s.cnt.toNat + n.toNat ≤ s.config.accCap) :
    exec (.accApp n chunk) s = .next (s.append n.toNat chunk) := by
  obtain ⟨t, ht⟩ := exists_exec_eq_next (.accApp n chunk) s
  rcases execAccApp_cases n chunk s t hm.ne_fault ht with ⟨hn, -⟩ | ⟨-, hc, -⟩ | ⟨-, -, rfl⟩
  · exact absurd hm hn
  · exact absurd hc (not_lt.mpr hfit)
  · exact ht

theorem exec_accApp_of_overflow {n : GroupSize} {chunk : Value} (hm : s.outsideTransaction)
    (hover : s.config.accCap < s.cnt.toNat + n.toNat) :
    exec (.accApp n chunk) s = .next (s.raiseFault .accOverflow) := by
  obtain ⟨t, ht⟩ := exists_exec_eq_next (.accApp n chunk) s
  rcases execAccApp_cases n chunk s t hm.ne_fault ht with ⟨hn, -⟩ | ⟨-, -, rfl⟩ | ⟨-, hc, -⟩
  · exact absurd hm hn
  · exact ht
  · exact absurd hover hc

theorem exec_accExt {m : GroupSize} (hm : s.outsideTransaction) (hle : m.toNat ≤ s.cnt.toNat) :
    exec (.accExt m) s =
      .next { s.extractRest m.toNat with res := s.extractValue m.toNat } := by
  obtain ⟨t, ht⟩ := exists_exec_eq_next (.accExt m) s
  rcases execAccExt_cases m s t hm.ne_fault ht with ⟨hn, -⟩ | ⟨-, hc, -⟩ | ⟨-, -, rfl⟩
  · exact absurd hm hn
  · exact absurd hc (not_lt.mpr hle)
  · exact ht

theorem exec_accExt_of_underflow {m : GroupSize} (hm : s.outsideTransaction)
    (hlt : s.cnt.toNat < m.toNat) :
    exec (.accExt m) s = .next (s.raiseFault .accUnderflow) := by
  obtain ⟨t, ht⟩ := exists_exec_eq_next (.accExt m) s
  rcases execAccExt_cases m s t hm.ne_fault ht with ⟨hn, -⟩ | ⟨-, -, rfl⟩ | ⟨-, hc, -⟩
  · exact absurd hm hn
  · exact ht
  · exact absurd hlt hc

/-- ACC_CLR, ACC_APP and ACC_EXT (R94). -/
abbrev RawCommand (i : Instr) : Prop :=
  i = .accClr ∨ (∃ n chunk, i = .accApp n chunk) ∨ ∃ m, i = .accExt m

/-- Outside FAULT a raw command raises SequenceFault inside a transaction; outside one it raises
another fault or writes ACC, CNT and RES alone (R94). -/
theorem exec_raw_cases {i : Instr} {t : State} (hi : RawCommand i) (hs : s.mode ≠ .fault)
    (h : exec i s = .next t) :
    (¬ s.outsideTransaction ∧ t = s.raiseFault .sequenceFault) ∨
      (s.outsideTransaction ∧ ∃ f, f ≠ .sequenceFault ∧ t = s.raiseFault f) ∨
      (s.outsideTransaction ∧ ∃ a c r, t = { s with acc := a, cnt := c, res := r }) := by
  obtain rfl | ⟨n, chunk, rfl⟩ | ⟨m, rfl⟩ := hi
  · rcases execAccClr_cases s t hs h with hn | ⟨hm, rfl⟩
    · exact .inl hn
    · exact .inr (.inr ⟨hm, _, _, s.res, rfl⟩)
  · rcases execAccApp_cases n chunk s t hs h with hn | ⟨hm, -, rfl⟩ | ⟨hm, -, rfl⟩
    · exact .inl hn
    · exact .inr (.inl ⟨hm, .accOverflow, nofun, rfl⟩)
    · exact .inr (.inr ⟨hm, _, _, s.res, rfl⟩)
  · rcases execAccExt_cases m s t hs h with hn | ⟨hm, -, rfl⟩ | ⟨hm, -, rfl⟩
    · exact .inl hn
    · exact .inr (.inl ⟨hm, .accUnderflow, nofun, rfl⟩)
    · exact .inr (.inr ⟨hm, _, _, _, rfl⟩)

/-! ## Packing two bytes (R98) -/

/-- The two bytes appended, one after the other. -/
def State.packTwo (b₀ b₁ : Byte) (s : State) : State :=
  (s.append 8 (b₀.setWidth 18)).append 8 (b₁.setWidth 18)

variable (b₀ b₁ : Byte)

theorem State.append_byte_cnt (b : Byte) (hcnt : s.cnt = 0) :
    (s.append 8 (b.setWidth 18)).cnt = 8 := by
  simp [hcnt]

theorem State.packTwo_cnt (hcnt : s.cnt = 0) : (s.packTwo b₀ b₁).cnt = 16 := by
  simp [State.packTwo, hcnt]

theorem toNat_byteChunk_lt (b : Byte) : (b.setWidth 18 : Value).toNat < 2 ^ 8 := by
  rw [BitVec.toNat_setWidth_of_le (by omega)]
  exact b.isLt

theorem State.AccOk.append_byte (h : s.AccOk) (b : Byte) (hcnt : s.cnt.toNat + 8 ≤ 32) :
    (s.append 8 (b.setWidth 18)).AccOk :=
  h.append 8 _ hcnt (toNat_byteChunk_lt b)

theorem State.AccOk.packTwo (h : s.AccOk) (hcnt : s.cnt = 0) : (s.packTwo b₀ b₁).AccOk :=
  (h.append_byte b₀ (by simp [hcnt])).append_byte b₁ (by rw [State.append_byte_cnt b₀ hcnt]; decide)

theorem State.AccOk.acc_eq_zero (h : s.AccOk) (hcnt : s.cnt = 0) : s.acc = 0 :=
  BitVec.eq_of_toNat_eq (by simpa [hcnt] using h.lt)

theorem State.AccOk.packTwo_acc_toNat (h : s.AccOk) (hcnt : s.cnt = 0) :
    (s.packTwo b₀ b₁).acc.toNat = b₀.toNat * 2 ^ 8 + b₁.toNat := by
  rw [State.packTwo, State.append_acc_toNat _ _ _ (h.append_byte b₀ (by simp [hcnt]))
      (by rw [State.append_byte_cnt b₀ hcnt]; decide) (toNat_byteChunk_lt b₁),
    State.append_acc_toNat _ _ _ h (by simp [hcnt]) (toNat_byteChunk_lt b₀), h.acc_eq_zero hcnt,
    BitVec.toNat_setWidth_of_le (by omega), BitVec.toNat_setWidth_of_le (by omega)]
  simp

/-- ENC_BYTE emits nothing before a group is full: it appends the byte. -/
theorem exec_encByte_of_lt {b : Byte} (hm : s.mode = .enc) (hlt : s.cnt.toNat + 8 < 18)
    (hout : s.outLen.toNat ≤ s.config.outCap) :
    exec (.encByte b) s = .next (s.append 8 (b.setWidth 18)) := by
  have hfit : ¬ s.outOverflows s.encByteEmits := by
    rw [State.outOverflows, State.encByteEmits, if_neg (by omega)]
    exact not_lt.mpr hout
  have hcnt := State.append_cnt_toNat 8 (b.setWidth 18) s (by omega)
  rw [exec_encByte b hm hfit, State.feedByte, State.drain_of_lt _ _ _ _ (by omega)]

/-- ACC_APP 8 of each byte packs the two. -/
theorem execAll_accApp_bytes (hcap : 25 ≤ s.config.accCap) (hm : s.outsideTransaction)
    (hcnt : s.cnt = 0) :
    execAll [.accApp 8 (b₀.setWidth 18), .accApp 8 (b₁.setWidth 18)] s =
      .next (s.packTwo b₀ b₁) :=
  execAll_pair (exec_accApp hm (by rw [hcnt]; exact le_trans (by decide) hcap))
    (exec_accApp (s := s.append 8 (b₀.setWidth 18)) hm
      (by rw [State.append_byte_cnt b₀ hcnt]; exact le_trans (by decide) hcap))

/-- ENC_BYTE of each byte packs the two. -/
theorem execAll_encByte_bytes (hm : s.mode = .enc) (hcnt : s.cnt = 0)
    (hout : s.outLen.toNat ≤ s.config.outCap) :
    execAll [.encByte b₀, .encByte b₁] s = .next (s.packTwo b₀ b₁) :=
  execAll_pair (exec_encByte_of_lt hm (by rw [hcnt]; decide) hout)
    (exec_encByte_of_lt (s := s.append 8 (b₀.setWidth 18)) hm
      (by rw [State.append_byte_cnt b₀ hcnt]; decide) hout)

/-- A partial group filled up with zeros by ACC_APP and taken out by ACC_EXT is Flush: the group is
in RES and nothing is left buffered. -/
theorem State.AccOk.execAll_flush (h : s.AccOk) {n g : GroupSize} (hm : s.outsideTransaction)
    (hn : s.cnt.toNat + n.toNat = g.toNat) (h18 : g.toNat ≤ 18)
    (hcap : 18 ≤ s.config.accCap) :
    ∃ r, execAll [.accApp n 0, .accExt g] s = .next r ∧ r.res = s.flushValue g.toNat ∧
      r.acc = 0 ∧ r.cnt = 0 := by
  have hcnt : (s.append n.toNat 0).cnt.toNat = g.toNat := by
    rw [State.append_cnt_toNat _ _ _ (by omega), hn]
  have hok := (h.append n.toNat 0 (by omega) (Nat.two_pow_pos _)).extractRest g.toNat hcnt.ge
  have hzero : ((s.append n.toNat 0).extractRest g.toNat).cnt = 0 := by
    apply BitVec.eq_of_toNat_eq
    rw [State.extractRest_cnt_toNat _ _ hcnt.ge, hcnt, Nat.sub_self]
    rfl
  refine ⟨{ (s.append n.toNat 0).extractRest g.toNat with
    res := (s.append n.toNat 0).extractValue g.toNat }, ?_, h.extractValue_append_zero hn h18,
    hok.acc_eq_zero hzero, hzero⟩
  exact execAll_pair (exec_accApp hm (by omega))
    (exec_accExt (s := s.append n.toNat 0) hm hcnt.ge)

/-- The flushed group of two packed bytes. -/
theorem State.AccOk.flushValue_packTwo_toNat (h : s.AccOk) (hcnt : s.cnt = 0) :
    ((s.packTwo b₀ b₁).flushValue 18).toNat = b₀.toNat <<< 10 ||| b₁.toNat <<< 2 := by
  have hsixteen := congrArg BitVec.toNat (State.packTwo_cnt b₀ b₁ hcnt)
  have hpad : 18 - (s.packTwo b₀ b₁).cnt.toNat = 2 := by rw [hsixteen]; rfl
  rw [State.flushValue_toNat 18 _ (h.packTwo b₀ b₁ hcnt) (by omega) le_rfl, hpad,
    h.packTwo_acc_toNat b₀ b₁ hcnt, ← Nat.shiftLeft_eq b₀.toNat,
    Nat.shiftLeft_add_eq_or_of_lt b₁.isLt, ← Nat.shiftLeft_eq, Nat.shiftLeft_or_distrib,
    ← Nat.shiftLeft_add]

theorem exec_encFinish (hm : s.mode = .enc) (hfit : ¬ s.outOverflows s.encFinishEmits) :
    exec .encFinish s = .next s.finishEncode := by
  obtain ⟨t, ht⟩ := exists_exec_eq_next .encFinish s
  rcases execEncFinish_cases s t (by simp [hm]) ht with ⟨hn, -⟩ | ⟨-, hc, -⟩ | ⟨-, -, rfl⟩
  · exact absurd hm hn
  · exact absurd hc hfit
  · exact ht

/-- ENC_FINISH writes the symbol of a flushed partial group to entry OUTLEN (42_encoder.md R108). -/
theorem State.read_finishEncode_outLen (hpad : 0 < s.encPad) :
    s.finishEncode.out.read s.outLen.toNat =
      some (valueToSymbol s.config (s.flushValue 18)) := by
  have hhead : 0 < s.writeHeader.encPad := hpad
  rw [State.finishEncode, State.clear_out, State.flushPartial, if_pos hhead, State.emit_out]
  exact Memory.read_write_self _ _ _

end

end Sys2Proof.Machine

namespace Sys2Proof.Proofs
open Sys2Proof Sys2Proof.Machine

/-! ## The statements -/

/-- Settles O36, by induction on the calls from the law for one call. -/
theorem accumulatorIsFifo : Obligations.AccumulatorIsFifo := fun _ _ h hpre =>
  h.accOk.bits_nextAll h.config.accCap_le hpre

/-- Settles O33: the chunk fills the low bits that the shift left 0. -/
theorem appendAddsNewestBits : Obligations.AppendAddsNewestBits := by
  intro n c s h _ _ hc hfit
  have hn : s.cnt.toNat + n ≤ 32 := le_trans hfit h.config.accCap_le
  have hacc := State.append_acc_toNat n c s h.accOk hn hc
  refine ⟨?_, hacc, ?_, State.append_cnt_toNat n c s hn, h.accOk.bits_append hn hc, rfl⟩
  · rw [hacc, ← Nat.shiftLeft_eq, Nat.shiftLeft_add_eq_or_of_lt hc]
  · rw [hacc]
    exact appended_lt _ _ _ _ h.accOk.lt hc

/-- Settles O34: the value and the rest are quotient and remainder by 2^(CNT - M), and their bits are
the two parts of the sequence. -/
theorem extractTakesOldestBits : Obligations.ExtractTakesOldestBits := by
  intro m s h _ h18 hm
  have hval := State.extractValue_toNat m s h.accOk hm h18
  have hsplit := h.accOk.bits_eq_extract hm h18
  refine ⟨?_, ?_, ?_, State.extractRest_cnt_toNat m s hm, ?_, ?_, rfl⟩
  · rw [hval, Nat.shiftRight_eq_div_pow]
  · rw [hval]
    exact oldest_lt _ _ _ h.accOk.lt hm
  · rw [State.extractRest_acc_toNat m s h.accOk, Nat.one_shiftLeft, Nat.and_two_pow_sub_one_eq_mod]
  · rw [← hsplit, List.take_left' (bitsOf_length _ m)]
  · rw [← hsplit, List.drop_left' (bitsOf_length _ m)]

/-- Settles O35: Flush is ACC times 2^(G - CNT). -/
theorem flushZeroFillsTheLowEnd : Obligations.FlushZeroFillsTheLowEnd := by
  intro g s h hpos hlt h18
  have hval := State.flushValue_toNat g s h.accOk hlt.le h18
  refine ⟨?_, ?_, ?_, h.accOk.bitsOf_flushValue hlt.le h18, rfl, rfl, ?_⟩
  · rw [hval, Nat.shiftLeft_eq]
  · have hbound := appended_lt _ _ (g - s.cnt.toNat) 0 h.accOk.lt (Nat.two_pow_pos _)
    rwa [Nat.add_zero, ← hval, Nat.add_sub_cancel' hlt.le] at hbound
  · rw [hval, Nat.mul_mod_left]
  · rintro rfl
    exact Nat.mod_eq_of_lt (by omega)

/-- Settles O38, from what ACC_APP answers in each case and Append's arithmetic. -/
theorem accAppAppendsOrOverflows : Obligations.AccAppAppendsOrOverflows := by
  intro n chunk s h hi hm
  simp only [Instr.WellFormed, Instr.wellFormed, decide_eq_true_eq] at hi
  obtain ⟨-, hchunk⟩ := hi
  refine ⟨fun hfit => ?_, fun hover => exec_accApp_of_overflow hm hover⟩
  have hn : s.cnt.toNat + n.toNat ≤ 32 := le_trans hfit h.config.accCap_le
  exact ⟨_, exec_accApp hm hfit, State.append_acc_toNat _ chunk s h.accOk hn hchunk,
    State.append_cnt_toNat _ chunk s hn, rfl⟩

/-- Settles O39, from what ACC_EXT answers in each case and Extract's arithmetic. -/
theorem accExtExtractsOrUnderflows : Obligations.AccExtExtractsOrUnderflows := by
  intro m s h hi hm
  simp only [Instr.WellFormed, Instr.wellFormed, decide_eq_true_eq] at hi
  obtain ⟨-, h18⟩ := hi
  refine ⟨fun hle => ?_, fun hlt => exec_accExt_of_underflow hm hlt⟩
  exact ⟨_, exec_accExt hm hle, State.extractValue_toNat _ s h.accOk hle h18,
    State.extractRest_acc_toNat _ s h.accOk, State.extractRest_cnt_toNat _ s hle, rfl⟩

/-- Settles O40, from the three things a raw command can do. -/
theorem rawCommandsRunOnlyOutsideTransactions :
    Obligations.RawCommandsRunOnlyOutsideTransactions := by
  intro i s hi
  obtain ⟨t, ht⟩ := exists_exec_eq_next i s
  refine ⟨fun hopen => ?_, fun u hu => ?_, fun hm => ⟨t, ht, ?_⟩⟩
  · have hs : s.mode ≠ .fault := by rcases hopen with e | e | e <;> simp [e]
    have hn : ¬ s.outsideTransaction := by
      rcases hopen with e | e | e <;> simp [State.outsideTransaction, e]
    obtain ⟨-, rfl⟩ | ⟨hm, -⟩ | ⟨hm, -⟩ := exec_raw_cases hi hs ht
    · exact ht
    · exact absurd hm hn
    · exact absurd hm hn
  · by_cases hs : s.mode = .fault
    · obtain rfl : s = u := by simpa [exec_of_fault i s hs] using hu
      exact ⟨rfl, rfl, rfl, rfl, rfl, .inl rfl⟩
    · obtain ⟨-, rfl⟩ | ⟨-, f, -, rfl⟩ | ⟨-, a, c, r, rfl⟩ := exec_raw_cases hi hs hu
      · exact ⟨rfl, rfl, rfl, rfl, rfl, .inr ⟨_, rfl⟩⟩
      · exact ⟨rfl, rfl, rfl, rfl, rfl, .inr ⟨f, rfl⟩⟩
      · exact ⟨rfl, rfl, rfl, rfl, rfl, .inl rfl⟩
  · obtain ⟨hn, -⟩ | ⟨-, f, hf, rfl⟩ | ⟨-, a, c, r, rfl⟩ := exec_raw_cases hi hm.ne_fault ht
    · exact absurd hm hn
    · exact fun e => hf (by simpa using congrArg State.fcode e)
    · exact fun e => hm.ne_fault (congrArg State.mode e)

/-- Settles O41: both sides pack the two bytes, and a zero chunk that fills the group makes Extract
what Flush is. -/
theorem rawCommandsReplayTheEncoder : Obligations.RawCommandsReplayTheEncoder := by
  intro b₀ b₁ s e hs hm hscnt he hem hecnt
  have hcap := hs.config.le_accCap
  have hcnt : (s.packTwo b₀ b₁).cnt = (e.packTwo b₀ b₁).cnt := by
    rw [State.packTwo_cnt b₀ b₁ hscnt, State.packTwo_cnt b₀ b₁ hecnt]
  have hacc : (s.packTwo b₀ b₁).acc = (e.packTwo b₀ b₁).acc := by
    apply BitVec.eq_of_toNat_eq
    rw [hs.accOk.packTwo_acc_toNat b₀ b₁ hscnt, he.accOk.packTwo_acc_toNat b₀ b₁ hecnt]
  have hflush : (s.packTwo b₀ b₁).flushValue 18 = (e.packTwo b₀ b₁).flushValue 18 := by
    rw [State.flushValue, State.flushValue, hacc, hcnt]
  obtain ⟨r, hr, hres, hracc, hrcnt⟩ := (hs.accOk.packTwo b₀ b₁ hscnt).execAll_flush (n := 2)
    (g := 18) hm (by rw [State.packTwo_cnt b₀ b₁ hscnt]; rfl) le_rfl (le_trans (by omega) hcap)
  refine ⟨_, r, _, execAll_accApp_bytes b₀ b₁ hcap hm hscnt,
    execAll_encByte_bytes b₀ b₁ hem hecnt he.outLen, hacc, hcnt, hr, ?_, hres.trans hflush, hracc,
    hrcnt, fun hroom => ?_⟩
  · rw [hres]
    exact hs.accOk.flushValue_packTwo_toNat b₀ b₁ hscnt
  · have hpad : (e.packTwo b₀ b₁).encPad = 2 := by
      rw [State.encPad, State.packTwo_cnt b₀ b₁ hecnt]
      rfl
    have hfit : ¬ (e.packTwo b₀ b₁).outOverflows (e.packTwo b₀ b₁).encFinishEmits := by
      rw [State.outOverflows, State.encFinishEmits, hpad]
      exact not_lt.mpr hroom
    refine ⟨_, exec_encFinish hem hfit, rfl, ?_, hracc.symm, hrcnt.symm⟩
    rw [State.read_finishEncode_outLen (by omega), hres.trans hflush]

/-- Settles O37: ACC_CLR's only effect is Clear. -/
theorem accClrEmptiesTheAccumulator : Obligations.AccClrEmptiesTheAccumulator := fun _ hm =>
  exec_accClr hm

end Sys2Proof.Proofs
end

section
/-! PROOFS. The encoder (42_encoder.md): what each of its commands leaves (R106 to R108), the pad
count and the length of `encode(B)` (R101, R105), and the transaction theorem, that the engine
computes `encode(B)` or overflows with OUT full (R110). -/

namespace Sys2Proof.Machine

/-! ## Several commands -/

theorem execAll_append {is js : List Instr} {s t : State} (h : execAll is s = .next t) :
    execAll (is ++ js) s = execAll js t := by
  induction is generalizing s with
  | nil =>
    obtain rfl : s = t := by simpa [execAll] using h
    rfl
  | cons i is ih =>
    obtain ⟨u, hu⟩ := exists_exec_eq_next i s
    rw [execAll_cons hu] at h
    rw [List.cons_append, execAll_cons hu, ih h]

/-- Once faulted, the engine ignores the rest of a program (60_exceptions.md R137). -/
theorem execAll_of_fault (is : List Instr) {s : State} (hs : s.mode = .fault) :
    execAll is s = .next s := by
  induction is with
  | nil => rfl
  | cons i is ih => rw [execAll_cons (exec_of_fault i s hs), ih]

/-- What every command of a program keeps, the program keeps. -/
theorem execAll_keeps {P : State → Prop} {is : List Instr} {s t : State}
    (hkeep : ∀ i ∈ is, ∀ u v, exec i u = .next v → P u → P v) (h : execAll is s = .next t)
    (hs : P s) : P t := by
  induction is generalizing s with
  | nil =>
    obtain rfl : s = t := by simpa [execAll] using h
    exact hs
  | cons i is ih =>
    obtain ⟨u, hu⟩ := exists_exec_eq_next i s
    rw [execAll_cons hu] at h
    rw [List.forall_mem_cons] at hkeep
    obtain ⟨hi, his⟩ := hkeep
    exact ih his h (hi s u hu hs)

section
variable {i : Instr} {s t : State}

theorem exec_config_eq (h : exec i s = .next t) : t.config = s.config := by
  by_cases hs : s.mode = .fault
  · rw [exec_of_fault i s hs] at h
    cases h; rfl
  · exact (effect_of_exec hs h).config_eq

theorem exec_res_eq (hi : ∀ m, i ≠ .accExt m) (h : exec i s = .next t) : t.res = s.res := by
  by_cases hs : s.mode = .fault
  · rw [exec_of_fault i s hs] at h
    cases h; rfl
  · exact (effect_of_exec hs h).res_eq hi

theorem State.EngineInv.exec (hi : i.WellFormed) (h : exec i s = .next t) (hs : s.EngineInv) :
    t.EngineInv := by
  by_cases hf : s.mode = .fault
  · rw [exec_of_fault i s hf] at h
    cases h; exact hs
  · exact hs.effect hf hi (effect_of_exec hf h)

end

theorem execAll_config_eq {is : List Instr} {s t : State} (h : execAll is s = .next t) :
    t.config = s.config :=
  execAll_keeps (P := fun u => u.config = s.config)
    (fun _ _ _ _ hi hu => (exec_config_eq hi).trans hu) h rfl

theorem execAll_res_eq {is : List Instr} {s t : State} (hext : ∀ m, .accExt m ∉ is)
    (h : execAll is s = .next t) : t.res = s.res :=
  execAll_keeps (P := fun u => u.res = s.res)
    (fun _ hmem _ _ hi hu => (exec_res_eq (fun m e => hext m (e ▸ hmem)) hi).trans hu) h rfl

theorem State.EngineInv.execAll {is : List Instr} {s t : State} (hs : s.EngineInv)
    (hwf : ∀ i ∈ is, i.WellFormed) (h : execAll is s = .next t) : t.EngineInv :=
  execAll_keeps (fun i hi _ _ he hu => State.EngineInv.exec (hwf i hi) he hu) h hs

/-! ## OUT as the list of its entries -/

theorem entriesFrom_append (k : Nat) (vs ws : List CodePoint) :
    entriesFrom k (vs ++ ws) = entriesFrom k vs ++ entriesFrom (k + vs.length) ws := by
  induction vs generalizing k with
  | nil => rfl
  | cons v vs ih =>
    rw [List.cons_append, entriesFrom_cons, ih, entriesFrom_cons, List.cons_append,
      List.length_cons, Nat.add_right_comm, Nat.add_assoc k]

/-- Entry k + i is the i-th of the values listed from index k on. -/
theorem read_entriesFrom (k i : Nat) (vs : List CodePoint) :
    Memory.read (k + i) (entriesFrom k vs) = vs[i]? := by
  induction vs generalizing k i with
  | nil => rfl
  | cons v vs ih =>
    cases i with
    | zero => simp [Memory.read]
    | succ i =>
      rw [entriesFrom_cons, Memory.read, if_neg (by omega), show k + (i + 1) = k + 1 + i by omega,
        ih, List.getElem?_cons_succ]

theorem State.Appends.trans {s t u : State} {vs ws : List CodePoint} (h : s.Appends t vs)
    (h' : t.Appends u ws) : s.Appends u (vs ++ ws) where
  outLen := by rw [h'.outLen, h.outLen, List.length_append, Nat.add_assoc]
  out := by rw [h'.out, h.out, h.outLen, entriesFrom_append, List.append_assoc]

/-! ## The engine's loop is the codec's -/

/-- The codec's loop in one piece: the values the engine's loop takes, and the newest bits. -/
theorem Codec.drain_eq {g fuel a n : Nat} (hg : 1 ≤ g) (hf : n ≤ fuel) (ha : a < 2 ^ n) :
    Codec.drain g fuel a n = (loopValues g fuel a n, a % 2 ^ (n % g), n % g) := by
  induction fuel generalizing a n with
  | zero =>
    obtain rfl : n = 0 := by omega
    obtain rfl : a = 0 := by omega
    simp [Codec.drain, loopValues]
  | succ k ih =>
    by_cases hle : g ≤ n
    · have hrest := ih (a := a % 2 ^ (n - g)) (n := n - g) (by omega)
        (Nat.mod_lt _ (Nat.two_pow_pos _))
      have hmod : a % 2 ^ (n - g) % 2 ^ (n % g) = a % 2 ^ (n % g) := by
        rw [Nat.mod_eq_sub_mod hle]
        exact Nat.mod_mod_of_dvd _ (pow_dvd_pow 2 (Nat.mod_le _ _))
      simp only [Codec.drain, loopValues, if_pos hle, Nat.one_shiftLeft,
        Nat.and_two_pow_sub_one_eq_mod, hrest, ← Nat.mod_eq_sub_mod hle, hmod,
        Nat.shiftRight_eq_div_pow]
    · have hlt : n < g := not_le.mp hle
      simp [Codec.drain, loopValues, hle, Nat.mod_eq_of_lt hlt, Nat.mod_eq_of_lt ha]

/-- `t` is `s` after the engine did what the codec's accumulator does with result `r`: the entries
of its groups joined OUT, and the bits left over are in ACC. -/
structure State.Packs (s t : State) (entry : Value → CodePoint) (r : List Nat × Nat × Nat) :
    Prop where
  appends : s.Appends t (r.1.map fun v => entry (BitVec.ofNat 18 v))
  acc : t.acc.toNat = r.2.1
  cnt : t.cnt.toNat = r.2.2

theorem State.Packs.trans {s t u : State} {entry : Value → CodePoint} {r q : List Nat × Nat × Nat}
    (h : s.Packs t entry r) (h' : t.Packs u entry q) : s.Packs u entry (r.1 ++ q.1, q.2) where
  appends := by rw [List.map_append]; exact h.appends.trans h'.appends
  acc := h'.acc
  cnt := h'.cnt

/-- A chunk appended and the full groups emitted is one round of the codec. -/
theorem State.AccOk.drain_append_packs {s : State} {g n : Nat} {c : Value}
    (entry : Value → CodePoint) (h : s.AccOk) (hg : 1 ≤ g) (h18 : g ≤ 18)
    (hn : s.cnt.toNat + n ≤ 32) (hc : c.toNat < 2 ^ n)
    (hout : s.outLen.toNat + (s.cnt.toNat + n) / g < 2 ^ 32)
    (hkeys : ∀ a ∈ s.out.map Prod.fst, a < s.outLen.toNat) :
    s.Packs ((s.append n c).drain g entry (s.append n c).cnt.toNat) entry
      (Codec.drain g (s.cnt.toNat + n) (s.acc.toNat <<< n ||| c.toNat) (s.cnt.toNat + n)) := by
  have hok := h.append n c hn hc
  have hacc := State.append_acc_toNat n c s h hn hc
  have hcnt := State.append_cnt_toNat n c s hn
  obtain ⟨hacc', hcnt', -⟩ := State.drain_spec g entry _ (s.append n c) hok hg h18 le_rfl
    (by rw [hcnt]; exact hout) hkeys
  obtain ⟨-, -, -, happ⟩ := State.drain_append_spec g n c entry s h hg h18 hn hc hout hkeys
  rw [State.groups, hcnt, hacc] at happ
  rw [← Nat.shiftLeft_add_eq_or_of_lt hc, Nat.shiftLeft_eq,
    Codec.drain_eq hg le_rfl (appended_lt _ _ _ _ h.lt hc)]
  rw [hcnt] at hacc' hcnt' ⊢
  exact ⟨happ, by rw [hacc', hacc], hcnt'⟩

/-! ## The pure encoder (R100, R101, R105) -/

/-- The empty sequence is no exception: its pad is 0 and it has no group. -/
theorem Codec.encode_eq (c : Config) (bytes : List Byte) :
    Codec.encode c bytes = Codec.symbol c (Codec.pad bytes.length) ::
      ((Codec.packBytes bytes 0 0).1.map (Codec.symbol c) ++
        if 0 < Codec.pad bytes.length then
          [Codec.symbol c ((Codec.packBytes bytes 0 0).2.1 <<< Codec.pad bytes.length)]
        else []) := by
  cases bytes with
  | nil => rfl
  | cons b rest => simp [Codec.encode]

/-- The groups and the bits left over, counted: n buffered bits and those of the bytes, by 18. -/
theorem Codec.packBytes_counts {bytes : List Byte} {a n : Nat} (ha : a < 2 ^ n) (hn : n < 18) :
    (Codec.packBytes bytes a n).1.length = (n + 8 * bytes.length) / 18 ∧
      (Codec.packBytes bytes a n).2.2 = (n + 8 * bytes.length) % 18 := by
  induction bytes generalizing a n with
  | nil =>
    rw [List.length_nil, Nat.mul_zero, Nat.add_zero, Nat.div_eq_of_lt hn, Nat.mod_eq_of_lt hn]
    exact ⟨rfl, rfl⟩
  | cons b rest ih =>
    have hx : a <<< 8 ||| b.toNat < 2 ^ (n + 8) := by
      rw [← Nat.shiftLeft_add_eq_or_of_lt b.isLt, Nat.shiftLeft_eq]
      exact appended_lt _ _ _ _ ha b.isLt
    obtain ⟨hlen, hleft⟩ := ih (a := (a <<< 8 ||| b.toNat) % 2 ^ ((n + 8) % 18))
      (n := (n + 8) % 18) (Nat.mod_lt _ (Nat.two_pow_pos _)) (Nat.mod_lt _ (by omega))
    have hround := loopValues_length 18 (by omega) (n + 8) (a <<< 8 ||| b.toNat) (n + 8) le_rfl
    rw [Codec.packBytes, Codec.drain_eq (by omega) le_rfl hx]
    simp only [List.length_append, List.length_cons, hround, hlen, hleft]
    omega

/-- The same from the empty accumulator `encode` begins with. -/
theorem Codec.packBytes_zero_counts (bytes : List Byte) :
    (Codec.packBytes bytes 0 0).1.length = 8 * bytes.length / 18 ∧
      (Codec.packBytes bytes 0 0).2.2 = 8 * bytes.length % 18 := by
  simpa using Codec.packBytes_counts (bytes := bytes) (a := 0) (n := 0) (by simp) (by simp)

theorem Codec.encode_length (c : Config) (bytes : List Byte) :
    (Codec.encode c bytes).length = 1 + (8 * bytes.length + 17) / 18 := by
  obtain ⟨hlen, -⟩ := Codec.packBytes_zero_counts bytes
  rw [Codec.encode_eq, List.length_cons, List.length_append, List.length_map, hlen, Codec.pad]
  generalize 8 * bytes.length = bits
  split <;> simp only [List.length_cons, List.length_nil] <;> omega

/-! ## ENC_BYTE (R107) -/

section
variable {s : State} {b : Byte}

theorem exec_encByte_of_overflow (hm : s.mode = .enc) (hover : s.outOverflows s.encByteEmits) :
    exec (.encByte b) s = .next (s.raiseFault .outOverflow) := by
  obtain ⟨t, ht⟩ := exists_exec_eq_next (.encByte b) s
  rcases execEncByte_cases b s t (by simp [hm]) ht with ⟨hn, -⟩ | ⟨-, -, rfl⟩ | ⟨-, hc, -⟩
  · exact absurd hm hn
  · exact ht
  · exact absurd hover hc

/-- A byte that fills a group: one append, one extract, one emit. -/
theorem State.feedByte_of_le (hle : 10 ≤ s.cnt.toNat) (hlt : s.cnt.toNat < 18) :
    s.feedByte b = ((s.append 8 (b.setWidth 18)).extractRest 18).emit
      (valueToSymbol s.config ((s.append 8 (b.setWidth 18)).extractValue 18)) := by
  have hcnt := State.append_cnt_toNat 8 (b.setWidth 18) s (by omega)
  have hrest := State.extractRest_cnt_toNat 18 (s.append 8 (b.setWidth 18)) (by omega)
  rw [State.feedByte, hcnt, State.drain_of_le _ _ _ _ (by omega),
    State.drain_of_lt _ _ _ _ (by rw [State.emit_cnt]; omega)]

theorem State.AccOk.append_byte_acc_toNat (h : s.AccOk) (hlt : s.cnt.toNat < 18) :
    (s.append 8 (b.setWidth 18)).acc.toNat = s.acc.toNat * 256 + b.toNat := by
  rw [State.append_acc_toNat 8 _ s h (by omega) (toNat_byteChunk_lt b),
    BitVec.toNat_setWidth_of_le (by omega), show 2 ^ 8 = 256 from rfl]

/-- ENC_BYTE where it fits is one round of `encode`. -/
theorem State.EngineInv.feedByte_packs (h : s.EngineInv) (hm : s.mode = .enc)
    (hfit : ¬ s.outOverflows s.encByteEmits) :
    s.Packs (s.feedByte b) (valueToSymbol s.config)
      (Codec.drain 18 (s.cnt.toNat + 8) (s.acc.toNat <<< 8 ||| b.toNat) (s.cnt.toNat + 8)) := by
  have hcap := h.wf.outCap_lt
  obtain ⟨-, hcnt, -⟩ := h.enc hm
  rw [State.outOverflows, State.encByteEmits_eq hcnt] at hfit
  have hpacks := h.accOk.drain_append_packs (g := 18) (valueToSymbol s.config) (by omega) le_rfl
    (by omega) (toNat_byteChunk_lt b) (by omega) (State.definedFrom_keys_lt (h.definedEnc hm))
  rwa [BitVec.toNat_setWidth_of_le (by omega)] at hpacks

end

/-- The bytes of an open encode that fit are packed as `encode` packs them. -/
theorem State.EngineInv.execAll_encBytes_packs {bytes : List Byte} {s : State} (h : s.EngineInv)
    (hm : s.mode = .enc)
    (hfit : s.outLen.toNat + (s.cnt.toNat + 8 * bytes.length) / 18 ≤ s.config.outCap) :
    ∃ t, Machine.execAll (bytes.map .encByte) s = .next t ∧ t.mode = .enc ∧
      s.Packs t (valueToSymbol s.config) (Codec.packBytes bytes s.acc.toNat s.cnt.toNat) := by
  induction bytes generalizing s with
  | nil => exact ⟨s, rfl, hm, ⟨rfl, by simp [Codec.packBytes]⟩, rfl, rfl⟩
  | cons b rest ih =>
    obtain ⟨-, hcnt, -⟩ := h.enc hm
    rw [List.length_cons] at hfit
    have hroom : ¬ s.outOverflows s.encByteEmits := by
      rw [State.outOverflows, State.encByteEmits_eq hcnt]
      omega
    obtain ⟨-, hcnt', hlen', -⟩ := h.feedByte_spec hm b hroom
    have hround := h.feedByte_packs (b := b) hm hroom
    obtain ⟨t, ht, htm, hrest⟩ := ih (h.feedByte hm b hroom) (by simpa using hm)
      (by rw [State.feedByte_config]; omega)
    rw [State.feedByte_config, hround.acc, hround.cnt] at hrest
    rw [List.map_cons, execAll_cons (exec_encByte b hm hroom)]
    exact ⟨t, ht, htm, hround.trans hrest⟩

/-! ## ENC_FINISH (R108) -/

section
variable {s : State}

theorem exec_encFinish_of_overflow (hm : s.mode = .enc) (hover : s.outOverflows s.encFinishEmits) :
    exec .encFinish s = .next (s.raiseFault .outOverflow) := by
  obtain ⟨t, ht⟩ := exists_exec_eq_next .encFinish s
  rcases execEncFinish_cases s t (by simp [hm]) ht with ⟨hn, -⟩ | ⟨-, -, rfl⟩ | ⟨-, hc, -⟩
  · exact absurd hm hn
  · exact ht
  · exact absurd hover hc

/-- The partial group's symbol, if there is one. -/
def State.partialGroup (s : State) : List CodePoint :=
  if 0 < s.encPad then [valueToSymbol s.config (s.flushValue 18)] else []

/-- The header joins OUT at the front. -/
theorem State.writeHeader_out (hd : s.definedFrom 1) :
    s.writeHeader.out = (0, Codec.symbol s.config s.encPad) :: s.out := by
  refine Memory.write_at_front 0 _ _ fun a ha => ?_
  have hmem : a ∈ s.out.map Prod.fst := ha
  rw [show s.out.map Prod.fst = _ from hd, List.mem_range'_1] at hmem
  omega

/-- ENC_FINISH with nothing buffered: the header, and the transaction closed. -/
theorem State.finishEncode_of_empty (hpad : s.encPad = 0) :
    s.finishEncode = { s.writeHeader with acc := 0, cnt := 0, mode := .done } := by
  have hnone : ¬ 0 < s.writeHeader.encPad := not_lt.mpr hpad.le
  rw [State.finishEncode, State.flushPartial, if_neg hnone]
  rfl

/-- ENC_FINISH with a partial group: the header, the group, and the transaction closed. -/
theorem State.finishEncode_of_partial (hpad : 0 < s.encPad) :
    s.finishEncode = { s.writeHeader.emit (valueToSymbol s.config (s.flushValue 18)) with
      acc := 0, cnt := 0, mode := .done } := by
  have hsome : 0 < s.writeHeader.encPad := hpad
  rw [State.finishEncode, State.flushPartial, if_pos hsome]
  rfl

/-- ENC_FINISH where it fits: the header before the entries of OUT, the partial group behind. -/
theorem State.EngineInv.finishEncode_spec (h : s.EngineInv) (hm : s.mode = .enc)
    (hfit : ¬ s.outOverflows s.encFinishEmits) :
    s.finishEncode.outLen.toNat = s.outLen.toNat + s.encFinishEmits ∧
      s.finishEncode.out = (0, Codec.symbol s.config s.encPad) :: s.out ++
        entriesFrom s.outLen.toNat s.partialGroup := by
  obtain ⟨hpos, -⟩ := h.enc hm
  have hd := h.definedEnc hm
  rw [← State.writeHeader_out hd]
  by_cases hpad : 0 < s.encPad
  · have hroom : s.outLen.toNat + 1 < 2 ^ 32 := by
      rw [State.outOverflows, State.encFinishEmits, if_pos hpad] at hfit
      exact lt_of_le_of_lt (not_lt.mp hfit) h.wf.outCap_lt
    obtain ⟨hlen, hout⟩ := State.emit_appends (s := s.writeHeader)
      (valueToSymbol s.config (s.flushValue 18)) (by simpa using hroom)
      (State.definedFrom_keys_lt (State.definedFrom_writeHeader hd hpos))
    rw [State.writeHeader_outLen] at hlen hout
    rw [State.finishEncode_of_partial hpad, State.partialGroup, State.encFinishEmits, if_pos hpad,
      if_pos hpad]
    exact ⟨hlen, hout⟩
  · rw [State.finishEncode_of_empty (by omega), State.partialGroup, State.encFinishEmits,
      if_neg hpad, if_neg hpad]
    simp

end

/-! ## The transaction that fits (R110) -/

section
variable {s : State}

/-- What an ENCODE transaction runs behind ENC_START. -/
def encodeBody (bytes : List Byte) : List Instr := bytes.map .encByte ++ [.encFinish]

theorem wellFormed_of_mem_encodeTransaction {bytes : List Byte} :
    ∀ i ∈ encodeTransaction bytes, i.WellFormed := by
  simp only [encodeTransaction, List.mem_append, List.mem_singleton, List.mem_map]
  rintro i ((rfl | ⟨b, -, rfl⟩) | rfl) <;> rfl

theorem State.encFinishEmits_eq (hcnt : s.cnt.toNat ≤ 17) :
    s.encFinishEmits = (s.cnt.toNat + 17) / 18 := by
  unfold State.encFinishEmits State.encPad
  split <;> omega

theorem State.flushValue_eq_ofNat (g : Nat) (h : s.AccOk) (hg : s.cnt.toNat ≤ g) (h18 : g ≤ 18) :
    s.flushValue g = BitVec.ofNat 18 (s.acc.toNat <<< (g - s.cnt.toNat)) := by
  rw [Nat.shiftLeft_eq, ← State.flushValue_toNat g s h hg h18, BitVec.ofNat_toNat,
    BitVec.setWidth_eq]

/-- The last symbol of `encode(B)` is the one ENC_FINISH flushes. -/
theorem State.partialGroup_eq {c : Config} {p : Nat} (h : s.AccOk) (hcnt : s.cnt.toNat ≤ 17)
    (hc : s.config = c) (hpad : s.encPad = p) :
    s.partialGroup = if 0 < p then [Codec.symbol c (s.acc.toNat <<< p)] else [] := by
  subst hc hpad
  unfold State.partialGroup
  split
  · next hpos =>
    have hp : s.encPad = 18 - s.cnt.toNat := by
      unfold State.encPad at hpos ⊢
      omega
    rw [State.flushValue_eq_ofNat 18 h (by omega) le_rfl, hp, Codec.symbol]
  · rfl

/-- `u` is in an encode of `bytes` with every byte accepted: the groups of `encode` are in OUT
behind the header's place, and its bits left over are in ACC. -/
structure State.Encoded (u : State) (c : Config) (bytes : List Byte) : Prop where
  inv : u.EngineInv
  mode : u.mode = .enc
  config : u.config = c
  cnt : u.cnt.toNat = 8 * bytes.length % 18
  acc : u.acc.toNat = (Codec.packBytes bytes 0 0).2.1
  outLen : u.outLen.toNat = 1 + 8 * bytes.length / 18
  out : u.out = entriesFrom 1 ((Codec.packBytes bytes 0 0).1.map (Codec.symbol c))

/-- ENC_START and the bytes, where they fit. -/
theorem State.EngineInv.encodes {bytes : List Byte} (h : s.EngineInv) (hs : s.mode ≠ .fault)
    (hfit : 1 + 8 * bytes.length / 18 ≤ s.config.outCap) :
    ∃ u : State, Machine.execAll (.encStart :: bytes.map .encByte) s = .next u ∧
      u.Encoded s.config bytes := by
  have hstart := h.encStart hs
  obtain ⟨u, hu, hm, hpacks⟩ := hstart.execAll_encBytes_packs (bytes := bytes) rfl
    (by simpa using hfit)
  obtain ⟨hgroups, hleft⟩ := Codec.packBytes_zero_counts bytes
  have hlen := hpacks.appends.outLen
  have hout := hpacks.appends.out
  rw [List.length_map] at hlen
  rw [State.openTransaction_out, Memory.truncate_zero, List.nil_append] at hout
  exact ⟨u, (execAll_cons (exec_encStart hs)).trans hu, {
    inv := hstart.execAll (List.forall_mem_map.mpr fun _ _ => rfl) hu
    mode := hm
    config := (execAll_config_eq hu).trans rfl
    cnt := hpacks.cnt.trans hleft
    acc := hpacks.acc
    outLen := hlen.trans (congrArg (1 + ·) hgroups)
    out := hout }⟩

section
variable {u : State} {c : Config} {bytes : List Byte}

/-- The bits left over want the pad count of the bytes (R101). -/
theorem State.Encoded.encPad_eq (h : u.Encoded c bytes) : u.encPad = Codec.pad bytes.length := by
  rw [State.encPad, h.cnt, Codec.pad]

theorem State.Encoded.encFinishEmits_eq (h : u.Encoded c bytes) :
    u.encFinishEmits = (8 * bytes.length % 18 + 17) / 18 := by
  have hcnt := h.cnt
  rw [State.encFinishEmits_eq (by omega), hcnt]

theorem State.Encoded.finish_fits (h : u.Encoded c bytes)
    (hfit : 1 + (8 * bytes.length + 17) / 18 ≤ c.outCap) :
    ¬ u.outOverflows u.encFinishEmits := by
  rw [State.outOverflows, h.encFinishEmits_eq, h.config, h.outLen]
  omega

/-- ENC_FINISH leaves `encode(B)` in OUT. -/
theorem State.Encoded.finishEncode_out (h : u.Encoded c bytes)
    (hfit : ¬ u.outOverflows u.encFinishEmits) :
    u.finishEncode.outLen.toNat = (Codec.encode c bytes).length ∧
      u.finishEncode.out = entriesFrom 0 (Codec.encode c bytes) := by
  obtain ⟨hlen, hout⟩ := h.inv.finishEncode_spec h.mode hfit
  obtain ⟨hgroups, -⟩ := Codec.packBytes_zero_counts bytes
  have hcnt := h.cnt
  constructor
  · rw [hlen, h.outLen, h.encFinishEmits_eq, Codec.encode_length]
    omega
  · rw [hout, h.out, h.outLen, State.partialGroup_eq h.inv.accOk (by omega) h.config h.encPad_eq,
      h.config, h.encPad_eq, h.acc, Codec.encode_eq, entriesFrom_cons, entriesFrom_append,
      List.length_map, hgroups, Nat.zero_add, List.cons_append]

end

/-! ## The transaction that does not fit (R110) -/

/-- Some command of an open encode meets OUT full and raises OutOverflow, and the later ones are
ignored. -/
def OverflowsWhenFull (is : List Instr) (s : State) : Prop :=
  ∃ k u, execAll (is.take k) s = .next u ∧ u.mode = .enc ∧ u.outLen.toNat = s.config.outCap ∧
    execAll (is.take (k + 1)) s = .next (u.raiseFault .outOverflow) ∧
    execAll is s = .next (u.raiseFault .outOverflow)

theorem OverflowsWhenFull.of_head {i : Instr} {is : List Instr} (hm : s.mode = .enc)
    (hfull : s.outLen.toNat = s.config.outCap)
    (hi : exec i s = .next (s.raiseFault .outOverflow)) : OverflowsWhenFull (i :: is) s := by
  have hrest (js : List Instr) : execAll (i :: js) s = .next (s.raiseFault .outOverflow) :=
    (execAll_cons hi).trans (execAll_of_fault js rfl)
  exact ⟨0, s, rfl, hm, hfull, hrest [], hrest is⟩

theorem OverflowsWhenFull.cons {i : Instr} {is : List Instr} {t : State} (hi : exec i s = .next t)
    (h : OverflowsWhenFull is t) : OverflowsWhenFull (i :: is) s := by
  obtain ⟨k, u, hu, hm, hfull, hnext, hall⟩ := h
  rw [exec_config_eq hi] at hfull
  exact ⟨k + 1, u, (execAll_cons hi).trans hu, hm, hfull, (execAll_cons hi).trans hnext,
    (execAll_cons hi).trans hall⟩

/-- In an open encode with too little room for the groups to come, a command overflows. -/
theorem State.EngineInv.overflowsWhenFull {bytes : List Byte} {s : State} (h : s.EngineInv)
    (hm : s.mode = .enc)
    (hover : s.config.outCap < s.outLen.toNat + (s.cnt.toNat + 8 * bytes.length + 17) / 18) :
    OverflowsWhenFull (encodeBody bytes) s := by
  have hle : s.outLen.toNat ≤ s.config.outCap := h.released.outLen
  obtain ⟨-, hcnt, -⟩ := h.enc hm
  induction bytes generalizing s with
  | nil =>
    rw [List.length_nil] at hover
    refine .of_head hm (by omega) (exec_encFinish_of_overflow hm ?_)
    rw [State.outOverflows, State.encFinishEmits_eq hcnt]
    omega
  | cons b rest ih =>
    rw [List.length_cons] at hover
    have hemits := State.encByteEmits_eq hcnt
    by_cases hfit : s.outOverflows s.encByteEmits
    · have hfault := exec_encByte_of_overflow (b := b) hm hfit
      rw [State.outOverflows, hemits] at hfit
      exact .of_head hm (by omega) hfault
    · have hnext := h.feedByte hm b hfit
      obtain ⟨-, hcnt', hlen', -⟩ := h.feedByte_spec hm b hfit
      exact .cons (exec_encByte b hm hfit) (ih hnext (by simpa using hm)
        (by rw [State.feedByte_config]; omega) hnext.released.outLen (by omega))

end

end Sys2Proof.Machine

namespace Sys2Proof.Proofs
open Sys2Proof Sys2Proof.Machine

/-! ## The statements -/

/-- Settles O48: a byte is one round of `encode`, and ENC_FINISH adds the header and the last
group. -/
theorem encodeTransactionComputesEncode : Obligations.EncodeTransactionComputesEncode := by
  intro bytes s h hs hfit
  obtain ⟨u, hu, henc⟩ := h.engineInv.encodes (bytes := bytes) hs (by omega)
  have hroom := henc.finish_fits hfit
  obtain ⟨hlen, hout⟩ := henc.finishEncode_out hroom
  have hrun : execAll (encodeTransaction bytes) s = .next u.finishEncode :=
    (execAll_append hu).trans (execAll_cons (exec_encFinish henc.mode hroom))
  have hinv := h.engineInv.execAll wellFormed_of_mem_encodeTransaction hrun
  have hmode : u.finishEncode.mode = .done := rfl
  refine ⟨u.finishEncode, hrun, hmode, hlen, fun i => ?_, ?_, rfl, rfl,
    hinv.ecode_eq_none (by simp [hmode]) (by simp [hmode]), hinv.fcode_eq_none (by simp [hmode]),
    execAll_res_eq (by simp [encodeTransaction]) hrun, execAll_config_eq hrun⟩
  · rw [hout, ← read_entriesFrom 0 i, Nat.zero_add]
  · rw [← henc.encPad_eq, State.finishEncode_eq]
    exact State.writeHeader_pad_toNat u

/-- Settles O49, by induction on the bytes: the first command that overflows finds OUT full. -/
theorem encodeTransactionOverflowsWhenFull : Obligations.EncodeTransactionOverflowsWhenFull := by
  intro bytes s h hs hover
  change OverflowsWhenFull (.encStart :: encodeBody bytes) s
  refine .cons (exec_encStart hs) ((h.engineInv.encStart hs).overflowsWhenFull rfl ?_)
  simpa [Nat.add_assoc] using hover

/-- Settles O43: fewer than 18 bits stay in the accumulator, and of 18 or more the oldest 18 make a
symbol. -/
theorem encByteAppendsAndEmits : Obligations.EncByteAppendsAndEmits := by
  intro b s h hm
  obtain ⟨-, hcnt, -⟩ := h.enc hm
  have happ := State.append_cnt_toNat 8 (b.setWidth 18) s (by omega)
  have hacc := h.accOk.append_byte_acc_toNat (b := b) (by omega)
  have hok := h.accOk.append_byte b (by omega)
  have hemits := State.encByteEmits_eq hcnt
  refine ⟨fun hlt => ?_, fun hle hroom => ?_, fun hle hfull => ?_⟩
  · exact ⟨_, exec_encByte_of_lt hm (by omega) h.outLen, hacc, happ, rfl, fun _ => rfl⟩
  · have hgroup : (s.append 8 (b.setWidth 18)).cnt.toNat - 18 = s.cnt.toNat - 10 := by omega
    have hrun := exec_encByte b hm (by rw [State.outOverflows, hemits]; omega)
    rw [State.feedByte_of_le hle (by omega)] at hrun
    refine ⟨_, _, hrun, ?_, ?_, ?_, Memory.read_write_self _ _ _, ?_,
      fun a ha => Memory.read_write_of_ne _ a _ _ ha, rfl⟩
    · rw [State.emit_cnt, State.extractRest_cnt_toNat _ _ (by omega), hgroup]
    · rw [State.emit_acc, State.extractRest_acc_toNat _ _ hok, hgroup, hacc]
    · exact State.emit_outLen_toNat _ _ (lt_of_le_of_lt hroom h.config.outCap_lt)
    · rw [toNat_valueToSymbol h.config, State.extractValue_toNat _ _ hok (by omega) le_rfl, hgroup,
        hacc]
  · exact exec_encByte_of_overflow hm (by rw [State.outOverflows, hemits]; omega)

/-- Settles O45: the header goes to entry 0, and a partial group, if there is one, is emitted. -/
theorem encFinishWritesHeaderAndFlushes : Obligations.EncFinishWritesHeaderAndFlushes := by
  intro s h hm
  obtain ⟨hpos, hcnt, -⟩ := h.enc hm
  have hemits := State.encFinishEmits_eq hcnt
  refine ⟨fun hzero => ?_, fun hpart hroom => ?_, fun hpart hfull => ?_⟩
  · have hpad : s.encPad = 0 := by rw [State.encPad, hzero]
    have hrun := exec_encFinish hm (by
      rw [State.outOverflows, hemits, hzero]
      exact not_lt.mpr h.outLen)
    rw [State.finishEncode_of_empty hpad] at hrun
    refine ⟨_, _, hrun, ?_, Memory.read_write_self _ _ _, ?_,
      fun a ha => Memory.read_write_of_ne _ a _ _ ha, rfl⟩
    · exact BitVec.eq_of_toNat_eq (by rw [State.writeHeader_pad_toNat, hzero]; rfl)
    · rw [hpad]
      exact BitVec.add_zero _
  · have hpad : s.encPad = 18 - s.cnt.toNat := Nat.mod_eq_of_lt (by omega)
    have hrun := exec_encFinish hm (by rw [State.outOverflows, hemits]; omega)
    rw [State.finishEncode_of_partial (by omega)] at hrun
    have hread (a : Nat) (ha : a ≠ s.outLen.toNat) :=
      Memory.read_write_of_ne s.outLen.toNat a (valueToSymbol s.config (s.flushValue 18))
        s.writeHeader.out ha
    refine ⟨_, Codec.symbol s.config s.encPad, valueToSymbol s.config (s.flushValue 18), hrun, ?_,
      (hread 0 (by omega)).trans (Memory.read_write_self _ _ _), ?_,
      Memory.read_write_self _ _ _, ?_, ?_, fun a ha hne => ?_, rfl⟩
    · rw [State.emit_pad, State.writeHeader_pad_toNat]
      omega
    · rw [Codec.symbol, toNat_valueToSymbol h.config, hpad, BitVec.toNat_ofNat]
      omega
    · rw [toNat_valueToSymbol h.config, State.flushValue_toNat 18 s h.accOk (by omega) le_rfl]
    · exact State.emit_outLen_toNat (valueToSymbol s.config (s.flushValue 18)) s.writeHeader
        (lt_of_le_of_lt hroom h.config.outCap_lt)
    · exact (hread a hne).trans (Memory.read_write_of_ne _ a _ _ ha)
  · exact exec_encFinish_of_overflow hm (by rw [State.outOverflows, hemits]; omega)

/-- Settles O46: pad and length count the bits of the bytes in groups of 18. -/
theorem encodePadAndLength : Obligations.EncodePadAndLength := by
  intro c bytes _
  rw [Codec.encode_length, Codec.encode_eq, Codec.pad]
  exact ⟨rfl, by omega, by omega, by omega, rfl, rfl, by omega⟩

/-- Settles O42: opening a transaction clears what R106 names, and OUTLEN is set behind the
header. -/
theorem encStartOpensAnEncode : Obligations.EncStartOpensAnEncode := by
  intro s hs
  rw [exec_encStart hs]
  simp [State.openTransaction, State.setOutLen, State.clear]

end Sys2Proof.Proofs
end

section
/-! PROOFS. The decoder (43_decoder.md): what each of its commands leaves (R120 to R125), that decoding
inverts encoding (R126), the outcomes of foreign inputs (R128), and the transaction theorem, that the
engine computes `decode(T)` or overflows (R127). -/

namespace Sys2Proof.Machine

/-! ## Groups as bit sequences (20_memory.md R53) -/

/-- The bits of a list of `g`-bit groups, oldest group first. -/
def groupBits (g : Nat) (vs : List Nat) : List Bool := vs.flatMap fun v => bitsOf v g

@[simp] theorem groupBits_nil (g : Nat) : groupBits g [] = [] := rfl

@[simp] theorem groupBits_cons (g v : Nat) (vs : List Nat) :
    groupBits g (v :: vs) = bitsOf v g ++ groupBits g vs := rfl

@[simp] theorem groupBits_append (g : Nat) (vs ws : List Nat) :
    groupBits g (vs ++ ws) = groupBits g vs ++ groupBits g ws := List.flatMap_append

@[simp] theorem groupBits_length (g : Nat) (vs : List Nat) :
    (groupBits g vs).length = g * vs.length := by
  induction vs with
  | nil => rfl
  | cons v vs ih =>
    rw [groupBits_cons, List.length_append, bitsOf_length, ih, List.length_cons, Nat.mul_succ,
      Nat.add_comm]

theorem testBit_eq_of_bitsOf_eq {a b n : Nat} (h : bitsOf a n = bitsOf b n) :
    ∀ i < n, a.testBit i = b.testBit i := by
  induction n with
  | zero => exact fun i hi => absurd hi (Nat.not_lt_zero i)
  | succ n ih =>
    obtain ⟨htop, hlow⟩ := List.cons.inj h
    intro i hi
    rcases Nat.lt_succ_iff_lt_or_eq.mp hi with hlt | rfl
    · exact ih hlow i hlt
    · exact htop

/-- An `n`-bit number is known from its bits. -/
theorem eq_of_bitsOf_eq {a b n : Nat} (ha : a < 2 ^ n) (hb : b < 2 ^ n)
    (h : bitsOf a n = bitsOf b n) : a = b := by
  refine Nat.eq_of_testBit_eq fun i => ?_
  by_cases hi : i < n
  · exact testBit_eq_of_bitsOf_eq h i hi
  · have hpow : 2 ^ n ≤ 2 ^ i := Nat.pow_le_pow_right (by omega) (not_lt.mp hi)
    rw [Nat.testBit_lt_two_pow (ha.trans_le hpow), Nat.testBit_lt_two_pow (hb.trans_le hpow)]

/-- Bytes whose bits begin a sequence are its first bytes. -/
theorem take_eq_of_groupBits_eq {xs ys : List Byte} {l l' : List Bool}
    (h : groupBits 8 (xs.map BitVec.toNat) ++ l = groupBits 8 (ys.map BitVec.toNat) ++ l')
    (hlen : ys.length ≤ xs.length) : xs.take ys.length = ys := by
  induction ys generalizing xs with
  | nil => rfl
  | cons y ys ih =>
    cases xs with
    | nil => exact absurd hlen (by simp)
    | cons x xs =>
      simp only [List.map_cons, groupBits_cons, List.append_assoc] at h
      obtain ⟨hhead, htail⟩ := List.append_inj h (by simp)
      rw [List.length_cons, List.take_succ_cons, ih htail (by simpa using hlen),
        BitVec.eq_of_toNat_eq (eq_of_bitsOf_eq x.isLt y.isLt hhead)]

/-- The loop only cuts the bits into groups: those it takes and those it leaves. -/
theorem groupBits_loopValues {g : Nat} (hg : 1 ≤ g) {fuel a n : Nat} (hf : n ≤ fuel) :
    groupBits g (loopValues g fuel a n) ++ bitsOf (a % 2 ^ (n % g)) (n % g) = bitsOf a n := by
  induction fuel generalizing a n with
  | zero =>
    obtain rfl : n = 0 := by omega
    simp [loopValues, bitsOf]
  | succ k ih =>
    by_cases hle : g ≤ n
    · have hrest := ih (a := a % 2 ^ (n - g)) (n := n - g) (by omega)
      have hmod : a % 2 ^ (n - g) % 2 ^ (n % g) = a % 2 ^ (n % g) := by
        rw [Nat.mod_eq_sub_mod hle]
        exact Nat.mod_mod_of_dvd _ (pow_dvd_pow 2 (Nat.mod_le _ _))
      rw [← Nat.mod_eq_sub_mod hle, hmod] at hrest
      rw [loopValues, if_pos hle, groupBits_cons, List.append_assoc, hrest,
        ← bitsOf_mul_add _ _ (Nat.mod_lt _ (Nat.two_pow_pos _)), Nat.div_add_mod',
        Nat.add_sub_cancel' hle]
    · rw [loopValues, if_neg hle, Nat.mod_eq_of_lt (not_le.mp hle)]
      exact bitsOf_congr fun i hi => by simp [Nat.testBit_mod_two_pow, hi]

/-- What the codec's accumulator makes of `bits`: `r` has its full groups, and fewer bits than a group
left over. -/
structure Codec.Splits (g : Nat) (r : List Nat × Nat × Nat) (bits : List Bool) : Prop where
  bits : groupBits g r.1 ++ bitsOf r.2.1 r.2.2 = bits
  groups : ∀ v ∈ r.1, v < 2 ^ g
  rest : r.2.1 < 2 ^ r.2.2
  cnt : r.2.2 < g

/-- One round of the codec: `w` bits join the `n` buffered, and the full groups leave. -/
theorem Codec.drain_append_splits {g w a n c : Nat} (hg : 1 ≤ g) (ha : a < 2 ^ n)
    (hc : c < 2 ^ w) :
    Codec.Splits g (Codec.drain g (n + w) (a <<< w ||| c) (n + w)) (bitsOf a n ++ bitsOf c w) := by
  have hlt := appended_lt a n w c ha hc
  rw [← Nat.shiftLeft_add_eq_or_of_lt hc, Nat.shiftLeft_eq, Codec.drain_eq hg le_rfl hlt]
  exact {
    bits := (groupBits_loopValues hg le_rfl).trans (bitsOf_mul_add a n hc)
    groups := loopValues_lt g _ _ _ hlt
    rest := Nat.mod_lt _ (Nat.two_pow_pos _)
    cnt := Nat.mod_lt _ hg }

/-- Step 4 of encode keeps the bits of the bytes, in order (42_encoder.md R103). -/
theorem Codec.packBytes_splits {bytes : List Byte} {a n : Nat} (ha : a < 2 ^ n) (hn : n < 18) :
    Codec.Splits 18 (Codec.packBytes bytes a n)
      (bitsOf a n ++ groupBits 8 (bytes.map BitVec.toNat)) := by
  induction bytes generalizing a n with
  | nil => exact ⟨by simp [Codec.packBytes], by simp [Codec.packBytes], ha, hn⟩
  | cons b rest ih =>
    have hround := Codec.drain_append_splits (g := 18) (by omega) ha b.isLt
    have hrest := ih hround.rest hround.cnt
    exact {
      bits := by
        rw [Codec.packBytes, groupBits_append, List.append_assoc, hrest.bits, ← List.append_assoc,
          hround.bits, List.map_cons, groupBits_cons, List.append_assoc]
      groups := List.forall_mem_append.mpr ⟨hround.groups, hrest.groups⟩
      rest := hrest.rest
      cnt := hrest.cnt }

/-! ## decode(encode(B)) = B (43_decoder.md R126) -/

/-- The values of the payload symbols of `encode(B)`: the groups, and the partial one filled with
zeros. -/
def Codec.payload (bytes : List Byte) : List Nat :=
  (Codec.packBytes bytes 0 0).1 ++
    if 0 < Codec.pad bytes.length then
      [(Codec.packBytes bytes 0 0).2.1 <<< Codec.pad bytes.length] else []

theorem Codec.encode_eq_payload (c : Config) (bytes : List Byte) :
    Codec.encode c bytes =
      Codec.symbol c (Codec.pad bytes.length) :: (Codec.payload bytes).map (Codec.symbol c) := by
  rw [Codec.encode_eq, Codec.payload, List.map_append]
  split <;> rfl

/-- The bits of the payload are those of the bytes, and the pad count of zeros (42_encoder.md R104). -/
theorem Codec.groupBits_payload (bytes : List Byte) :
    groupBits 18 (Codec.payload bytes) =
        groupBits 8 (bytes.map BitVec.toNat) ++ List.replicate (Codec.pad bytes.length) false ∧
      ∀ v ∈ Codec.payload bytes, v < 2 ^ 18 := by
  have hpack := Codec.packBytes_splits (bytes := bytes) (a := 0) (n := 0) (by simp) (by simp)
  obtain ⟨-, hcnt⟩ := Codec.packBytes_zero_counts bytes
  have hbits := hpack.bits
  have hrest := hpack.rest
  rw [hcnt] at hbits hrest
  rw [bitsOf, List.nil_append] at hbits
  rw [← hbits, Codec.payload]
  by_cases hpad : 0 < Codec.pad bytes.length
  · have hgroup : 8 * bytes.length % 18 + Codec.pad bytes.length = 18 := by
      unfold Codec.pad at hpad ⊢
      omega
    have hfill := bitsOf_mul_add (Codec.packBytes bytes 0 0).2.1 (8 * bytes.length % 18)
      (Nat.two_pow_pos (Codec.pad bytes.length))
    have hlast := appended_lt _ _ _ _ hrest (Nat.two_pow_pos (Codec.pad bytes.length))
    rw [Nat.add_zero, hgroup] at hfill hlast
    rw [if_pos hpad, Nat.shiftLeft_eq, groupBits_append, groupBits_cons, hfill, bitsOf_zero_left]
    exact ⟨by simp, List.forall_mem_append.mpr ⟨hpack.groups, by simpa using hlast⟩⟩
  · have hnone : 8 * bytes.length % 18 = 0 := by
      unfold Codec.pad at hpad
      omega
    rw [if_neg hpad, hnone, bitsOf, Nat.eq_zero_of_not_pos hpad]
    exact ⟨by simp, by simpa using hpack.groups⟩

theorem symbolToValue_valueToSymbol {c : Config} (hc : c.wf) (v : Value) :
    symbolToValue c (valueToSymbol c v) = .ok v :=
  (symbolToValue_eq_ok_iff hc).mpr rfl

theorem Codec.unpackSymbols_cons_of_ok {c : Config} {cp : CodePoint} {rest : List CodePoint}
    {v : Value} {a n : Nat} {bytes : List Byte} (hv : symbolToValue c cp = .ok v)
    (h : Codec.unpackSymbols c rest (Codec.drain 8 (n + 18) (a <<< 18 ||| v.toNat) (n + 18)).2.1
      (Codec.drain 8 (n + 18) (a <<< 18 ||| v.toNat) (n + 18)).2.2 = .ok bytes) :
    Codec.unpackSymbols c (cp :: rest) a n =
      .ok ((Codec.drain 8 (n + 18) (a <<< 18 ||| v.toNat) (n + 18)).1.map (BitVec.ofNat 8) ++
        bytes) := by
  simp only [Codec.unpackSymbols, hv, h]

/-- Numbers below 256 are the numbers of their bytes. -/
theorem map_toNat_map_ofNat {vs : List Nat} (h : ∀ v ∈ vs, v < 2 ^ 8) :
    (vs.map (BitVec.ofNat 8)).map BitVec.toNat = vs := by
  rw [List.map_map]
  exact (List.map_congr_left fun v hv => Nat.mod_eq_of_lt (h v hv)).trans (List.map_id _)

/-- Step 3 of decode keeps the bits of the values, in order, but for fewer than a byte
(43_decoder.md R116). -/
theorem Codec.unpackSymbols_bits {c : Config} (hc : c.wf) {vs : List Nat}
    (hvs : ∀ v ∈ vs, v < 2 ^ 18) {a n : Nat} (ha : a < 2 ^ n) (hn : n < 8) :
    ∃ bytes rest, Codec.unpackSymbols c (vs.map (Codec.symbol c)) a n = .ok bytes ∧
      rest.length < 8 ∧
      groupBits 8 (bytes.map BitVec.toNat) ++ rest = bitsOf a n ++ groupBits 18 vs := by
  induction vs generalizing a n with
  | nil => exact ⟨[], bitsOf a n, rfl, by simpa using hn, by simp⟩
  | cons v vs ih =>
    rw [List.forall_mem_cons] at hvs
    obtain ⟨hv, hvs⟩ := hvs
    have hround := Codec.drain_append_splits (g := 8) (by omega) ha (BitVec.ofNat 18 v).isLt
    obtain ⟨bytes, rest, hrun, hlen, hbits⟩ := ih hvs hround.rest hround.cnt
    have hval : (BitVec.ofNat 18 v).toNat = v := Nat.mod_eq_of_lt hv
    refine ⟨_, rest, Codec.unpackSymbols_cons_of_ok
      (symbolToValue_valueToSymbol hc (BitVec.ofNat 18 v)) hrun, hlen, ?_⟩
    rw [List.map_append, map_toNat_map_ofNat hround.groups, groupBits_append, List.append_assoc,
      hbits, ← List.append_assoc, hround.bits, hval, groupBits_cons, List.append_assoc]

theorem Codec.header_of_ok {c : Config} {cp : CodePoint} {v : Value}
    (hv : symbolToValue c cp = .ok v) (h17 : v.toNat ≤ 17) : Codec.header c cp = .ok v.toNat := by
  simp only [Codec.header, hv, if_neg (not_lt.mpr h17)]

/-- The header that carries pad count `p`. -/
theorem Codec.header_symbol {c : Config} (hc : c.wf) {p : Nat} (hp : p ≤ 17) :
    Codec.header c (Codec.symbol c p) = .ok p := by
  have hval : (BitVec.ofNat 18 p).toNat = p := Nat.mod_eq_of_lt (by omega)
  exact (Codec.header_of_ok (symbolToValue_valueToSymbol hc _) (hval.trans_le hp)).trans
    (congrArg _ hval)

theorem Codec.decode_cons_of_ok {c : Config} {cp : CodePoint} {rest : List CodePoint} {pad : Nat}
    {bytes : List Byte} (hheader : Codec.header c cp = .ok pad)
    (hunpack : Codec.unpackSymbols c rest 0 0 = .ok bytes) :
    Codec.decode c (cp :: rest) =
      .ok (if 0 < pad then bytes.take (Codec.usefulBytes (rest.length + 1) pad) else bytes) := by
  simp only [Codec.decode, hheader, hunpack]

/-- In naturals the clamp to 0 is that of the subtraction. -/
theorem Codec.usefulBytes_eq (k pad : Nat) :
    Codec.usefulBytes k pad = (18 * (k - 1) - pad) / 8 := by
  simp only [Codec.usefulBytes]
  split <;> omega

/-- The source's round trip (43_decoder.md R126): the bits of the bytes come back with the pad count
of zeros behind them, which truncation takes away. -/
theorem Codec.decode_encode {c : Config} (hc : c.wf) (bytes : List Byte) :
    Codec.decode c (Codec.encode c bytes) = .ok bytes := by
  obtain ⟨hpayload, hlt⟩ := Codec.groupBits_payload bytes
  obtain ⟨out, rest, hrun, hrest, hbits⟩ :=
    Codec.unpackSymbols_bits hc hlt (a := 0) (n := 0) (by simp) (by simp)
  rw [bitsOf, List.nil_append, hpayload] at hbits
  have hpad : Codec.pad bytes.length ≤ 16 := by unfold Codec.pad; omega
  have hheader := Codec.header_symbol hc (hpad.trans (by omega))
  have hcount := congrArg List.length hpayload
  have hcount' := congrArg List.length hbits
  simp only [List.length_append, groupBits_length, List.length_map,
    List.length_replicate] at hcount hcount'
  have htake := take_eq_of_groupBits_eq hbits (by omega)
  rw [Codec.encode_eq_payload, Codec.decode_cons_of_ok hheader hrun, List.length_map,
    Codec.usefulBytes_eq]
  split
  · next hpos =>
    rw [show (18 * ((Codec.payload bytes).length + 1 - 1) - Codec.pad bytes.length) / 8 =
      bytes.length by omega, htake]
  · next hzero =>
    rw [← htake, List.take_of_length_le (by omega)]

/-! ## Step 3 of decode (R116) -/

section
variable {c : Config}

theorem Codec.unpackSymbols_of_not_inRange {symbols : List CodePoint} {a n : Nat}
    (h : ∃ cp ∈ symbols, inRange c cp = false) :
    Codec.unpackSymbols c symbols a n = .error .invalidSymbol := by
  induction symbols generalizing a n with
  | nil => simp at h
  | cons cp rest ih =>
    rcases symbolToValue_cases c cp with ⟨hr, e⟩ | ⟨-, e⟩
    · have hrest := by simpa [hr] using h
      simp only [Codec.unpackSymbols, e, ih hrest]
    · simp only [Codec.unpackSymbols, e]

theorem Codec.exists_unpackSymbols_eq_ok {symbols : List CodePoint} {a n : Nat}
    (h : ∀ cp ∈ symbols, inRange c cp = true) :
    ∃ bytes, Codec.unpackSymbols c symbols a n = .ok bytes := by
  induction symbols generalizing a n with
  | nil => exact ⟨[], rfl⟩
  | cons cp rest ih =>
    rw [List.forall_mem_cons] at h
    obtain ⟨hr, hrest⟩ := h
    rcases symbolToValue_cases c cp with ⟨-, e⟩ | ⟨hn, -⟩
    · obtain ⟨bytes, hbytes⟩ := ih hrest
      exact ⟨_, Codec.unpackSymbols_cons_of_ok e hbytes⟩
    · exact absurd hr (Bool.eq_false_iff.mp hn)

/-- It fails only with InvalidSymbol, and only where some symbol is not of the alphabet. -/
theorem Codec.unpackSymbols_eq_error {symbols : List CodePoint} {a n : Nat} {e : ResultError}
    (h : Codec.unpackSymbols c symbols a n = .error e) :
    e = .invalidSymbol ∧ ∃ cp ∈ symbols, inRange c cp = false := by
  by_cases hall : ∀ cp ∈ symbols, inRange c cp = true
  · obtain ⟨bytes, hbytes⟩ := Codec.exists_unpackSymbols_eq_ok (a := a) (n := n) hall
    rw [hbytes] at h
    cases h
  · have hbad : ∃ cp ∈ symbols, inRange c cp = false := by simpa using hall
    rw [Codec.unpackSymbols_of_not_inRange hbad] at h
    cases h
    exact ⟨rfl, hbad⟩

theorem Codec.inRange_of_unpackSymbols_eq_ok {symbols : List CodePoint} {a n : Nat}
    {bytes : List Byte} (h : Codec.unpackSymbols c symbols a n = .ok bytes) :
    ∀ cp ∈ symbols, inRange c cp = true := by
  by_contra hbad
  rw [Codec.unpackSymbols_of_not_inRange (by simpa using hbad)] at h
  cases h

/-- The first symbol joins what is buffered and its bytes come first. -/
theorem Codec.unpackSymbols_cons_eq_ok {cp : CodePoint} {rest : List CodePoint} {a n : Nat}
    {bytes : List Byte} (h : Codec.unpackSymbols c (cp :: rest) a n = .ok bytes) :
    ∃ v tail, symbolToValue c cp = .ok v ∧
      Codec.unpackSymbols c rest (Codec.drain 8 (n + 18) (a <<< 18 ||| v.toNat) (n + 18)).2.1
        (Codec.drain 8 (n + 18) (a <<< 18 ||| v.toNat) (n + 18)).2.2 = .ok tail ∧
      bytes = (Codec.drain 8 (n + 18) (a <<< 18 ||| v.toNat) (n + 18)).1.map (BitVec.ofNat 8) ++
        tail := by
  have hall := Codec.inRange_of_unpackSymbols_eq_ok h
  rw [List.forall_mem_cons] at hall
  obtain ⟨hr, hrest⟩ := hall
  rcases symbolToValue_cases c cp with ⟨-, e⟩ | ⟨hn, -⟩
  · obtain ⟨tail, htail⟩ := Codec.exists_unpackSymbols_eq_ok hrest
    rw [Codec.unpackSymbols_cons_of_ok e htail] at h
    exact ⟨_, tail, e, htail, (Except.ok.inj h).symm⟩
  · exact absurd hr (Bool.eq_false_iff.mp hn)

end

/-! ## Inputs that no encoder produced (R128) -/

section
variable {c : Config} {cp : CodePoint} {rest : List CodePoint}

theorem Codec.decode_cons_of_header_error {e : ResultError} (h : Codec.header c cp = .error e) :
    Codec.decode c (cp :: rest) = .error e := by
  simp only [Codec.decode, h]

theorem Codec.decode_cons_of_unpack_error {p : Nat} {e : ResultError}
    (hp : Codec.header c cp = .ok p) (h : Codec.unpackSymbols c rest 0 0 = .error e) :
    Codec.decode c (cp :: rest) = .error e := by
  simp only [Codec.decode, hp, h]

theorem Codec.header_of_not_inRange (h : inRange c cp = false) :
    Codec.header c cp = .error .invalidSymbol := by
  simp only [Codec.header, symbolToValue_of_not_inRange h]

theorem Codec.header_of_large {v : Value} (hv : symbolToValue c cp = .ok v) (h17 : 17 < v.toNat) :
    Codec.header c cp = .error .invalidHeader := by
  simp only [Codec.header, hv, if_pos h17]

end

section
variable {c : Config} (hc : c.wf)
include hc

/-- One payload symbol gives two bytes, and its two newest bits are left over. -/
theorem Codec.unpackSymbols_single (v : Value) :
    Codec.unpackSymbols c [valueToSymbol c v] 0 0 =
      .ok [(v >>> 10).setWidth 8, ((v >>> 2) &&& 0xFF).setWidth 8] := by
  have hdrain : (Codec.drain 8 18 v.toNat 18).1 = [v.toNat / 2 ^ 10, v.toNat % 2 ^ 10 / 2 ^ 2] := by
    rw [Codec.drain_eq (by omega) le_rfl v.isLt]
    rfl
  have hfirst : BitVec.ofNat 8 (v.toNat / 2 ^ 10) = (v >>> 10).setWidth 8 := by
    rw [← Nat.shiftRight_eq_div_pow, ← BitVec.toNat_ushiftRight, BitVec.ofNat_toNat]
  have hsecond : BitVec.ofNat 8 (v.toNat % 2 ^ 10 / 2 ^ 2) =
      ((v >>> 2) &&& 0xFF).setWidth 8 := by
    apply BitVec.eq_of_toNat_eq
    rw [BitVec.toNat_ofNat, BitVec.toNat_setWidth, BitVec.toNat_and, BitVec.toNat_ushiftRight,
      Nat.shiftRight_eq_div_pow, show (0xFF : Value).toNat = 2 ^ 8 - 1 from rfl,
      Nat.and_two_pow_sub_one_eq_mod]
    omega
  rw [Codec.unpackSymbols_cons_of_ok (symbolToValue_valueToSymbol hc v) (bytes := []) rfl,
    Nat.zero_shiftLeft, Nat.zero_or, Nat.zero_add, hdrain, List.append_nil, List.map_cons,
    List.map_singleton, hfirst, hsecond]

/-- A header and one payload symbol: the bytes of its first 18 - PAD bits. -/
theorem Codec.decode_pair (v : Value) {p : Value} (hp : p.toNat ≤ 17) :
    Codec.decode c [valueToSymbol c p, valueToSymbol c v] =
      .ok ([(v >>> 10).setWidth 8, ((v >>> 2) &&& 0xFF).setWidth 8].take
        ((18 - p.toNat) / 8)) := by
  have hheader := Codec.header_of_ok (symbolToValue_valueToSymbol hc p) hp
  rw [Codec.decode_cons_of_ok hheader (Codec.unpackSymbols_single hc v), Codec.usefulBytes_eq]
  split
  · rfl
  · next hzero => rw [Nat.eq_zero_of_not_pos hzero]; rfl

end

/-! ## The commands, mode by mode (R120, R121, R125) -/

section
variable {s : State} {cp : CodePoint}

theorem exec_decStart (hs : s.mode ≠ .fault) :
    exec .decStart s = .next { s.openTransaction with mode := .decHdr } :=
  unlessFaulted_of_running _ _ hs

theorem exec_decSym_of_decHdr (hm : s.mode = .decHdr) :
    exec (.decSym cp) s = .next (s.acceptHeader cp) := by
  simp [exec, execDecSym, hm]

theorem exec_decSym_of_decPay (hm : s.mode = .decPay) :
    exec (.decSym cp) s = .next (s.acceptPayload cp) := by
  simp [exec, execDecSym, hm]

theorem exec_decSym_of_derr (hm : s.mode = .derr) : exec (.decSym cp) s = .next s := by
  simp [exec, execDecSym, hm]

theorem exec_decFinish_of_decHdr (hm : s.mode = .decHdr) :
    exec .decFinish s = .next { s with mode := .done } := by
  simp [exec, execDecFinish, hm]

theorem exec_decFinish_of_decPay (hm : s.mode = .decPay) :
    exec .decFinish s = .next s.finishDecode := by
  simp [exec, execDecFinish, hm]

theorem exec_decFinish_of_derr (hm : s.mode = .derr) : exec .decFinish s = .next s := by
  simp [exec, execDecFinish, hm]

/-- What a DECODE transaction runs behind its header. -/
def decodeBody (symbols : List CodePoint) : List Instr := symbols.map .decSym ++ [.decFinish]

/-- A decode that has failed ignores the rest of its transaction. -/
theorem execAll_decodeBody_of_derr (symbols : List CodePoint) (hm : s.mode = .derr) :
    execAll (decodeBody symbols) s = .next s := by
  induction symbols with
  | nil => exact execAll_cons (exec_decFinish_of_derr hm)
  | cons cp rest ih => exact (execAll_cons (exec_decSym_of_derr hm)).trans ih

/-! ## The header (R115, R121) -/

theorem State.acceptHeader_of_error {e : ResultError} (h : Codec.header s.config cp = .error e) :
    s.acceptHeader cp = s.raiseError e := by
  unfold Codec.header at h
  unfold State.acceptHeader
  cases hv : symbolToValue s.config cp with
  | error e' =>
    simp only [hv, Except.error.injEq] at h ⊢
    rw [h]
  | ok v =>
    simp only [hv] at h ⊢
    split at h
    · next h17 =>
      cases h
      rw [if_pos h17]
    · cases h

/-- A header is a symbol of the alphabet, of a value from 0 to 17. -/
theorem Codec.header_eq_ok_iff {c : Config} {p : Nat} :
    Codec.header c cp = .ok p ↔
      inRange c cp = true ∧ p ≤ 17 ∧ p = cp.toNat - c.cpStart.toNat := by
  unfold Codec.header
  rcases symbolToValue_cases c cp with ⟨hr, e⟩ | ⟨hr, e⟩
  · simp only [e, symbolValue_toNat c cp hr, hr]
    split
    · simp only [reduceCtorEq, true_and, false_iff]
      omega
    · simp only [Except.ok.injEq, true_and]
      omega
  · simp [e, hr]

theorem State.acceptHeader_of_ok {p : Nat} (h : Codec.header s.config cp = .ok p) :
    s.acceptHeader cp = { s with pad := BitVec.ofNat 5 p, nsym := 1, mode := .decPay } := by
  obtain ⟨hr, h17, rfl⟩ := Codec.header_eq_ok_iff.mp h
  rcases acceptHeader_cases cp s with ⟨hn, -⟩ | ⟨-, hn, -⟩ | ⟨-, -, e⟩
  · exact absurd hr (Bool.eq_false_iff.mp hn)
  · exact absurd hn (not_lt.mpr h17)
  · rw [e, ← symbolValue_toNat _ _ hr, BitVec.ofNat_toNat]

/-! ## The loop's values and OUT, entry by entry -/

theorem mod_two_pow_div_mod {k g m : Nat} (a : Nat) (h : k + g ≤ m) :
    a % 2 ^ m / 2 ^ k % 2 ^ g = a / 2 ^ k % 2 ^ g := by
  rw [← Nat.add_sub_cancel' ((Nat.le_add_right k g).trans h), pow_add, Nat.mod_mul_right_div_self]
  exact Nat.mod_mod_of_dvd _ (pow_dvd_pow 2 (by omega))

/-- The loop's j-th value has the bits of the j-th group, counted from the oldest bit. -/
theorem loopValues_getElem? {g : Nat} (hg : 1 ≤ g) {fuel a n j : Nat} (hf : n ≤ fuel)
    (ha : a < 2 ^ n) (hj : j < n / g) :
    (loopValues g fuel a n)[j]? = some (a / 2 ^ (n - g * (j + 1)) % 2 ^ g) := by
  induction fuel generalizing a n j with
  | zero => simp [Nat.le_zero.mp hf] at hj
  | succ k ih =>
    have hle : g ≤ n := by
      by_contra hlt
      rw [Nat.div_eq_of_lt (not_le.mp hlt)] at hj
      exact absurd hj (Nat.not_lt_zero j)
    rw [loopValues, if_pos hle]
    cases j with
    | zero =>
      rw [List.getElem?_cons_zero, Nat.zero_add, Nat.mul_one,
        Nat.mod_eq_of_lt (oldest_lt a n g ha hle)]
    | succ j =>
      have hj' : j < (n - g) / g := by
        rw [Nat.div_eq_sub_div hg hle] at hj
        omega
      have hend : g * (j + 1) ≤ n - g := (Nat.mul_le_mul_left g hj').trans (Nat.mul_div_le _ g)
      have hpos : g ≤ g * (j + 1) := Nat.le_mul_of_pos_right g (Nat.succ_pos j)
      rw [List.getElem?_cons_succ, ih (by omega) (Nat.mod_lt _ (Nat.two_pow_pos _)) hj',
        mod_two_pow_div_mod _ (by omega), Nat.mul_succ g (j + 1), Nat.sub_sub, Nat.add_comm g]

theorem Memory.read_append (a : Nat) (m m' : Memory) :
    Memory.read a (m ++ m') = (Memory.read a m).or (Memory.read a m') := by
  induction m with
  | nil => rfl
  | cons e rest ih =>
    obtain ⟨j, v⟩ := e
    rw [List.cons_append, Memory.read, Memory.read, ih]
    split <;> rfl

theorem Memory.read_eq_none {a : Nat} {m : Memory} (h : a ∉ m.map Prod.fst) :
    Memory.read a m = none := by
  rwa [← Memory.read_isSome_iff, Option.not_isSome_iff_eq_none] at h

section
variable {s t : State} {vs : List CodePoint}

theorem State.Appends.read_added (h : s.Appends t vs)
    (hkeys : ∀ a ∈ s.out.map Prod.fst, a < s.outLen.toNat) (i : Nat) :
    t.out.read (s.outLen.toNat + i) = vs[i]? := by
  have hfree : s.outLen.toNat + i ∉ s.out.map Prod.fst := fun hmem =>
    absurd (hkeys _ hmem) (by omega)
  rw [h.out, Memory.read_append, Memory.read_eq_none hfree, Option.none_or, read_entriesFrom]

theorem State.Appends.read_of_not_added (h : s.Appends t vs) {a : Nat}
    (ha : a < s.outLen.toNat ∨ s.outLen.toNat + vs.length ≤ a) :
    t.out.read a = s.out.read a := by
  have hother : a ∉ (entriesFrom s.outLen.toNat vs).map Prod.fst := by
    rw [entriesFrom_keys, List.mem_range'_1]
    omega
  rw [h.out, Memory.read_append, Memory.read_eq_none hother, Option.or_none]

end

/-- The loop changes ACC, CNT, OUTLEN and OUT alone. -/
theorem State.drain_frame (g : Nat) (entry : Value → CodePoint) (fuel : Nat) (s : State) :
    s.drain g entry fuel = { s with
      acc := (s.drain g entry fuel).acc, cnt := (s.drain g entry fuel).cnt,
      outLen := (s.drain g entry fuel).outLen, out := (s.drain g entry fuel).out } := by
  induction fuel generalizing s with
  | zero => rfl
  | succ k ih =>
    by_cases hle : g ≤ s.cnt.toNat
    · rw [State.drain_of_le g entry k s hle]
      exact ih _
    · rw [State.drain_of_lt g entry (k + 1) s (not_le.mp hle)]

theorem State.feedValue_frame (v : Value) (s : State) :
    s.feedValue v = { s with
      acc := (s.feedValue v).acc, cnt := (s.feedValue v).cnt, nsym := (s.feedValue v).nsym,
      outLen := (s.feedValue v).outLen, out := (s.feedValue v).out } :=
  congrArg (fun u : State => { u with nsym := s.nsym + 1 }) (State.drain_frame 8 _ _ (s.append 18 v))

/-! ## A payload symbol (R121, R122) -/

/-- OUTLEN once `k` more payload symbols are unpacked. -/
def State.outLenAfter (k : Nat) (s : State) : Nat := s.outLen.toNat + (s.cnt.toNat + 18 * k) / 8

theorem State.outLenAfter_one_le (k : Nat) (s : State) :
    s.outLenAfter 1 ≤ s.outLenAfter (k + 1) := by
  unfold State.outLenAfter
  omega

theorem exec_decSym_of_room (hm : s.mode = .decPay) {v : Value}
    (hv : symbolToValue s.config cp = .ok v) (hfit : s.outLenAfter 1 ≤ s.config.outCap) :
    exec (.decSym cp) s = .next (s.feedValue v) := by
  rw [exec_decSym_of_decPay hm, State.acceptPayload, hv]
  exact congrArg _ (faultIf_of_not _ _ _ _ (not_lt.mpr hfit))

theorem exec_decSym_of_overflow (hm : s.mode = .decPay) {v : Value}
    (hv : symbolToValue s.config cp = .ok v) (hover : s.config.outCap < s.outLenAfter 1) :
    exec (.decSym cp) s = .next (s.raiseFault .outOverflow) := by
  rw [exec_decSym_of_decPay hm, State.acceptPayload, hv]
  exact congrArg _ (faultIf_of _ _ _ _ hover)

theorem exec_decSym_of_not_inRange (hm : s.mode = .decPay) (hr : inRange s.config cp = false) :
    exec (.decSym cp) s = .next (s.raiseError .invalidSymbol) := by
  rw [exec_decSym_of_decPay hm, State.acceptPayload, symbolToValue_of_not_inRange hr]

section
variable {v : Value} (h : s.EngineInv) (hm : s.mode = .decPay)
  (hfit : s.outLenAfter 1 ≤ s.config.outCap)
include h hm hfit

/-- DEC_SYM where it fits is one round of `decode`. -/
theorem State.EngineInv.feedValue_packs :
    s.Packs (s.feedValue v) (fun byte => byte.setWidth 21)
      (Codec.drain 8 (s.cnt.toNat + 18) (s.acc.toNat <<< 18 ||| v.toNat) (s.cnt.toNat + 18)) := by
  have hcap := h.wf.outCap_lt
  obtain ⟨-, hcnt, -⟩ := h.decPay hm
  obtain ⟨⟨hlen, hout⟩, hacc, hcnt'⟩ := h.accOk.drain_append_packs (g := 8) (n := 18) (c := v)
    (fun byte => byte.setWidth 21) (by omega) (by omega) (by omega) v.isLt
    (lt_of_le_of_lt hfit hcap)
    (State.definedFrom_keys_lt (h.defined (by simp [hm]) (by simp [hm])))
  exact ⟨⟨hlen, hout⟩, hacc, hcnt'⟩

theorem State.EngineInv.outLenAfter_feedValue (k : Nat) :
    (s.feedValue v).outLenAfter k = s.outLenAfter (k + 1) := by
  obtain ⟨-, hcnt, hlen, -⟩ := h.feedValue_spec hm v (not_lt.mpr hfit)
  rw [State.outLenAfter, State.outLenAfter, hcnt, hlen]
  omega

/-- DEC_SYM in one piece: the values of the bytes it adds, and the newest bits that stay. -/
theorem State.EngineInv.feedValue_packs_loopValues :
    s.Packs (s.feedValue v) (fun byte => byte.setWidth 21)
      (loopValues 8 (s.cnt.toNat + 18) (s.acc.toNat * 2 ^ 18 + v.toNat) (s.cnt.toNat + 18),
        (s.acc.toNat * 2 ^ 18 + v.toNat) % 2 ^ ((s.cnt.toNat + 18) % 8),
        (s.cnt.toNat + 18) % 8) := by
  have hpacks := h.feedValue_packs (v := v) hm hfit
  rwa [← Nat.shiftLeft_add_eq_or_of_lt v.isLt, Nat.shiftLeft_eq,
    Codec.drain_eq (by omega) le_rfl (appended_lt _ _ _ _ h.accOk.lt v.isLt)] at hpacks

/-- Behind OUTLEN stand the full bytes, oldest first. -/
theorem State.EngineInv.feedValue_read_added {j : Nat} (hj : j < (s.cnt.toNat + 18) / 8) :
    (s.feedValue v).out.read (s.outLen.toNat + j) = some ((BitVec.ofNat 18
      ((s.acc.toNat * 2 ^ 18 + v.toNat) / 2 ^ (s.cnt.toNat + 18 - 8 * (j + 1)) % 2 ^ 8)).setWidth
        21) := by
  have happ := (h.feedValue_packs_loopValues (v := v) hm hfit).appends
  have hkeys := State.definedFrom_keys_lt (h.defined (by simp [hm]) (by simp [hm]))
  rw [happ.read_added hkeys, List.getElem?_map, loopValues_getElem? (by omega) le_rfl
    (appended_lt _ _ _ _ h.accOk.lt v.isLt) hj, Option.map_some]

/-- Every other entry stays. -/
theorem State.EngineInv.feedValue_read_of_not_added {a : Nat}
    (ha : a < s.outLen.toNat ∨ s.outLen.toNat + (s.cnt.toNat + 18) / 8 ≤ a) :
    (s.feedValue v).out.read a = s.out.read a := by
  refine (h.feedValue_packs_loopValues (v := v) hm hfit).appends.read_of_not_added ?_
  rwa [List.length_map, loopValues_length 8 (by omega) _ _ _ le_rfl]

end

end

/-! ## The symbols of a decode (R121 to R123) -/

/-- How many payload symbols a decode accepts: those before the first that is not of the alphabet. -/
def Codec.acceptedPayload (c : Config) (symbols : List CodePoint) : Nat :=
  (symbols.takeWhile fun cp => inRange c cp).length

section
variable {c : Config} {cp : CodePoint} {rest : List CodePoint}

theorem Codec.acceptedPayload_cons_of_inRange (h : inRange c cp = true) :
    Codec.acceptedPayload c (cp :: rest) = Codec.acceptedPayload c rest + 1 := by
  rw [Codec.acceptedPayload, List.takeWhile_cons_of_pos h, List.length_cons, Codec.acceptedPayload]

theorem Codec.acceptedPayload_cons_of_not_inRange (h : inRange c cp = false) :
    Codec.acceptedPayload c (cp :: rest) = 0 := by
  rw [Codec.acceptedPayload, List.takeWhile_cons_of_neg (Bool.eq_false_iff.mp h), List.length_nil]

theorem Codec.acceptedPayload_of_forall (h : ∀ cp ∈ rest, inRange c cp = true) :
    Codec.acceptedPayload c rest = rest.length := by
  rw [Codec.acceptedPayload, List.takeWhile_eq_self_iff.mpr h]

theorem Codec.accepted_cons_of_ok {p : Nat} (h : Codec.header c cp = .ok p) :
    Codec.accepted c (cp :: rest) = 1 + Codec.acceptedPayload c rest := by
  simp only [Codec.accepted, h, Codec.acceptedPayload]

theorem Codec.accepted_cons_of_error {e : ResultError} (h : Codec.header c cp = .error e) :
    Codec.accepted c (cp :: rest) = 0 := by
  simp only [Codec.accepted, h]

end

section
variable {s : State} {symbols : List CodePoint}

/-- A value of 8 bits makes the entry of its byte. -/
theorem map_entry_eq_map_byte {vs : List Nat} (h : ∀ v ∈ vs, v < 2 ^ 8) :
    (vs.map fun v => (BitVec.ofNat 18 v).setWidth 21) =
      (vs.map (BitVec.ofNat 8)).map fun b => b.setWidth 21 := by
  rw [List.map_map]
  refine List.map_congr_left fun v hv => BitVec.eq_of_toNat_eq ?_
  have hlt := h v hv
  simp only [Function.comp_apply, BitVec.toNat_setWidth, BitVec.toNat_ofNat]
  omega

/-- The symbols of an open decode that fit are unpacked as `decode` unpacks them. -/
theorem State.EngineInv.execAll_decSyms {bytes : List Byte} (h : s.EngineInv)
    (hm : s.mode = .decPay)
    (hbytes : Codec.unpackSymbols s.config symbols s.acc.toNat s.cnt.toNat = .ok bytes)
    (hfit : s.outLenAfter symbols.length ≤ s.config.outCap) :
    ∃ t, Machine.execAll (symbols.map .decSym) s = .next t ∧ t.mode = .decPay ∧ t.pad = s.pad ∧
      t.nsym.toNat = s.nsym.toNat + symbols.length ∧
      s.Appends t (bytes.map fun b => b.setWidth 21) := by
  induction symbols generalizing s bytes with
  | nil =>
    obtain rfl : [] = bytes := Except.ok.inj hbytes
    exact ⟨s, rfl, hm, rfl, rfl, rfl, by simp⟩
  | cons cp rest ih =>
    obtain ⟨v, tail, hv, htail, rfl⟩ := Codec.unpackSymbols_cons_eq_ok hbytes
    rw [List.length_cons] at hfit
    have hroom := (s.outLenAfter_one_le _).trans hfit
    have hround := h.feedValue_packs (v := v) hm hroom
    have hsplits := Codec.drain_append_splits (g := 8) (by omega) h.accOk.lt v.isLt
    have happ := hround.appends
    rw [map_entry_eq_map_byte hsplits.groups] at happ
    obtain ⟨t, ht, htm, hpad, hnsym, hrest⟩ := ih (h.feedValue hm v (not_lt.mpr hroom))
      (by simpa using hm) (by rwa [State.feedValue_config, hround.acc, hround.cnt])
      (by rwa [h.outLenAfter_feedValue hm hroom, State.feedValue_config])
    rw [State.feedValue_nsym, h.nsym_succ hm, Nat.add_assoc, Nat.add_comm 1] at hnsym
    refine ⟨t, (execAll_cons (exec_decSym_of_room hm hv hroom)).trans ht, htm,
      hpad.trans (s.feedValue_pad v), hnsym, ?_⟩
    rw [List.map_append]
    exact happ.trans hrest

/-- Where the accepted symbols fit and one behind them is not of the alphabet, the decode fails there
(R116). -/
theorem State.EngineInv.decodeBody_fails (h : s.EngineInv) (hm : s.mode = .decPay)
    (hbad : ∃ cp ∈ symbols, inRange s.config cp = false)
    (hfit : s.outLenAfter (Codec.acceptedPayload s.config symbols) ≤ s.config.outCap) :
    ∃ t : State, Machine.execAll (decodeBody symbols) s = .next (t.raiseError .invalidSymbol) ∧
      t.nsym.toNat = s.nsym.toNat + Codec.acceptedPayload s.config symbols := by
  induction symbols generalizing s with
  | nil => simp at hbad
  | cons cp rest ih =>
    rcases symbolToValue_cases s.config cp with ⟨hr, hv⟩ | ⟨hr, -⟩
    · rw [Codec.acceptedPayload_cons_of_inRange hr] at hfit ⊢
      have hroom := (s.outLenAfter_one_le _).trans hfit
      have hnsym := h.nsym_succ hm
      obtain ⟨t, ht, hcount⟩ := ih
        (h.feedValue hm ((cp - s.config.cpStart).setWidth 18) (not_lt.mpr hroom))
        (by simpa using hm) (by simpa [hr] using hbad)
        (by rwa [State.feedValue_config, h.outLenAfter_feedValue hm hroom])
      rw [State.feedValue_nsym, State.feedValue_config] at hcount
      exact ⟨t, (execAll_cons (exec_decSym_of_room hm hv hroom)).trans ht, by omega⟩
    · refine ⟨s, (execAll_cons (exec_decSym_of_not_inRange hm hr)).trans
        (execAll_decodeBody_of_derr rest rfl), ?_⟩
      rw [Codec.acceptedPayload_cons_of_not_inRange hr]
      rfl

/-- Where the accepted symbols do not fit, one of them overflows. -/
theorem State.EngineInv.decodeBody_overflows (h : s.EngineInv) (hm : s.mode = .decPay)
    (hover : s.config.outCap < s.outLenAfter (Codec.acceptedPayload s.config symbols)) :
    ∃ t : State, Machine.execAll (decodeBody symbols) s = .next (t.raiseFault .outOverflow) := by
  have hnone : s.outLenAfter 0 ≤ s.config.outCap := by
    obtain ⟨-, hcnt, -⟩ := h.decPay hm
    rw [State.outLenAfter, Nat.div_eq_of_lt (by omega)]
    exact h.released.outLen
  induction symbols generalizing s with
  | nil => exact absurd hnone (not_le.mpr hover)
  | cons cp rest ih =>
    rcases symbolToValue_cases s.config cp with ⟨hr, hv⟩ | ⟨hr, -⟩
    · rw [Codec.acceptedPayload_cons_of_inRange hr] at hover
      by_cases hroom : s.outLenAfter 1 ≤ s.config.outCap
      · have hnext := h.outLenAfter_feedValue (v := (cp - s.config.cpStart).setWidth 18) hm hroom
        obtain ⟨t, ht⟩ := ih
          (h.feedValue hm ((cp - s.config.cpStart).setWidth 18) (not_lt.mpr hroom))
          (by simpa using hm)
          (by rwa [hnext, State.feedValue_config]) (by rwa [hnext, State.feedValue_config])
        exact ⟨t, (execAll_cons (exec_decSym_of_room hm hv hroom)).trans ht⟩
      · exact ⟨s, (execAll_cons (exec_decSym_of_overflow hm hv (not_le.mp hroom))).trans
          (execAll_of_fault _ rfl)⟩
    · rw [Codec.acceptedPayload_cons_of_not_inRange hr] at hover
      exact absurd hnone (not_le.mpr hover)

end

/-! ## DEC_FINISH (R118, R119, R124, R125) -/

/-- OUT holds exactly the entries `vs`. -/
structure State.Holds (s : State) (vs : List CodePoint) : Prop where
  outLen : s.outLen.toNat = vs.length
  out : s.out = entriesFrom 0 vs

theorem State.Holds.read {s : State} {vs : List CodePoint} (h : s.Holds vs) (i : Nat) :
    s.out.read i = vs[i]? := by
  rw [h.out, ← read_entriesFrom 0 i, Nat.zero_add]

theorem Memory.truncate_entriesFrom (k n : Nat) (vs : List CodePoint) :
    Memory.truncate n (entriesFrom k vs) = entriesFrom k (vs.take (n - k)) := by
  induction vs generalizing k with
  | nil => simp [Memory.truncate]
  | cons v vs ih =>
    rw [entriesFrom_cons, Memory.truncate, ih]
    split
    · next hlt => rw [show n - k = n - (k + 1) + 1 by omega, List.take_succ_cons, entriesFrom_cons]
    · next hge => rw [show n - (k + 1) = 0 by omega, show n - k = 0 by omega]; rfl

theorem State.usefulBytes_eq (s : State) :
    s.usefulBytes = (18 * (s.nsym.toNat - 1) - s.pad.toNat) / 8 :=
  Codec.usefulBytes_eq s.nsym.toNat s.pad.toNat

section
variable {s : State} (h : s.EngineInv) (hm : s.mode = .decPay)
include h hm

/-- Truncation never extends OUT and takes away at most 3 entries (R119, R124). -/
theorem State.EngineInv.usefulBytes_bounds :
    s.usefulBytes ≤ s.outLen.toNat ∧ s.outLen.toNat ≤ s.usefulBytes + 3 := by
  obtain ⟨-, hcnt, hbits⟩ := h.decPay hm
  have hpad := h.pad_le
  rw [State.usefulBytes_eq]
  omega

theorem State.EngineInv.stripPadding_eq :
    s.stripPadding = if 0 < s.pad.toNat then s.setOutLen s.usefulBytes else s := by
  obtain ⟨hle, -⟩ := h.usefulBytes_bounds hm
  rw [State.stripPadding, min_eq_right hle]

theorem State.EngineInv.setOutLen_usefulBytes_toNat :
    (s.setOutLen s.usefulBytes).outLen.toNat = s.usefulBytes := by
  obtain ⟨hle, -⟩ := h.usefulBytes_bounds hm
  exact Nat.mod_eq_of_lt (lt_of_le_of_lt hle s.outLen.isLt)

/-- DEC_FINISH strips the entries as `decode` strips its bytes. -/
theorem State.EngineInv.finishDecode_holds {vs : List CodePoint} (hs : s.Holds vs) :
    s.finishDecode.Holds (if 0 < s.pad.toNat then vs.take s.usefulBytes else vs) := by
  have hlen : s.finishDecode.outLen = s.stripPadding.outLen := rfl
  have hout : s.finishDecode.out = s.stripPadding.out := rfl
  obtain ⟨hle, -⟩ := h.usefulBytes_bounds hm
  rw [h.stripPadding_eq hm] at hlen hout
  split at hlen
  · next hpad =>
    rw [if_pos hpad] at hout ⊢
    constructor
    · rw [hlen, h.setOutLen_usefulBytes_toNat hm, List.length_take, ← hs.outLen, min_eq_left hle]
    · rw [hout, State.setOutLen_out, hs.out, Memory.truncate_entriesFrom, Nat.sub_zero]
  · next hpad =>
    rw [if_neg hpad] at hout ⊢
    exact ⟨by rw [hlen, hs.outLen], by rw [hout, hs.out]⟩

end

/-! ## The transaction theorem (R127) -/

theorem wellFormed_of_mem_decodeTransaction {symbols : List CodePoint} :
    ∀ i ∈ decodeTransaction symbols, i.WellFormed := by
  simp only [decodeTransaction, List.mem_append, List.mem_singleton, List.mem_map]
  rintro i ((rfl | ⟨cp, -, rfl⟩) | rfl) <;> rfl

theorem Codec.decode_cons_eq_ok {c : Config} {cp : CodePoint} {rest : List CodePoint}
    {bytes : List Byte} (h : Codec.decode c (cp :: rest) = .ok bytes) :
    ∃ p out, Codec.header c cp = .ok p ∧ Codec.unpackSymbols c rest 0 0 = .ok out ∧
      bytes = if 0 < p then out.take (Codec.usefulBytes (rest.length + 1) p) else out := by
  cases hp : Codec.header c cp with
  | error e => simp [Codec.decode, hp] at h
  | ok p =>
    cases hout : Codec.unpackSymbols c rest 0 0 with
    | error e => simp [Codec.decode, hp, hout] at h
    | ok out =>
      rw [Codec.decode_cons_of_ok hp hout] at h
      exact ⟨p, out, rfl, rfl, (Except.ok.inj h).symm⟩

theorem Codec.decode_cons_eq_error {c : Config} {cp : CodePoint} {rest : List CodePoint}
    {e : ResultError} (h : Codec.decode c (cp :: rest) = .error e) :
    Codec.header c cp = .error e ∨
      ∃ p, Codec.header c cp = .ok p ∧ Codec.unpackSymbols c rest 0 0 = .error e := by
  cases hp : Codec.header c cp with
  | error e' => simpa [Codec.decode, hp] using h
  | ok p =>
    cases hout : Codec.unpackSymbols c rest 0 0 with
    | error e' => simpa [Codec.decode, hp, hout] using h
    | ok out =>
      rw [Codec.decode_cons_of_ok hp hout] at h
      cases h

/-- Where decode(T) succeeds, every symbol is accepted. -/
theorem Codec.accepted_of_decode_eq_ok {c : Config} {symbols : List CodePoint} {bytes : List Byte}
    (h : Codec.decode c symbols = .ok bytes) : Codec.accepted c symbols = symbols.length := by
  cases symbols with
  | nil => rfl
  | cons cp rest =>
    obtain ⟨p, out, hp, hout, -⟩ := Codec.decode_cons_eq_ok h
    rw [Codec.accepted_cons_of_ok hp,
      Codec.acceptedPayload_of_forall (Codec.inRange_of_unpackSymbols_eq_ok hout),
      List.length_cons, Nat.add_comm]

/-- A new decode whose header, of pad count `p`, has been accepted. -/
def State.headerAccepted (p : Nat) (s : State) : State :=
  { s.openTransaction with pad := BitVec.ofNat 5 p, nsym := 1, mode := .decPay }

section
variable {s : State} {cp : CodePoint} {rest : List CodePoint}

theorem State.EngineInv.headerAccepted (h : s.EngineInv) (hs : s.mode ≠ .fault) {p : Nat}
    (hp : p ≤ 17) : (s.headerAccepted p).EngineInv :=
  (h.decStart hs).header rfl (by rw [BitVec.toNat_ofNat]; omega)

theorem State.headerAccepted_outLenAfter (p k : Nat) (s : State) :
    (s.headerAccepted p).outLenAfter k = 18 * k / 8 := by
  simp [State.outLenAfter, State.headerAccepted]

/-- DEC_START and a header leave the payload to be decoded. -/
theorem execAll_decodeTransaction_of_header (hs : s.mode ≠ .fault) {p : Nat}
    (hp : Codec.header s.config cp = .ok p) :
    execAll (decodeTransaction (cp :: rest)) s =
      execAll (decodeBody rest) (s.headerAccepted p) := by
  have hheader : exec (.decSym cp) { s.openTransaction with mode := .decHdr } =
      .next (s.headerAccepted p) :=
    (exec_decSym_of_decHdr rfl).trans (congrArg _ (State.acceptHeader_of_ok hp))
  exact (execAll_cons (exec_decStart hs)).trans (execAll_cons hheader)

/-- A DECODE transaction whose header is refused fails with no symbol accepted. -/
theorem execAll_decodeTransaction_of_header_error (hs : s.mode ≠ .fault) {e : ResultError}
    (he : Codec.header s.config cp = .error e) :
    execAll (decodeTransaction (cp :: rest)) s =
      .next (({ s.openTransaction with mode := .decHdr } : State).raiseError e) := by
  have hheader : exec (.decSym cp) { s.openTransaction with mode := .decHdr } =
      .next (({ s.openTransaction with mode := .decHdr } : State).raiseError e) :=
    (exec_decSym_of_decHdr rfl).trans (congrArg _ (State.acceptHeader_of_error he))
  exact ((execAll_cons (exec_decStart hs)).trans (execAll_cons hheader)).trans
    (execAll_decodeBody_of_derr rest rfl)

end

/-- `u` is in a decode of a header of pad count `p` and `k` payload symbols, all accepted: OUT has the
bytes `out` of `decode`'s step 3. -/
structure State.Unpacked (u : State) (p k : Nat) (out : List Byte) : Prop where
  inv : u.EngineInv
  mode : u.mode = .decPay
  pad : u.pad.toNat = p
  nsym : u.nsym.toNat = k + 1
  holds : u.Holds (out.map fun b => b.setWidth 21)

/-- DEC_FINISH leaves what `decode` answers. -/
theorem State.Unpacked.finishDecode_holds {u : State} {p k : Nat} {out : List Byte}
    (h : u.Unpacked p k out) :
    u.finishDecode.Holds ((if 0 < p then out.take (Codec.usefulBytes (k + 1) p) else out).map
      fun b => b.setWidth 21) := by
  have hfinish := h.inv.finishDecode_holds h.mode h.holds
  rw [State.usefulBytes_eq, ← Codec.usefulBytes_eq, h.pad, h.nsym, ← List.map_take,
    ← apply_ite (List.map _)] at hfinish
  exact hfinish

/-- `t` is what a DECODE transaction of `symbols` leaves where decode(T) is `bytes`. -/
structure State.Decoded (t : State) (c : Config) (symbols : List CodePoint) (bytes : List Byte) :
    Prop where
  mode : t.mode = .done
  holds : t.Holds (bytes.map fun b => b.setWidth 21)
  cnt : t.cnt = 0
  nsym : t.nsym.toNat = symbols.length
  pad : t.pad.toNat = (symbols.map fun h => h.toNat - c.cpStart.toNat).headD 0

section
variable {s : State} {symbols : List CodePoint}

/-- Behind an accepted header, the payload symbols that fit. -/
theorem State.EngineInv.unpacks (h : s.EngineInv) (hs : s.mode ≠ .fault) {p : Nat} (hp : p ≤ 17)
    {out : List Byte} (hout : Codec.unpackSymbols s.config symbols 0 0 = .ok out)
    (hfit : 18 * symbols.length / 8 ≤ s.config.outCap) :
    ∃ u : State, Machine.execAll (symbols.map .decSym) (s.headerAccepted p) = .next u ∧
      u.Unpacked p symbols.length out := by
  have hstart := h.headerAccepted hs hp
  obtain ⟨u, hu, hm, hpad, hnsym, happ⟩ := hstart.execAll_decSyms (bytes := out) rfl hout
    (by rw [State.headerAccepted_outLenAfter]; exact hfit)
  exact ⟨u, hu, {
    inv := hstart.execAll (List.forall_mem_map.mpr fun _ _ => rfl) hu
    mode := hm
    pad := (congrArg BitVec.toNat hpad).trans (Nat.mod_eq_of_lt (by omega))
    nsym := hnsym.trans (Nat.add_comm _ _)
    holds := {
      outLen := happ.outLen.trans (Nat.zero_add _)
      out := happ.out.trans (congrArg (· ++ _) (Memory.truncate_zero s.out)) } }⟩

/-- A DECODE transaction that fits and succeeds. -/
theorem State.EngineInv.decodes (h : s.EngineInv) (hs : s.mode ≠ .fault) {bytes : List Byte}
    (hdec : Codec.decode s.config symbols = .ok bytes)
    (hfit : 18 * (symbols.length - 1) / 8 ≤ s.config.outCap) :
    ∃ t : State, Machine.execAll (decodeTransaction symbols) s = .next t ∧
      t.Decoded s.config symbols bytes := by
  cases symbols with
  | nil =>
    obtain rfl : [] = bytes := Except.ok.inj hdec
    exact ⟨_, (execAll_cons (exec_decStart hs)).trans
      (execAll_cons (exec_decFinish_of_decHdr rfl)), rfl, ⟨rfl, Memory.truncate_zero s.out⟩, rfl,
      rfl, rfl⟩
  | cons cp rest =>
    obtain ⟨p, out, hp, hout, rfl⟩ := Codec.decode_cons_eq_ok hdec
    obtain ⟨-, hle, hval⟩ := Codec.header_eq_ok_iff.mp hp
    obtain ⟨u, hu, hunpacked⟩ := h.unpacks hs hle hout hfit
    have hfinish := execAll_cons (is := []) (exec_decFinish_of_decPay hunpacked.mode)
    refine ⟨u.finishDecode, (execAll_decodeTransaction_of_header hs hp).trans
      ((execAll_append hu).trans hfinish), ?_⟩
    exact {
      mode := rfl
      holds := hunpacked.finishDecode_holds
      cnt := rfl
      nsym := by rw [State.finishDecode_nsym, hunpacked.nsym, List.length_cons]
      pad := by
        rw [State.finishDecode_pad, hunpacked.pad, hval]
        rfl }

/-- A DECODE transaction that fails, where the symbols accepted before fit. -/
theorem State.EngineInv.decode_fails (h : s.EngineInv) (hs : s.mode ≠ .fault) {e : ResultError}
    (hdec : Codec.decode s.config symbols = .error e)
    (hfit : 18 * (Codec.accepted s.config symbols - 1) / 8 ≤ s.config.outCap) :
    ∃ t : State, Machine.execAll (decodeTransaction symbols) s = .next (t.raiseError e) ∧
      t.nsym.toNat = Codec.accepted s.config symbols := by
  cases symbols with
  | nil => cases hdec
  | cons cp rest =>
    rcases Codec.decode_cons_eq_error hdec with he | ⟨p, hp, hunpack⟩
    · exact ⟨_, execAll_decodeTransaction_of_header_error hs he,
        (Codec.accepted_cons_of_error he).symm⟩
    · obtain ⟨-, h17, -⟩ := Codec.header_eq_ok_iff.mp hp
      obtain ⟨rfl, hbad⟩ := Codec.unpackSymbols_eq_error hunpack
      rw [Codec.accepted_cons_of_ok hp, Nat.add_sub_cancel_left] at hfit
      obtain ⟨t, ht, hnsym⟩ := (h.headerAccepted hs h17).decodeBody_fails rfl hbad
        (by rw [State.headerAccepted_outLenAfter]; exact hfit)
      exact ⟨t, (execAll_decodeTransaction_of_header hs hp).trans ht,
        hnsym.trans (Codec.accepted_cons_of_ok hp).symm⟩

/-- A DECODE transaction whose accepted symbols do not fit. -/
theorem State.EngineInv.decode_overflows (h : s.EngineInv) (hs : s.mode ≠ .fault)
    (hover : s.config.outCap < 18 * (Codec.accepted s.config symbols - 1) / 8) :
    ∃ t : State, Machine.execAll (decodeTransaction symbols) s =
      .next (t.raiseFault .outOverflow) := by
  cases symbols with
  | nil => simp [Codec.accepted] at hover
  | cons cp rest =>
    cases hp : Codec.header s.config cp with
    | error e =>
      rw [Codec.accepted_cons_of_error hp] at hover
      exact absurd hover (Nat.not_lt_zero _)
    | ok p =>
      obtain ⟨-, h17, -⟩ := Codec.header_eq_ok_iff.mp hp
      rw [Codec.accepted_cons_of_ok hp, Nat.add_sub_cancel_left] at hover
      obtain ⟨t, ht⟩ := (h.headerAccepted hs h17).decodeBody_overflows (symbols := rest) rfl
        (by rw [State.headerAccepted_outLenAfter]; exact hover)
      exact ⟨t, (execAll_decodeTransaction_of_header hs hp).trans ht⟩

/-- An ENCODE transaction that fits leaves encode(B) in OUT (42_encoder.md R110). -/
theorem State.EngineInv.encodeTransaction_holds (h : s.EngineInv) (hs : s.mode ≠ .fault)
    {bytes : List Byte} (hfit : 1 + (8 * bytes.length + 17) / 18 ≤ s.config.outCap) :
    ∃ t : State, Machine.execAll (encodeTransaction bytes) s = .next t ∧ t.mode = .done ∧
      t.Holds (Codec.encode s.config bytes) := by
  obtain ⟨u, hu, henc⟩ := h.encodes (bytes := bytes) hs (by omega)
  have hroom := henc.finish_fits hfit
  obtain ⟨hlen, hout⟩ := henc.finishEncode_out hroom
  exact ⟨u.finishEncode, (execAll_append hu).trans (execAll_cons (exec_encFinish henc.mode hroom)),
    rfl, hlen, hout⟩

end

theorem entriesFrom_values (k : Nat) (vs : List CodePoint) :
    (entriesFrom k vs).map Prod.snd = vs := List.map_snd_zip (by simp)

end Sys2Proof.Machine

namespace Sys2Proof.Proofs
open Sys2Proof Sys2Proof.Machine

/-! ## The statements -/

/-- Settles O56: each symbol is one round of `decode`, and DEC_FINISH strips what `decode` strips. -/
theorem decodeTransactionComputesDecode : Obligations.DecodeTransactionComputesDecode := by
  refine fun symbols s h hs hfit => ⟨fun bytes hdec => ?_, fun e hdec => ?_⟩
  · have hall := Codec.accepted_of_decode_eq_ok hdec
    rw [hall] at hfit
    obtain ⟨t, ht, hdone⟩ := h.engineInv.decodes hs hdec hfit
    have hinv := h.engineInv.execAll wellFormed_of_mem_decodeTransaction ht
    have hm := hdone.mode
    refine ⟨t, ht, hm, ?_, fun i => ?_, hinv.ecode_eq_none (by simp [hm]) (by simp [hm]),
      hinv.fcode_eq_none (by simp [hm]), hdone.cnt, hdone.nsym, hdone.pad, hall⟩
    · rw [hdone.holds.outLen, List.length_map]
    · rw [hdone.holds.read, List.getElem?_map]
  · obtain ⟨t, ht, hnsym⟩ := h.engineInv.decode_fails hs hdec hfit
    refine ⟨_, ht, rfl, rfl, rfl, fun i => ?_, hnsym⟩
    rw [State.raiseError_out, Memory.truncate_zero, Memory.read_nil]

/-- Settles O57: a symbol whose bytes do not fit raises OutOverflow, and the rest is ignored. -/
theorem decodeTransactionOverflowsWhenFull : Obligations.DecodeTransactionOverflowsWhenFull := by
  intro symbols s h hs hover
  obtain ⟨t, ht⟩ := h.engineInv.decode_overflows hs hover
  exact ⟨_, ht, rfl, rfl⟩

/-- Settles O58: the codec keeps the bits, and truncation takes the padding away. -/
theorem decodeInvertsEncode : Obligations.DecodeInvertsEncode := fun _ bytes hc =>
  Codec.decode_encode hc bytes

/-- Settles O59: OUT holds `encode(B)` after the first transaction, and `decode` inverts it. -/
theorem engineRoundTrip : Obligations.EngineRoundTrip := by
  intro bytes s h hs hfit hfit'
  obtain ⟨t, ht, hm, henc⟩ := h.engineInv.encodeTransaction_holds hs hfit
  have hinv := h.engineInv.execAll wellFormed_of_mem_encodeTransaction ht
  have hdec := Codec.decode_encode h.config bytes
  rw [← execAll_config_eq ht] at henc hdec hfit'
  obtain ⟨u, hu, hdone⟩ := hinv.decodes (by simp [hm]) hdec
    (by rwa [Codec.encode_length, Nat.add_sub_cancel_left])
  refine ⟨t, u, ht, ?_, hdone.mode, ?_, fun i => ?_⟩
  · rw [henc.out, entriesFrom_values, hu]
  · rw [hdone.holds.outLen, List.length_map]
  · rw [hdone.holds.read, List.getElem?_map]

/-- Settles O51: a header in range is accepted, and in DERR nothing happens. -/
theorem decSymAcceptsTheHeader : Obligations.DecSymAcceptsTheHeader := by
  refine fun cp s hc => ⟨fun hm hle hv => ?_, exec_decSym_of_derr⟩
  have hheader : Codec.header s.config cp = .ok (cp.toNat - s.config.cpStart.toNat) :=
    Codec.header_eq_ok_iff.mpr ⟨(inRange_iff _ _).mpr ⟨hle, by omega⟩, by omega, rfl⟩
  refine ⟨_, (exec_decSym_of_decHdr hm).trans
    (congrArg _ (State.acceptHeader_of_ok hheader)), ?_, rfl⟩
  exact Nat.mod_eq_of_lt (by omega)

/-- Settles O52: the entries added are the bytes of the accumulator with the symbol's value behind it,
and the newest bits stay. -/
theorem decSymUnpacksAPayloadSymbol : Obligations.DecSymUnpacksAPayloadSymbol := by
  intro cp s h hm hr
  refine ⟨fun hfit => ?_, exec_decSym_of_overflow hm (if_pos hr)⟩
  have hinv := h.engineInv
  have hval := symbolValue_toNat s.config cp hr
  have hpacks := hinv.feedValue_packs_loopValues (v := (cp - s.config.cpStart).setWidth 18) hm hfit
  obtain ⟨-, -, hlen, -⟩ := hinv.feedValue_spec hm ((cp - s.config.cpStart).setWidth 18)
    (not_lt.mpr hfit)
  rw [← hval]
  refine ⟨_, exec_decSym_of_room hm (if_pos hr) hfit, hinv.nsym_succ hm, hpacks.cnt, hpacks.acc,
    hlen, fun j hj => ⟨_, hinv.feedValue_read_added hm hfit hj, ?_⟩,
    fun a => hinv.feedValue_read_of_not_added hm hfit, State.feedValue_frame _ s⟩
  rw [BitVec.toNat_setWidth, BitVec.toNat_ofNat]
  omega

/-- Settles O53: OUT is cut at the useful bytes where there is padding, and left as it is where there
is none. -/
theorem decFinishStripsThePadding : Obligations.DecFinishStripsThePadding := by
  refine fun s h => ⟨fun hm => ?_, exec_decFinish_of_derr, fun hm => ?_⟩
  · obtain ⟨-, hlen, -⟩ := h.decHdr hm
    exact ⟨exec_decFinish_of_decHdr hm, hlen⟩
  have hstrip := h.engineInv.stripPadding_eq hm
  have hlen := h.engineInv.setOutLen_usefulBytes_toNat hm
  refine ⟨_, exec_decFinish_of_decPay hm, ?_⟩
  rw [s.finishDecode_eq, hstrip, ← s.usefulBytes_eq]
  by_cases hpad : s.pad = 0
  · have hd : s.definedFrom 0 := h.engineInv.defined (by simp [hm]) (by simp [hm])
    rw [if_pos hpad, if_neg (by simp [hpad])]
    refine ⟨rfl, fun _ _ => rfl, fun a ha => Memory.read_eq_none fun hmem => ?_, rfl⟩
    exact absurd (State.definedFrom_keys_lt hd a hmem) (not_lt.mpr ha)
  · have hpos : 0 < s.pad.toNat := Nat.pos_of_ne_zero fun hz => hpad (BitVec.eq_of_toNat_eq hz)
    rw [if_neg hpad, if_pos hpos]
    refine ⟨hlen, fun a ha => Memory.read_truncate_of_lt _ a _ (by rwa [hlen] at ha),
      fun a ha => Memory.read_truncate_of_ge _ a _ (by rwa [hlen] at ha), rfl⟩

/-- Settles O54: OUT has the bytes of the payload's bits, and the pad count is at most 17 of them. -/
theorem truncationNeverExtends : Obligations.TruncationNeverExtends := by
  intro s h hm
  obtain ⟨hle, hge⟩ := h.engineInv.usefulBytes_bounds hm
  obtain ⟨hpos, hcnt, hbits⟩ := h.decPay hm
  have hpad := h.pad
  refine ⟨hle, hge, fun hneg => ?_⟩
  rw [State.usefulBits] at hneg
  have hone : s.nsym.toNat = 1 := by omega
  have hempty : s.outLen.toNat = 0 := by omega
  exact ⟨hone, BitVec.eq_of_toNat_eq hempty⟩

/-- Settles O55, row by row: the header's rows, a header with one payload symbol, and the failures. -/
theorem foreignInputOutcomes : Obligations.ForeignInputOutcomes := by
  intro c hc
  have hheader {p : Value} (hp : p.toNat ≤ 17) :=
    Codec.header_of_ok (symbolToValue_valueToSymbol hc p) hp
  refine ⟨rfl, fun p hp => ?_, fun p v hp => ?_, fun p v hlo hhi => ?_, fun p v hlo hhi => ?_,
    fun rest => ?_, fun cp rest hcp => ?_, fun p rest hp hbad => ?_⟩
  · rw [Codec.decode_cons_of_ok (hheader hp) rfl, List.take_nil, ite_self]
  · rw [Codec.decode_pair hc v (by omega), show (18 - p.toNat) / 8 = 2 by omega]
    rfl
  · rw [Codec.decode_pair hc v (by omega), show (18 - p.toNat) / 8 = 1 by omega]
    rfl
  · rw [Codec.decode_pair hc v hhi, show (18 - p.toNat) / 8 = 0 by omega, List.take_zero]
  · exact Codec.decode_cons_of_header_error
      (Codec.header_of_large (symbolToValue_valueToSymbol hc 18) (by decide))
  · exact Codec.decode_cons_of_header_error (Codec.header_of_not_inRange hcp)
  · exact Codec.decode_cons_of_unpack_error (hheader hp) (Codec.unpackSymbols_of_not_inRange hbad)

/-- Settles O50: opening a transaction clears what R120 names. -/
theorem decStartOpensADecode : Obligations.DecStartOpensADecode := by
  intro s hs
  rw [exec_decStart hs]
  simp [State.openTransaction, State.setOutLen, State.clear]

end Sys2Proof.Proofs
end

section
/-! PROOFS. Errors and faults (60_exceptions.md): what the two failure primitives do (R132, R136), the
order of the checks of one command (R138), and that only reset leaves FAULT (R137). -/

namespace Sys2Proof.Machine

/-! ## The failure primitives (R132) -/

theorem State.raiseError_eq (e : ResultError) (s : State) :
    s.raiseError e =
      { s with ecode := some e, outLen := 0, out := [], acc := 0, cnt := 0, mode := .derr } := by
  simp [State.raiseError, State.setOutLen, State.clear]

/-! ## How a command can fail (R138) -/

section
variable {s t : State} {i : Instr}

/-- The check of MODE fails: the command has no place in the transaction state (R134). -/
def State.OutOfSequence (s : State) : Instr → Prop
  | .accClr | .accApp _ _ | .accExt _ => ¬ s.outsideTransaction
  | .encByte _ | .encFinish => s.mode ≠ .enc
  | .decSym _ | .decFinish => s.mode = .idle ∨ s.mode = .enc ∨ s.mode = .done
  | .encStart | .decStart => False

/-- `t` shows a failure of the command that led to it from `s`: FAULT, or a new DERR. -/
abbrev State.FailsInto (s t : State) : Prop := t.mode = .fault ∨ (t.mode = .derr ∧ s.mode ≠ .derr)

/-- One constructor per check that can fail, with the checks before it passed, and the state that
reports it. -/
inductive Failure (s : State) : Instr → State → Prop where
  | sequence (i : Instr) (hseq : s.OutOfSequence i) : Failure s i (s.raiseFault .sequenceFault)
  | accOverflow (n : GroupSize) (chunk : Value) (hm : s.outsideTransaction)
      (hover : s.config.accCap < s.cnt.toNat + n.toNat) :
      Failure s (.accApp n chunk) (s.raiseFault .accOverflow)
  | accUnderflow (m : GroupSize) (hm : s.outsideTransaction) (hunder : s.cnt.toNat < m.toNat) :
      Failure s (.accExt m) (s.raiseFault .accUnderflow)
  | invalidSymbol (cp : CodePoint) (hm : s.mode = .decHdr ∨ s.mode = .decPay)
      (hcp : inRange s.config cp = false) : Failure s (.decSym cp) (s.raiseError .invalidSymbol)
  | invalidHeader (cp : CodePoint) (hm : s.mode = .decHdr) (hcp : inRange s.config cp = true)
      (hv : 17 < cp.toNat - s.config.cpStart.toNat) :
      Failure s (.decSym cp) (s.raiseError .invalidHeader)
  | encByteOverflow (b : Byte) (hm : s.mode = .enc) (hover : s.outOverflows s.encByteEmits) :
      Failure s (.encByte b) (s.raiseFault .outOverflow)
  | encFinishOverflow (hm : s.mode = .enc) (hover : s.outOverflows s.encFinishEmits) :
      Failure s .encFinish (s.raiseFault .outOverflow)
  | decSymOverflow (cp : CodePoint) (hm : s.mode = .decPay) (hcp : inRange s.config cp = true)
      (hover : s.outOverflows s.decSymEmits) : Failure s (.decSym cp) (s.raiseFault .outOverflow)

/-! ### A check that fails is reported -/

theorem exec_of_outOfSequence (hs : s.mode ≠ .fault) (hseq : s.OutOfSequence i) :
    exec i s = .next (s.raiseFault .sequenceFault) := by
  cases i with
  | accClr | accApp | accExt | encByte | encFinish =>
    exact (unlessFaulted_of_running _ _ hs).trans (congrArg _ (faultIf_of _ _ _ _ hseq))
  | decSym cp => rcases hseq with hm | hm | hm <;> simp [exec, execDecSym, hm]
  | decFinish => rcases hseq with hm | hm | hm <;> simp [exec, execDecFinish, hm]
  | encStart | decStart => exact hseq.elim

theorem State.acceptHeader_of_not_inRange {cp : CodePoint} (hcp : inRange s.config cp = false) :
    s.acceptHeader cp = s.raiseError .invalidSymbol :=
  State.acceptHeader_of_error (Codec.header_of_not_inRange hcp)

theorem State.acceptHeader_of_large {cp : CodePoint} (hcp : inRange s.config cp = true)
    (hv : 17 < cp.toNat - s.config.cpStart.toNat) :
    s.acceptHeader cp = s.raiseError .invalidHeader :=
  State.acceptHeader_of_error
    (Codec.header_of_large (if_pos hcp) (by rwa [symbolValue_toNat _ _ hcp]))

theorem Failure.exec_eq (hs : s.mode ≠ .fault) (h : Failure s i t) : exec i s = .next t := by
  cases h with
  | sequence i hseq => exact exec_of_outOfSequence hs hseq
  | accOverflow n chunk hm hover => exact exec_accApp_of_overflow hm hover
  | accUnderflow m hm hunder => exact exec_accExt_of_underflow hm hunder
  | invalidSymbol cp hm hcp =>
    rcases hm with hm | hm
    · rw [exec_decSym_of_decHdr hm, State.acceptHeader_of_not_inRange hcp]
    · exact exec_decSym_of_not_inRange hm hcp
  | invalidHeader cp hm hcp hv =>
    rw [exec_decSym_of_decHdr hm, State.acceptHeader_of_large hcp hv]
  | encByteOverflow b hm hover => exact exec_encByte_of_overflow hm hover
  | encFinishOverflow hm hover => exact exec_encFinish_of_overflow hm hover
  | decSymOverflow cp hm hcp hover => exact exec_decSym_of_overflow hm (if_pos hcp) hover

/-! ### A failure that is reported is a check that fails -/

theorem State.not_failsInto_of_mode_eq (hs : s.mode ≠ .fault) (hm : t.mode = s.mode) :
    ¬ s.FailsInto t := by
  simp [State.FailsInto, hm, hs]

theorem failure_of_acceptHeader {cp : CodePoint} (hm : s.mode = .decHdr)
    (hfail : s.FailsInto (s.acceptHeader cp)) : Failure s (.decSym cp) (s.acceptHeader cp) := by
  rcases acceptHeader_cases cp s with ⟨hcp, e⟩ | ⟨hcp, hv, e⟩ | ⟨-, -, e⟩ <;> rw [e] at hfail ⊢
  · exact .invalidSymbol cp (.inl hm) hcp
  · exact .invalidHeader cp hm hcp hv
  · exact absurd hfail (by simp)

theorem failure_of_acceptPayload {cp : CodePoint} (hm : s.mode = .decPay)
    (hfail : s.FailsInto (s.acceptPayload cp)) : Failure s (.decSym cp) (s.acceptPayload cp) := by
  rcases acceptPayload_cases cp s with ⟨hcp, e⟩ | ⟨hcp, hover, e⟩ | ⟨-, -, e⟩ <;>
    rw [e] at hfail ⊢
  · exact .invalidSymbol cp (.inr hm) hcp
  · exact .decSymOverflow cp hm hcp hover
  · exact absurd hfail (State.not_failsInto_of_mode_eq (by simp [hm]) (State.feedValue_mode _ _))

/-- The checks of each meaning are the only way into FAULT or DERR. -/
theorem failure_of_exec (hs : s.mode ≠ .fault) (h : exec i s = .next t) (hfail : s.FailsInto t) :
    Failure s i t := by
  have hkeeps (hm : t.mode = s.mode) : Failure s i t :=
    absurd hfail (State.not_failsInto_of_mode_eq hs hm)
  cases i with
  | accClr =>
    obtain ⟨hseq, rfl⟩ | ⟨-, rfl⟩ := execAccClr_cases s t hs h
    · exact .sequence _ hseq
    · exact hkeeps rfl
  | accApp n chunk =>
    obtain ⟨hseq, rfl⟩ | ⟨hm, hover, rfl⟩ | ⟨-, -, rfl⟩ := execAccApp_cases n chunk s t hs h
    · exact .sequence _ hseq
    · exact .accOverflow n chunk hm hover
    · exact hkeeps rfl
  | accExt m =>
    obtain ⟨hseq, rfl⟩ | ⟨hm, hunder, rfl⟩ | ⟨-, -, rfl⟩ := execAccExt_cases m s t hs h
    · exact .sequence _ hseq
    · exact .accUnderflow m hm hunder
    · exact hkeeps rfl
  | encStart =>
    obtain rfl := execEncStart_cases s t hs h
    exact absurd hfail (by simp)
  | encByte b =>
    obtain ⟨hseq, rfl⟩ | ⟨hm, hover, rfl⟩ | ⟨-, -, rfl⟩ := execEncByte_cases b s t hs h
    · exact .sequence _ hseq
    · exact .encByteOverflow b hm hover
    · exact hkeeps (State.feedByte_mode _ _)
  | encFinish =>
    obtain ⟨hseq, rfl⟩ | ⟨hm, hover, rfl⟩ | ⟨-, -, rfl⟩ := execEncFinish_cases s t hs h
    · exact .sequence _ hseq
    · exact .encFinishOverflow hm hover
    · exact absurd hfail (by simp [State.finishEncode])
  | decStart =>
    obtain rfl := execDecStart_cases s t hs h
    exact absurd hfail (by simp)
  | decSym cp =>
    obtain ⟨hseq, rfl⟩ | ⟨-, rfl⟩ | ⟨hm, rfl⟩ | ⟨hm, rfl⟩ := execDecSym_cases cp s t hs h
    · exact .sequence _ hseq
    · exact hkeeps rfl
    · exact failure_of_acceptHeader hm hfail
    · exact failure_of_acceptPayload hm hfail
  | decFinish =>
    obtain ⟨hseq, rfl⟩ | ⟨-, rfl⟩ | ⟨-, rfl⟩ | ⟨-, rfl⟩ := execDecFinish_cases s t hs h
    · exact .sequence _ hseq
    · exact hkeeps rfl
    · exact absurd hfail (by simp)
    · exact absurd hfail (by simp [State.finishDecode])

/-! ## What a word reports -/

theorem executeWord_of_decode {w : Word} (hd : decode w = .ok i) (s : State) :
    executeWord w s = exec i s := by
  simp only [executeWord, hd]

theorem executeWord_of_not_decodes {w : Word} (hs : s.mode ≠ .fault)
    (hd : ∀ i, decode w ≠ .ok i) : executeWord w s = .next (s.raiseFault .illegalCommand) := by
  have hill : legal w = false := Bool.eq_false_iff.mpr fun hl =>
    (legal_iff_decodes.mp hl).elim hd
  exact executeWord_of_illegal hill hs

theorem Failure.executeWord_eq {w : Word} (h : Failure s i t) (hs : s.mode ≠ .fault)
    (hd : decode w = .ok i) : executeWord w s = .next t :=
  (executeWord_of_decode hd s).trans (h.exec_eq hs)

/-! ## Into FAULT and out of it (R136, R137) -/

theorem Effect.exists_raiseFault (h : Effect s i t) (hs : s.mode ≠ .fault) (ht : t.mode = .fault) :
    ∃ f, t = s.raiseFault f := by
  cases h with
  | fault _ f => exact ⟨f, rfl⟩
  | _ => simp [hs, State.finishEncode, State.finishDecode] at ht

theorem executeWord_exists_raiseFault {w : Word} (h : executeWord w s = .next t)
    (hs : s.mode ≠ .fault) (ht : t.mode = .fault) : ∃ f, t = s.raiseFault f := by
  rcases executeWord_cases h with ⟨hf, -⟩ | ⟨-, -, rfl⟩ | ⟨-, i, -, he⟩
  · exact absurd hf hs
  · exact ⟨_, rfl⟩
  · exact he.exists_raiseFault hs ht

/-- Of the host's inputs only reset leaves FAULT. -/
theorem acceptInput_mode_of_fault {x : HostInput} (h : acceptInput x s = .next t)
    (hs : s.mode = .fault) : t.mode = .fault ∨ x = .assertReset ∨ x = .releaseReset := by
  obtain ⟨w, -, -, he⟩ | ⟨hx, -⟩ | ⟨d, rfl⟩ := acceptInput_cases h
  · obtain rfl : s = t := by simpa [executeWord_of_fault w hs] using he
    exact .inl hs
  · exact .inr hx
  · exact .inl hs

theorem State.finish_of_fault (hs : s.mode = .fault) :
    s.finish = .fault (.protocolFault s.fcode) := if_pos hs

end

end Sys2Proof.Machine

namespace Sys2Proof.Proofs
open Sys2Proof Sys2Proof.Machine

/-! ## The statements -/

/-- Settles O29: each check that fails raises its fault, and no effect of a command leads to FAULT. -/
theorem faultingCommandChangesOnlyFcodeAndMode :
    Obligations.FaultingCommandChangesOnlyFcodeAndMode :=
  ⟨fun _ _ => rfl, fun _ _ _ => executeWord_exists_raiseFault⟩

/-- Settles O30: in FAULT a word is ignored and a read changes the host's data alone. -/
theorem faultIsStickyUntilReset : Obligations.FaultIsStickyUntilReset :=
  ⟨fun w _ => executeWord_of_fault w, fun _ _ _ => acceptInput_mode_of_fault, fun _ _ _ => rfl,
    fun _ => State.finish_of_fault⟩

/-- Settles O31: a command that fails answers what its check reports, and nothing else leads to a
failure. -/
theorem checksRunInOrder : Obligations.ChecksRunInOrder := by
  refine fun w s => ⟨executeWord_of_fault w, fun hs => ?_⟩
  have hreport {i : Instr} {t : State} (hd : decode w = .ok i) (h : Failure s i t) :
      executeWord w s = .next t := h.executeWord_eq hs hd
  refine ⟨executeWord_of_not_decodes hs, fun hd hseq => hreport hd (.sequence _ hseq),
    fun n chunk hd => ⟨fun hseq => hreport hd (.sequence _ hseq),
      fun hm hover => hreport hd (.accOverflow n chunk hm hover)⟩,
    fun m hd => ⟨fun hseq => hreport hd (.sequence _ hseq),
      fun hm hunder => hreport hd (.accUnderflow m hm hunder)⟩,
    fun b hd => ⟨fun hseq => hreport hd (.sequence _ hseq),
      fun hm hover => hreport hd (.encByteOverflow b hm hover)⟩,
    fun hd => ⟨fun hseq => hreport hd (.sequence _ hseq),
      fun hm hover => hreport hd (.encFinishOverflow hm hover)⟩,
    fun cp hd => ⟨fun hseq => hreport hd (.sequence _ hseq),
      fun hm => (executeWord_of_decode hd s).trans (exec_decSym_of_derr hm),
      fun hm hcp => hreport hd (.invalidSymbol cp hm hcp),
      fun hm hcp hv => hreport hd (.invalidHeader cp hm hcp hv),
      fun hm hcp hover => hreport hd (.decSymOverflow cp hm hcp hover)⟩,
    fun hd => ⟨fun hseq => hreport hd (.sequence _ hseq),
      fun hm => (executeWord_of_decode hd s).trans (exec_decFinish_of_derr hm)⟩,
    fun i t hd h hfail => ?_⟩
  rw [executeWord_of_decode hd] at h
  cases failure_of_exec hs h hfail with
  | sequence _ hseq => exact .inl ⟨rfl, hseq⟩
  | accOverflow n chunk _ hover => exact .inr (.inl ⟨rfl, n, chunk, rfl, hover⟩)
  | accUnderflow m _ hunder => exact .inr (.inr (.inl ⟨rfl, m, rfl, hunder⟩))
  | invalidSymbol cp _ hcp => exact .inr (.inr (.inr (.inl ⟨cp, rfl, rfl, hcp⟩)))
  | invalidHeader cp _ hcp hv => exact .inr (.inr (.inr (.inr (.inl ⟨cp, rfl, rfl, hcp, hv⟩))))
  | encByteOverflow _ _ hover | encFinishOverflow _ hover =>
    exact .inr (.inr (.inr (.inr (.inr ⟨rfl, hover⟩))))
  | decSymOverflow cp hm hcp hover =>
    exact .inr (.inr (.inr (.inr (.inr ⟨rfl, hm, hcp, hover⟩))))

/-- Settles O32: the two checks of DEC_SYM that raise an error are the only way into DERR. -/
theorem resultErrorsOnlyFromDecSym : Obligations.ResultErrorsOnlyFromDecSym := by
  refine ⟨fun cp s hm hcp => ?_, fun cp s hm hcp hv => ?_, fun i s t h ht hne => ?_,
    fun s h hm => ?_⟩
  · have hs : s.mode ≠ .fault := by rcases hm with e | e <;> simp [e]
    rw [(Failure.invalidSymbol cp hm hcp).exec_eq hs, State.raiseError_eq]
  · rw [(Failure.invalidHeader cp hm hcp hv).exec_eq (by simp [hm]), State.raiseError_eq]
  · have hs : s.mode ≠ .fault := by
      intro hf
      obtain rfl : s = t := by simpa [exec_of_fault i s hf] using h
      exact hne ht
    cases failure_of_exec hs h (.inr ⟨ht, hne⟩) with
    | invalidSymbol cp hm hcp => exact ⟨cp, rfl, .inl ⟨hm, hcp⟩⟩
    | invalidHeader cp hm hcp hv => exact ⟨cp, rfl, .inr ⟨hm, hcp, hv⟩⟩
    | _ => simp at ht
  · obtain ⟨-, -, hnsym, hpad⟩ := h.decHdr hm
    exact ⟨hnsym, hpad⟩

/-- Settles O16: a step takes an input, and there is none. -/
theorem engineHoldsStateWithoutInput : Obligations.EngineHoldsStateWithoutInput := fun s h => by
  simp only [step, h]

/-- Settles O28: OUT loses every entry, and each error has its code. -/
theorem raiseErrorEffect : Obligations.RaiseErrorEffect := by
  refine fun e s => ⟨s.raiseError_eq e, by cases e <;> rfl, fun i => ?_⟩
  rw [State.raiseError_out, Memory.truncate_zero, Memory.read_nil]

end Sys2Proof.Proofs
end

section
/-! PROOFS. Reset and progress (70_reset_and_hazards.md): what the two reset inputs answer and what a
command word does while reset is asserted (R150), and that every command word completes (R162). -/

namespace Sys2Proof.Machine

/-! ## The reset input (R150) -/

section
variable {s : State}

/-- Asserting reset puts the engine in the reset state, the input still asserted. -/
theorem acceptInput_assertReset (s : State) :
    acceptInput .assertReset s = .next { s.resetEngine with resetAsserted := true } := rfl

/-- Of the engine's state a reset keeps the parameters, and of the rest only what is the host's. -/
theorem State.resetEngine_released (s : State) :
    { s.resetEngine with resetAsserted := false } =
      { State.resetWith s.config with inputs := s.inputs, hostData := s.hostData } := rfl

theorem acceptInput_releaseReset_of_asserted (hr : s.resetAsserted = true) :
    acceptInput .releaseReset s = .next { State.resetWith s.config with
      inputs := s.inputs, hostData := s.hostData } := by
  simp only [acceptInput, acceptReleaseReset, if_pos hr, State.resetEngine_released]

/-- A word offered while reset is asserted is lost. -/
theorem acceptInput_command_of_asserted (w : Word) (hr : s.resetAsserted = true) :
    acceptInput (.command w) s = .next s := if_pos hr

end

/-! ## Progress (R162) -/

theorem executeWord_of_error {w : Word} {e : IllegalWord} (hd : decode w = .error e) (s : State) :
    executeWord w s = unlessFaulted s (s.raiseFault .illegalCommand) := by
  simp only [executeWord, hd]

/-- A word that decodes runs its command, and an illegal one is ignored or raises a fault. -/
theorem exists_executeWord_eq_next (w : Word) (s : State) : ∃ t, executeWord w s = .next t := by
  cases hd : decode w with
  | ok i =>
    obtain ⟨t, ht⟩ := exists_exec_eq_next i s
    exact ⟨t, (executeWord_of_decode hd s).trans ht⟩
  | error e => exact ⟨_, executeWord_of_error hd s⟩

end Sys2Proof.Machine

namespace Sys2Proof.Proofs
open Sys2Proof Sys2Proof.Machine

/-! ## The statements -/

/-- Settles O11: the release resets the engine again, so what the assertion left does not matter, and
FAULT is left by the reset inputs alone. -/
theorem resetInputLeadsToResetState : Obligations.ResetInputLeadsToResetState :=
  ⟨fun s => ⟨_, acceptInput_assertReset s, rfl, acceptInput_releaseReset_of_asserted rfl⟩,
    fun _ => acceptInput_releaseReset_of_asserted,
    fun w _ => acceptInput_command_of_asserted w,
    fun _ _ _ h hs ht => (acceptInput_mode_of_fault h hs).resolve_left ht⟩

/-- Settles O18: the decoder has an answer for every word, and each answer leads to a next state. -/
theorem everyCommandWordCompletes : Obligations.EveryCommandWordCompletes := exists_executeWord_eq_next

end Sys2Proof.Proofs
end

section
/-! PROOFS. The reset state meets the invariant: its base case (10_state.md R43). -/

namespace Sys2Proof.Machine

/-- Resetting an engine that is already in the reset state changes nothing. -/
theorem State.resetEngine_resetWith (c : Config) :
    (State.resetWith c).resetEngine = State.resetWith c := rfl

theorem State.inv_resetWith {c : Config} (hc : c.wf) : (State.resetWith c).Inv := by
  have h : ({ (State.resetWith c).resetEngine with resetAsserted := false } : State).Inv :=
    State.inv_resetEngine hc false
  rwa [State.resetEngine_resetWith] at h

/-- The parameters of the spec's own vectors are allowed by 00_scope.md R8 to R10. -/
theorem Config.wf_reference : Config.reference.wf := by decide

end Sys2Proof.Machine

namespace Sys2Proof.Proofs
open Sys2Proof Sys2Proof.Machine

/-- Settles O12: a reset leads to a state that meets the invariant, and the reset state is what a reset
makes of itself. -/
theorem resetStatesSatisfyInv : Obligations.ResetStatesSatisfyInv :=
  ⟨fun _ hc => State.inv_resetWith hc, rfl, State.inv_resetWith Config.wf_reference⟩

end Sys2Proof.Proofs
end
